-- ==== Sys2Proof/Word.lean ====
section
/-! DEFINITION. The widths of the spec: register words, bytes, node indices, weights, bitstrings and
node entries (00_scope R6-R8, 10_state R25). -/

namespace Sys2Proof

/-- A host register, an argument, a result or a command word: 32 bits, unsigned (00_scope R7). -/
abbrev Word := BitVec 32

/-- A byte of DMEM, a byte value (symbol) or a bit symbol: 8 bits. -/
abbrev Byte := BitVec 8

/-- A node index: 9 bits, 0..510 in use (00_scope R6, `IDX_BITS`). -/
abbrev NodeIndex := BitVec 9

/-- A node's weight: 40 bits (00_scope R6, `NFREQ_BITS`). -/
abbrev Weight := BitVec 40

/-- A bitstring, leftmost bit first; `true` is the bit 1 (00_scope R8). -/
abbrev Bits := List Bool

/-- One entry of the node store (10_state R25). -/
structure Node where
  isLeaf : Bool
  sym    : Byte
  left   : NodeIndex
  right  : NodeIndex
  freq   : Weight
  deriving DecidableEq, Repr, Inhabited

/-- The leaf entry of byte value `s` and weight `w`: `left` and `right` are 0 in a leaf (10_state R25). -/
def Node.leaf (s : Byte) (w : Weight) : Node := ⟨true, s, 0, 0, w⟩

/-- The internal entry with children `l` (bit 0) and `r` (bit 1): `sym` is 0 in an internal node
(10_state R25). -/
def Node.internal (l r : NodeIndex) (w : Weight) : Node := ⟨false, 0, l, r, w⟩

end Sys2Proof
end

