-- ==== Sys2Proof/Config.lean ====
section
/-! DEFINITION. What an implementation fixes (00_scope R6) and the free values of the spec
(93_implementation_defined section 2). A free value is an opaque constant: no proof can see it. -/

namespace Sys2Proof.Config

/-- `ID_VALUE`, the bytes "HTB1" (10_state R44). -/
def idValue : Word := 0x48544231#32

/-- `N_NODES`: entries of the node store, indices 0..510 (00_scope R6). -/
def nNodes : Nat := 511

/-- `MAX_DEPTH`: the greatest depth of a leaf (00_scope R6). -/
def maxDepth : Nat := 255

/-- The least and greatest value of the OPEN parameter `DMEM_BYTES` (00_scope R6). -/
def dmemBytesMin : Nat := 1
def dmemBytesMax : Nat := 2 ^ 29

/-- DESIGN CHOICE (log 1): the argument `State.reset` gives `State.resetWith` for the parameter, as the last DMEM
address: `DMEM_BYTES = 65536`, the value of every vector of 95. -/
def dmemTopAtReset : Fin dmemBytesMax := ⟨65535, by decide⟩

/-- A free value (20_memory R61): the byte that DMEM address `a` holds while nothing has written it
since the hardware reset numbered `epoch`. Log 2. -/
opaque freeDmem (epoch a : Nat) : Byte

/-- A free value (10_state R25, R48): the content of node store entry `i` while unspecified. Log 3. -/
opaque freeNode (epoch i : Nat) : Node

/-- A free value (10_state R34, R48): the code of byte value `s` while the code table is
unspecified. Log 4. -/
opaque freeCode (epoch : Nat) (s : Byte) : Bits

/-- A free value (70_reset_and_hazards R353): what the `n`-th read of a result register made while
`BUSY = 1` returns. Log 5. -/
opaque freeWord (n : Nat) : Word

/-- The OPEN parameter `CONTAINER_MAGIC`: four bytes, host side only (20_memory R82). Log 17. -/
opaque containerMagic : Vector Byte 4

end Sys2Proof.Config
end

