-- ==== Sys2Proof/Machine/State.lean ====
section
/-! DEFINITION. The state of the block and of the host that drives it (10_state), as plain data, with the
fault and refusal names and the reset state. -/

namespace Sys2Proof.Machine

/-- Why the machine stops with a fault. Command errors are not faults: they complete the command with
`STATUS.ERR = 1` (60_exceptions R300). -/
inductive Fault where
  /-- Raised by a host line that reads or writes a DMEM byte outside `0 .. DMEM_BYTES - 1`: the address does
  not exist (20_memory R60). Safe: the run stops. Log 14. -/
  | dmemAddress
  deriving DecidableEq, Repr

/-- Why the machine gives a run no meaning. Except `notModelled`, each is a refusal that the spec itself
asks of a model. -/
inductive Refusal where
  /-- Raised by an arm of `exec` whose instruction has no meaning yet. Safe: the run stops. -/
  | notModelled (mnemonic : String)
  /-- Raised by ENCODE and DEC_BULK when source and destination share a byte (20_memory R78,
  70_reset_and_hazards R355). Safe: the run stops. -/
  | overlappingRegions
  /-- Raised by a host line that reads or writes DMEM while `BUSY = 1` (20_memory R73,
  70_reset_and_hazards R354). Safe: the run stops. -/
  | dmemRace
  /-- Raised by a host line that accesses the register window with another width than 32 bits or at an
  offset that is no multiple of 4 (20_memory R68, 70_reset_and_hazards R356). Safe: the run stops. -/
  | registerAccess
  deriving DecidableEq, Repr

/-- The errors a command can report, with what each says in `ERRINFO` (60_exceptions R301). -/
inductive CmdError where
  | emptyInput
  | symbolNotInTable (sym : Byte)
  | invalidBit (sym : Byte)
  | uninitializedTree
  | invalidContainer (cause : Word)
  | illegalCommand (word : Word)
  | addressRange (arg : Word)
  | capacityExceeded (arg : Word)
  deriving DecidableEq, Repr

/-- The four arguments latched at issue (10_state R41). -/
structure Args where
  a0 : Word
  a1 : Word
  a2 : Word
  a3 : Word
  deriving DecidableEq, Repr

/-- One latched command: its word and its arguments (10_state R23). -/
structure Pending where
  word : Word
  args : Args
  deriving DecidableEq, Repr

/-- A tie-break key `(NODES[idx].freq, idx)` (00_scope R12): what the priority queue orders by. -/
structure QueueKey where
  freq : Weight
  idx  : NodeIndex
  deriving DecidableEq, Repr

/-- The node store and the priority queue while TREE_BUILD merges (41_tree_builder R157-R160). -/
structure Builder where
  nodes : List Node
  pq    : List QueueKey
  deriving DecidableEq, Repr

/-- TREE_DESER's parse in progress (45_tree_serdes R275): `pos` bits consumed, the fresh store `NEW`
(`k` is its length) and the leaf byte values met. -/
structure ParseState where
  pos   : Nat
  fresh : List Node
  seen  : List Byte
  deriving DecidableEq, Repr

/-- Why TREE_DESER's parse fails: the causes of 45_tree_serdes R277. -/
inductive ParseError where
  | truncated
  | storeFull
  | duplicateSymbol
  deriving DecidableEq, Repr

/-- What the host or the platform can do to the block (30_encoding R109, 60_exceptions R319,
70_reset_and_hazards R340). `width` is the access width in bytes, `offset` the 6-bit byte offset in the
register window (10_state R47), `addr` a DMEM byte address. -/
inductive HostAction where
  /-- `WR`: write a register; at offset 0x00 this is `ISSUE`. -/
  | writeReg (width : Nat) (offset : BitVec 6) (value : Word)
  /-- `RD`: read a register. -/
  | readReg (width : Nat) (offset : BitVec 6)
  /-- `MEMW`: write bytes to DMEM from an address on. -/
  | writeMem (addr : Word) (bytes : List Byte)
  /-- Read one DMEM byte. -/
  | readMem (addr : Word)
  /-- `WAIT`: poll `STATUS` until `BUSY = 0`. -/
  | wait
  /-- The platform's reset input. -/
  | hardReset
  deriving DecidableEq, Repr

/-- A line of the host's program. While a command is pending an `early` line happens before the block's
step, any other line after it (log 6). -/
structure HostLine where
  early  : Bool
  action : HostAction
  deriving DecidableEq, Repr

/-- Everything the spec gives the machine (10_state), then the model's own fields. `STATUS.BUSY`,
`AT_ROOT` and `SINGLE_LEAF` are computed (`statusWord`), `ID` is constant, `CMD` reads 0. -/
structure State where
  /-- `PENDING`; `BUSY` is 1 exactly when it is not `none` (R23). -/
  pending    : Option Pending
  /-- `STATUS.ERR` (R39). -/
  err        : Bool
  /-- `STATUS.ERRCODE` (R39). -/
  errCode    : BitVec 4
  /-- `STATUS.TREE_VALID` (R30). -/
  treeValid  : Bool
  /-- `STATUS.OVERRUN` (R39). -/
  overrun    : Bool
  /-- `ERRINFO` (R43). -/
  errInfo    : Word
  /-- `A0..A3` (R40). -/
  a0         : Word
  a1         : Word
  a2         : Word
  a3         : Word
  /-- `Q0..Q2` (R42). -/
  q0         : Word
  q1         : Word
  q2         : Word
  /-- `CURSOR` (R35). -/
  cursor     : NodeIndex
  /-- `ROOT` (R28). -/
  root       : NodeIndex
  /-- `NODE_COUNT` (R29). -/
  nodeCount  : BitVec 10
  /-- `FREQ[0..255]` (R24). -/
  freq       : Vector Word 256
  /-- The specified entries of `NODES`, from index 0 on; an entry beyond them is unspecified (R25). -/
  nodes      : List Node
  /-- `PQ` (R31). -/
  pq         : List QueueKey
  /-- `CODE_LEN` and `CODE_BITS`: the code of each byte value, the empty bitstring for no entry; `none`
  while unspecified (R33, R34). -/
  codes      : Option (Vector Bits 256)
  /-- The DMEM bytes written since the last hardware reset, by rising address (20_memory R60, R61). -/
  dmem       : List Host.Cell
  /-- The model's own: the OPEN parameter of 00_scope R6 as the last DMEM address, `DMEM_BYTES - 1`, so that
  `DMEM_BYTES` (`State.dmemBytes`) is one of 1 to 2^29 in every state; never written (log 1). -/
  dmemTop    : Fin Config.dmemBytesMax
  /-- The model's own: which unspecified DMEM contents are in force (log 2). -/
  dmemEpoch  : Nat
  /-- The model's own: which unspecified node store and code table contents are in force (log 3, 4). -/
  storeEpoch : Nat
  /-- The model's own: how many free values reads while busy have taken (log 5). -/
  draws      : Nat
  /-- The model's own: the host's program still to run (log 6). -/
  script     : List HostLine
  /-- The model's own: what the host's reads returned, newest first (log 16). -/
  seen       : List Word
  deriving DecidableEq, Repr

/-- The machine after reset (10_state R48, 70_reset_and_hazards R340) on a block whose last DMEM address is `top`:
the OPEN parameter is an argument (00_scope R6, 70_reset_and_hazards R344). The model's own fields are as logs 1 to
6 and 16 say. -/
def State.resetWith (top : Fin Config.dmemBytesMax) : State where
  pending := none
  err := false
  errCode := 0
  treeValid := false
  overrun := false
  errInfo := 0
  a0 := 0
  a1 := 0
  a2 := 0
  a3 := 0
  q0 := 0
  q1 := 0
  q2 := 0
  cursor := 0
  root := 0
  nodeCount := 0
  freq := Vector.replicate 256 0
  nodes := []
  pq := []
  codes := none
  dmem := []
  dmemTop := top
  dmemEpoch := 0
  storeEpoch := 0
  draws := 0
  script := []
  seen := []

/-- The machine after reset, with the parameter at the value log 1 names. -/
def State.reset : State := State.resetWith Config.dmemTopAtReset

end Sys2Proof.Machine
end

