-- ==== Sys2Proof/Machine/Ops.lean ====
section
/-! DEFINITION. The named operations: DMEM and its bit view (20_memory), the arrays (10_state R24, R25, R33),
the registers, and how a command is issued, completes and fails (10_state R38, 60_exceptions R303, R304).
An error takes the place of a trap here (60_exceptions R300, R309): `State.raise` is the one shared
operation, and there is no return from it (R310). -/

namespace Sys2Proof.Machine

/-! ## DMEM as a list of cells -/

/-- The byte written at address `a`, `none` where nothing has been written. -/
def Memory.lookup : List Host.Cell → Nat → Option Byte
  | [], _ => none
  | c :: m, a => if c.1 = a then some c.2 else Memory.lookup m a

/-- What DMEM address `a` holds: the byte written, else the free value of the address (20_memory R61,
log 2). This is `MemRead(a, 1)` (R62). -/
def Memory.read (epoch : Nat) (m : List Host.Cell) (a : Nat) : Byte :=
  (Memory.lookup m a).getD (Config.freeDmem epoch a)

/-- `MemWrite(a, 1, v)` (20_memory R62), keeping the addresses rising. -/
def Memory.write : List Host.Cell → Nat → Byte → List Host.Cell
  | [], a, v => [(a, v)]
  | c :: m, a, v =>
    if c.1 < a then c :: Memory.write m a v
    else if c.1 = a then (a, v) :: m
    else (a, v) :: c :: m

/-- The canonical form: addresses strictly rising. An unlisted address has no byte of its own (`lookup` gives
`none`), so no entry can equal what it reads as (log 2). -/
def Memory.wf (m : List Host.Cell) : Bool := decide ((m.map (fun c => c.1)).Pairwise (fun a b => a < b))

/-- Every listed address exists: it is below `n` (20_memory R60). -/
def Memory.within (n : Nat) (m : List Host.Cell) : Bool := m.all (fun c => decide (c.1 < n))

/-- Write consecutive bytes from address `a` on. -/
def Memory.writeBytes (m : List Host.Cell) (a : Nat) : List Byte → List Host.Cell
  | [] => m
  | v :: vs => Memory.writeBytes (Memory.write m a v) (a + 1) vs

/-- The `n` bytes from address `a` on. -/
def Memory.readBytes (epoch : Nat) (m : List Host.Cell) (a : Nat) : Nat → List Byte
  | 0 => []
  | n + 1 => Memory.read epoch m a :: Memory.readBytes epoch m (a + 1) n

/-! ## The bit view (20_memory R64) -/

/-- The byte `x` with bit `i` (bit 0 least significant) set to `v`, every other bit unchanged. -/
def setBit (x : Byte) (i : Nat) (v : Bool) : Byte :=
  if v then x ||| (1#8 <<< i) else x &&& ~~~(1#8 <<< i)

/-- `BitRead(b)`: bit `7 - (b mod 8)` of byte `b div 8` (20_memory R64). -/
def Memory.bitRead (epoch : Nat) (m : List Host.Cell) (b : Nat) : Bool :=
  (Memory.read epoch m (b / 8)).getLsbD (7 - b % 8)

/-- `BitWrite(b, v)` (20_memory R64). -/
def Memory.bitWrite (epoch : Nat) (m : List Host.Cell) (b : Nat) (v : Bool) : List Host.Cell :=
  Memory.write m (b / 8) (setBit (Memory.read epoch m (b / 8)) (7 - b % 8) v)

/-- `ReadBits(b, n)` (20_memory R64). -/
def Memory.readBits (epoch : Nat) (m : List Host.Cell) (b : Nat) : Nat → Bits
  | 0 => []
  | n + 1 => Memory.bitRead epoch m b :: Memory.readBits epoch m (b + 1) n

/-- `WriteBits(b, p)` (20_memory R64): exactly the bits `b .. b + |p| - 1` (R65). -/
def Memory.writeBits (epoch : Nat) (m : List Host.Cell) (b : Nat) : Bits → List Host.Cell
  | [] => m
  | v :: p => Memory.writeBits epoch (Memory.bitWrite epoch m b v) (b + 1) p

/-- The parameter `DMEM_BYTES` (00_scope R6; log 1). -/
def State.dmemBytes (s : State) : Nat := s.dmemTop.val + Config.dmemBytesMin

/-- `MemRead` on the state's DMEM. -/
def State.readByte (s : State) (a : Nat) : Byte := Memory.read s.dmemEpoch s.dmem a

/-- `BitRead` on the state's DMEM. -/
def State.readBit (s : State) (b : Nat) : Bool := Memory.bitRead s.dmemEpoch s.dmem b

/-- `ReadBits` on the state's DMEM. -/
def State.readBits (s : State) (b n : Nat) : Bits := Memory.readBits s.dmemEpoch s.dmem b n

/-- The `n` bytes of the state's DMEM from address `a` on. -/
def State.readBytes (s : State) (a n : Nat) : List Byte := Memory.readBytes s.dmemEpoch s.dmem a n

/-- `WriteBits` on the state's DMEM. -/
def State.writeBits (s : State) (b : Nat) (p : Bits) : State :=
  { s with dmem := Memory.writeBits s.dmemEpoch s.dmem b p }

/-- `MemWrite` of consecutive bytes on the state's DMEM. -/
def State.writeBytes (s : State) (a : Nat) (vs : List Byte) : State :=
  { s with dmem := Memory.writeBytes s.dmem a vs }

/-! ## Bitstrings and bytes (00_scope R8) -/

/-- `bin8(s)`: the byte's bits, most significant first. -/
def bin8 (s : Byte) : Bits := (List.range 8).map (fun j => s.getLsbD (7 - j))

/-- `val(p)`: the number whose most-significant-first binary digits are `p`. -/
def bitsVal (p : Bits) : Nat := p.foldl (fun n b => 2 * n + b.toNat) 0

/-! ## The internal arrays -/

/-- `FREQ[s]` (10_state R24). -/
def freqAt (f : Vector Word 256) (s : Byte) : Word := f.get s.toFin

/-- `FREQ[s] <- v` (10_state R24). -/
def freqSetAt (f : Vector Word 256) (s : Byte) (v : Word) : Vector Word 256 := f.set s.toNat v s.isLt

/-- The empty frequency table (10_state R24). -/
def freqEmpty : Vector Word 256 := Vector.replicate 256 0

/-- `NODES[i]` (10_state R25): an entry that is not specified reads as a free value (log 3). -/
def State.node (s : State) (i : Nat) : Node := (s.nodes[i]?).getD (Config.freeNode s.storeEpoch i)

/-- The code of byte value `s`: the first `CODE_LEN[s]` bits of `CODE_BITS[s]` (10_state R33); a free value
while the code table is unspecified (log 4). -/
def State.code (s : State) (x : Byte) : Bits :=
  match s.codes with
  | some t => t.get x.toFin
  | none => Config.freeCode s.storeEpoch x

/-- `CODE_LEN[s]` (10_state R33). -/
def State.codeLen (s : State) (x : Byte) : Nat := (s.code x).length

/-! ## Registers -/

/-- `Q0 <- v`. -/
def State.setQ0 (s : State) (v : Word) : State := { s with q0 := v }

/-- `Q1 <- v`. -/
def State.setQ1 (s : State) (v : Word) : State := { s with q1 := v }

/-- `Q2 <- v`. -/
def State.setQ2 (s : State) (v : Word) : State := { s with q2 := v }

/-- `FREQ <- f`. -/
def State.setFreq (s : State) (f : Vector Word 256) : State := { s with freq := f }

/-- `CURSOR <- c`. -/
def State.setCursor (s : State) (c : NodeIndex) : State := { s with cursor := c }

/-- `STATUS.OVERRUN <- v`. -/
def State.setOverrun (s : State) (v : Bool) : State := { s with overrun := v }

/-- Make a new tree the current one: the node store's specified entries, `ROOT`, `NODE_COUNT`,
`TREE_VALID <- 1`, `CURSOR <- ROOT` and an empty `PQ` (41_tree_builder R162, 45_tree_serdes R276). The code
table follows by `State.generateCodes`. -/
def State.installTree (s : State) (ns : List Node) (root : NodeIndex) : State :=
  { s with nodes := ns, root := root, nodeCount := BitVec.ofNat 10 ns.length, treeValid := true,
           cursor := root, pq := [] }

/-- `CODE_LEN`, `CODE_BITS <- t`. -/
def State.setCodes (s : State) (t : Vector Bits 256) : State := { s with codes := some t }

/-- The block's state at its reset values, `A0..A3` and DMEM kept (40_control R131): the node store and the
code table become unspecified, under a new epoch (log 3, 4). -/
def State.clearBlock (s : State) : State :=
  { s with freq := freqEmpty, treeValid := false, root := 0, nodeCount := 0, cursor := 0, q0 := 0, q1 := 0,
           q2 := 0, errInfo := 0, overrun := false, nodes := [], codes := none, pq := [],
           storeEpoch := s.storeEpoch + 1 }

/-! ## Issue, completion and failure -/

/-- `A0..A3` as they stand. -/
def State.argRegs (s : State) : Args := ⟨s.a0, s.a1, s.a2, s.a3⟩

/-- Issue the word `w` (10_state R38): the error record is cleared and the arguments are latched (R41). -/
def State.issue (s : State) (w : Word) : State :=
  { s with err := false, errCode := 0, errInfo := 0, pending := some ⟨w, s.argRegs⟩ }

/-- Successful completion (60_exceptions R303): the error record reads 0 and nothing is pending (log 11). -/
def State.complete (s : State) : State :=
  { s with err := false, errCode := 0, errInfo := 0, pending := none }

/-- The error's code in `ERRCODE` (60_exceptions R301). -/
def CmdError.code : CmdError → BitVec 4
  | .emptyInput => 1
  | .symbolNotInTable _ => 2
  | .invalidBit _ => 3
  | .uninitializedTree => 4
  | .invalidContainer _ => 5
  | .illegalCommand _ => 6
  | .addressRange _ => 7
  | .capacityExceeded _ => 8

/-- The error's detail in `ERRINFO` (60_exceptions R301). -/
def CmdError.info : CmdError → Word
  | .emptyInput => 0
  | .symbolNotInTable x => x.setWidth 32
  | .invalidBit v => v.setWidth 32
  | .uninitializedTree => 0
  | .invalidContainer c => c
  | .illegalCommand w => w
  | .addressRange a => a
  | .capacityExceeded a => a

/-- `raise E(info)` (60_exceptions R304): the command ends with its error recorded. -/
def State.raise (s : State) (e : CmdError) : State :=
  { s with err := true, errCode := e.code, errInfo := e.info, pending := none }

/-- The outcome of a command that fails. -/
def failWith (s : State) (e : CmdError) : Host.Outcome State Fault Refusal := .next (s.raise e)

/-- The outcome of a command that succeeds, from the state its effects leave. -/
def succeed (s : State) : Host.Outcome State Fault Refusal := .next s.complete

/-- The hardware reset (70_reset_and_hazards R340, R342): every piece of the spec's state at its reset value,
a pending command dropped. DMEM and the node store take unspecified contents, under new epochs; the
parameter and the host's own fields stay (log 19). -/
def State.hardReset (s : State) : State :=
  { State.resetWith s.dmemTop with dmemEpoch := s.dmemEpoch + 1, storeEpoch := s.storeEpoch + 1,
                                   draws := s.draws, script := s.script, seen := s.seen }

end Sys2Proof.Machine
end

