-- ==== Sys2Proof/Machine/Operands.lean ====
section
/-! DEFINITION. The operand forms: latched arguments (10_state R41), byte and bit regions and their checks
(20_memory R63), and overlapping regions (R78). -/

namespace Sys2Proof.Machine

/-- The latched arguments of the command that runs (10_state R41). With no command pending, which no step
meets, they are the argument registers (log 9). -/
def State.args (s : State) : Args :=
  match s.pending with
  | some p => p.args
  | none => s.argRegs

/-- `ByteRegion(a, n)` is admitted: the sum is taken on unbounded naturals (20_memory R63). -/
def State.byteRegionOk (s : State) (a n : Word) : Bool := decide (a.toNat + n.toNat ≤ s.dmemBytes)

/-- `BitRegion(b, n)` is admitted (20_memory R63). -/
def State.bitRegionOk (s : State) (b n : Word) : Bool := decide (b.toNat + n.toNat ≤ 8 * s.dmemBytes)

/-- The byte region `(a, m)` and the bit region `(b, n)` share a byte (20_memory R78): both are nonempty and
the bytes `b / 8 .. (b + n - 1) / 8` meet `a .. a + m - 1`. Regions are taken in full as the arguments
give them. -/
def regionsOverlap (a m b n : Nat) : Bool :=
  decide (0 < m ∧ 0 < n ∧ a ≤ (b + n - 1) / 8 ∧ b / 8 < a + m)

end Sys2Proof.Machine
end

