-- ==== Sys2Proof/Machine/CodeTable.lean ====
section
/-! DEFINITION. CODE_GET (42_code_table R206). -/

namespace Sys2Proof.Machine

/-- `Q1` of CODE_GET: the code right-aligned when it has at most 32 bits, else 0 (42_code_table R206). -/
def codeValue (p : Bits) : Word := if p.length ≤ 32 then BitVec.ofNat 32 (bitsVal p) else 0

/-- CODE_GET `x` (42_code_table R206): a byte value with no entry has the empty code and is no error. -/
def execCodeGet (x : Byte) (s : State) : Host.Outcome State Fault Refusal :=
  if s.treeValid = false then failWith s .uninitializedTree
  else if s.bitRegionOk s.args.a0 s.args.a1 = false then failWith s (.addressRange 0)
  else if s.args.a1.toNat < s.codeLen x then failWith s (.capacityExceeded 0)
  else
    succeed (((s.writeBits s.args.a0.toNat (s.code x)).setQ0 (BitVec.ofNat 32 (s.codeLen x))).setQ1
      (codeValue (s.code x)))

end Sys2Proof.Machine
end

