-- ==== Sys2Proof/Machine/Control.lean ====
section
/-! DEFINITION. The block control commands (40_control). -/

namespace Sys2Proof.Machine

/-- NOP (40_control R130). -/
def execNop (s : State) : Host.Outcome State Fault Refusal := succeed s

/-- SOFT_RESET (40_control R131): the reset values, `A0..A3` and DMEM kept. -/
def execSoftReset (s : State) : Host.Outcome State Fault Refusal := succeed s.clearBlock

/-- ACK_OVERRUN (40_control R132). -/
def execAckOverrun (s : State) : Host.Outcome State Fault Refusal := succeed (s.setOverrun false)

end Sys2Proof.Machine
end

