-- ==== Sys2Proof/Machine/Tree.lean ====
section
/-! DEFINITION. The units shared by several commands: the priority-queue merge (41_tree_builder R157-R160), the
code-table generator (42_code_table R201), the walker (44_decoder R241), the serializer (45_tree_serdes
R273) and the parser (R275). The tree functions read nodes through `nd`, which gives `NODES[i]`. -/

namespace Sys2Proof.Machine

/-! ## The tree builder -/

/-- The tie-break order of 00_scope R12 and 41_tree_builder R158: lower weight first, then lower index. -/
def QueueKey.before (x y : QueueKey) : Bool :=
  decide (x.freq.toNat < y.freq.toNat ∨ (x.freq = y.freq ∧ x.idx.toNat < y.idx.toNat))

/-- The least key of a queue with at least one key: `argmin` (41_tree_builder R158). -/
def leastKey (x : QueueKey) : List QueueKey → QueueKey
  | [] => x
  | y :: q => leastKey (if y.before x then y else x) q

/-- Extract the least key: the key and the queue without it (41_tree_builder R158). -/
def extractLeast : List QueueKey → Option (QueueKey × List QueueKey)
  | [] => none
  | x :: q => some (leastKey x q, (x :: q).erase (leastKey x q))

/-- The byte values with an entry, ascending (41_tree_builder R157). -/
def presentSymbols (f : Vector Word 256) : List Byte :=
  ((List.range 256).map (fun k => BitVec.ofNat 8 k)).filter (fun s => freqAt f s != 0)

/-- The leaves in ascending byte value and the queue of all of them (41_tree_builder R157). -/
def builderStart (f : Vector Word 256) : Builder :=
  { nodes := (presentSymbols f).map (fun s => Node.leaf s ((freqAt f s).setWidth 40)),
    pq := (presentSymbols f).zipIdx.map (fun p => ⟨(freqAt f p.1).setWidth 40, BitVec.ofNat 9 p.2⟩) }

/-- One merge (41_tree_builder R159): the first key extracted is the left child, the second the right, never
swapped (R165); the new node takes the next free index. A queue of fewer than two keys is left alone. -/
def mergeStep (b : Builder) : Builder :=
  match extractLeast b.pq with
  | none => b
  | some (x, q) =>
    match extractLeast q with
    | none => b
    | some (y, r) =>
      { nodes := b.nodes ++ [Node.internal x.idx y.idx (x.freq + y.freq)],
        pq := r ++ [⟨x.freq + y.freq, BitVec.ofNat 9 b.nodes.length⟩] }

/-- `k` merges. -/
def mergeLoop : Nat → Builder → Builder
  | 0, b => b
  | k + 1, b => mergeLoop k (mergeStep b)

/-- The whole build: while the queue holds two keys or more, merge (41_tree_builder R159, R160). Each merge takes
one key off the queue, so one merge fewer than its keys are enough. -/
def buildTree (f : Vector Word 256) : Builder :=
  mergeLoop ((builderStart f).pq.length - 1) (builderStart f)

/-- `ROOT`: the one index left in the queue (41_tree_builder R160). -/
def Builder.root (b : Builder) : NodeIndex :=
  match b.pq with
  | [] => 0
  | x :: _ => x.idx

/-! ## The code-table generator -/

/-- `Walk(i, p)` (42_code_table R201): the leaves below node `i` with their paths, left before right. The fuel
is the depth left; on a tree of 10_state R26 it never runs out (log 12). -/
def walkCodes (nd : Nat → Node) : Nat → NodeIndex → Bits → List (Byte × Bits)
  | 0, _, _ => []
  | fuel + 1, i, p =>
    if (nd i.toNat).isLeaf then [((nd i.toNat).sym, p)]
    else walkCodes nd fuel (nd i.toNat).left (p ++ [false]) ++ walkCodes nd fuel (nd i.toNat).right (p ++ [true])

/-- Enter a code in the table. -/
def codeSetAt (t : Vector Bits 256) (e : Byte × Bits) : Vector Bits 256 := t.set e.1.toNat e.2 e.1.isLt

/-- `CodeGen()` (42_code_table R201, R202): a root that is a leaf gets the code "0". -/
def codeGen (nd : Nat → Node) (root : NodeIndex) : Vector Bits 256 :=
  if (nd root.toNat).isLeaf then codeSetAt (Vector.replicate 256 []) ((nd root.toNat).sym, [false])
  else (walkCodes nd (Config.maxDepth + 1) root []).foldl codeSetAt (Vector.replicate 256 [])

/-- `CodeGen()` on the current tree (42_code_table R201, R204): only the code table is written. -/
def State.generateCodes (s : State) : State := s.setCodes (codeGen s.node s.root)

/-! ## The walker -/

/-- `Walk1(c, v)` (44_decoder R241): the symbol emitted, if any, and the next cursor. -/
def walk1 (nd : Nat → Node) (root c : NodeIndex) (v : Bool) : Option Byte × NodeIndex :=
  if (nd root.toNat).isLeaf then (some (nd root.toNat).sym, root)
  else
    let n := if v then (nd c.toNat).right else (nd c.toNat).left
    if (nd n.toNat).isLeaf then (some (nd n.toNat).sym, root) else (none, n)

/-- `Walk1` over a bitstring from cursor `c`: the symbols emitted in order and the cursor reached
(44_decoder R246). -/
def walkBits (nd : Nat → Node) (root : NodeIndex) : NodeIndex → Bits → List Byte × NodeIndex
  | c, [] => ([], c)
  | c, v :: p =>
    let r := walk1 nd root c v
    let t := walkBits nd root r.2 p
    (r.1.toList ++ t.1, t.2)

/-! ## The serializer and the parser -/

/-- `Ser(i)` (45_tree_serdes R273). The fuel is the depth left, as in `walkCodes` (log 12). -/
def serialize (nd : Nat → Node) : Nat → NodeIndex → Bits
  | 0, _ => []
  | fuel + 1, i =>
    if (nd i.toNat).isLeaf then true :: bin8 (nd i.toNat).sym
    else false :: (serialize nd fuel (nd i.toNat).left ++ serialize nd fuel (nd i.toNat).right)

/-- `Parse()` (45_tree_serdes R275) over the `len` bits that `bit` gives: the index allocated and the parse state
reached, or the first failure in parse order (R277). A node's entry is reserved when its index is
allocated and written when its children are known. Every call below the top holds one more allocated
node, so with 512 of fuel the store is full before the fuel runs out (log 12). -/
def parseTree (bit : Nat → Bool) (len : Nat) : Nat → ParseState → Except ParseError (NodeIndex × ParseState)
  | 0, _ => .error .storeFull
  | fuel + 1, ps =>
    if ps.pos = len then .error .truncated
    else if ps.fresh.length = Config.nNodes then .error .storeFull
    else
      let i := ps.fresh.length
      if bit ps.pos then
        if ps.pos + 1 + 8 > len then .error .truncated
        else
          let x := BitVec.ofNat 8 (bitsVal ((List.range 8).map (fun j => bit (ps.pos + 1 + j))))
          if x ∈ ps.seen then .error .duplicateSymbol
          else .ok (BitVec.ofNat 9 i,
            { pos := ps.pos + 9, fresh := ps.fresh ++ [Node.leaf x 0], seen := x :: ps.seen })
      else
        match parseTree bit len fuel
            { ps with pos := ps.pos + 1, fresh := ps.fresh ++ [Node.internal 0 0 0] } with
        | .error e => .error e
        | .ok (l, p1) =>
          match parseTree bit len fuel p1 with
          | .error e => .error e
          | .ok (r, p2) => .ok (BitVec.ofNat 9 i, { p2 with fresh := p2.fresh.set i (Node.internal l r 0) })

/-- The parse state before the first bit (45_tree_serdes R275). -/
def parseStart : ParseState := { pos := 0, fresh := [], seen := [] }

/-- The `ERRINFO` of a parse failure (45_tree_serdes R277). -/
def ParseError.cause : ParseError → Word
  | .truncated => 1
  | .storeFull => 2
  | .duplicateSymbol => 3

end Sys2Proof.Machine
end

