-- ==== Sys2Proof/Machine/Decoder.lean ====
section
/-! DEFINITION. The decoder commands (44_decoder R242, R243, R246). -/

namespace Sys2Proof.Machine

/-- DEC_RESET (44_decoder R242). -/
def execDecReset (s : State) : Host.Outcome State Fault Refusal :=
  if s.treeValid = false then failWith s .uninitializedTree else succeed (s.setCursor s.root)

/-- `Q0` of DEC_STEP: bit 8 says a symbol was emitted, bits [7:0] hold it, 0 if none (44_decoder R243). -/
def emission (e : Option Byte) : Word :=
  match e with
  | some x => 0x100#32 ||| x.setWidth 32
  | none => 0

/-- DEC_STEP `v` (44_decoder R243): the bit symbol is checked on every tree, the degenerate one included
(90_conflicts C1). -/
def execDecStep (v : Byte) (s : State) : Host.Outcome State Fault Refusal :=
  if s.treeValid = false then failWith s .uninitializedTree
  else if 1 < v.toNat then failWith s (.invalidBit v)
  else
    let r := walk1 s.node s.root s.cursor (v == 1)
    succeed ((s.setCursor r.2).setQ0 (emission r.1))

/-- DEC_BULK (44_decoder R246): the walk starts at the root; an input that ends inside a code is no error
(R247). -/
def execDecBulk (s : State) : Host.Outcome State Fault Refusal :=
  if s.treeValid = false then failWith s .uninitializedTree
  else if s.bitRegionOk s.args.a0 s.args.a1 = false then failWith s (.addressRange 0)
  else if s.byteRegionOk s.args.a2 s.args.a3 = false then failWith s (.addressRange 2)
  else if regionsOverlap s.args.a2.toNat s.args.a3.toNat s.args.a0.toNat s.args.a1.toNat then
    .refused .overlappingRegions
  else
    let r := walkBits s.node s.root s.root (s.readBits s.args.a0.toNat s.args.a1.toNat)
    if s.args.a3.toNat < r.1.length then failWith s (.capacityExceeded 2)
    else
      succeed (((((s.writeBytes s.args.a2.toNat r.1).setCursor r.2).setQ0 (BitVec.ofNat 32 r.1.length)).setQ1
        s.args.a1).setQ2 (if r.2 = s.root then 0 else 1))

end Sys2Proof.Machine
end

