-- ==== Sys2Proof/Machine/Encoder.lean ====
section
/-! DEFINITION. ENCODE (43_encoder R221). -/

namespace Sys2Proof.Machine

/-- Pass 1 of ENCODE: the first byte with no code and its offset, counting from `j` (43_encoder R221). -/
def firstUncoded (s : State) : Nat → List Byte → Option (Nat × Byte)
  | _, [] => none
  | j, x :: xs => if s.codeLen x = 0 then some (j, x) else firstUncoded s (j + 1) xs

/-- The concatenation of the bytes' codes, in input order (43_encoder R220). -/
def encodeBytes (s : State) (xs : List Byte) : Bits := xs.flatMap s.code

/-- ENCODE (43_encoder R221): the checks in the order of 60_exceptions R302; overlapping regions are refused where
the rule's comment puts them (20_memory R78); SymbolNotInTable also writes `Q1` (R305). -/
def execEncode (s : State) : Host.Outcome State Fault Refusal :=
  if s.treeValid = false then failWith s .uninitializedTree
  else if s.byteRegionOk s.args.a0 s.args.a1 = false then failWith s (.addressRange 0)
  else if s.bitRegionOk s.args.a2 s.args.a3 = false then failWith s (.addressRange 2)
  else if regionsOverlap s.args.a0.toNat s.args.a1.toNat s.args.a2.toNat s.args.a3.toNat then
    .refused .overlappingRegions
  else
    let xs := s.readBytes s.args.a0.toNat s.args.a1.toNat
    match firstUncoded s 0 xs with
    | some (j, x) => failWith (s.setQ1 (BitVec.ofNat 32 j)) (.symbolNotInTable x)
    | none =>
      let p := encodeBytes s xs
      if s.args.a3.toNat < p.length then failWith s (.capacityExceeded 2)
      else succeed (((s.writeBits s.args.a2.toNat p).setQ0 (BitVec.ofNat 32 p.length)).setQ1 s.args.a1)

end Sys2Proof.Machine
end

