-- ==== Sys2Proof/Machine/Frequency.lean ====
section
/-! DEFINITION. The frequency table commands (41_tree_builder R150-R153). -/

namespace Sys2Proof.Machine

/-- Count the bytes of a list into a frequency table (41_tree_builder R153). -/
def countBytes (f : Vector Word 256) (bs : List Byte) : Vector Word 256 :=
  bs.foldl (fun g x => freqSetAt g x (freqAt g x + 1)) f

/-- The number of byte values with an entry (41_tree_builder R153). -/
def distinctSymbols (f : Vector Word 256) : Nat := f.toList.countP (fun v => v != 0)

/-- FREQ_CLEAR (41_tree_builder R150). -/
def execFreqClear (s : State) : Host.Outcome State Fault Refusal := succeed (s.setFreq freqEmpty)

/-- FREQ_SET `x` (41_tree_builder R151): the count is argument 0. -/
def execFreqSet (x : Byte) (s : State) : Host.Outcome State Fault Refusal :=
  succeed (s.setFreq (freqSetAt s.freq x s.args.a0))

/-- FREQ_GET `x` (41_tree_builder R152). -/
def execFreqGet (x : Byte) (s : State) : Host.Outcome State Fault Refusal := succeed (s.setQ0 (freqAt s.freq x))

/-- FREQ_COUNT (41_tree_builder R153): the table is replaced by the histogram of the source region. -/
def execFreqCount (s : State) : Host.Outcome State Fault Refusal :=
  if s.byteRegionOk s.args.a0 s.args.a1 then
    let f := countBytes freqEmpty (s.readBytes s.args.a0.toNat s.args.a1.toNat)
    succeed (((s.setFreq f).setQ0 (BitVec.ofNat 32 (distinctSymbols f))).setQ1 s.args.a1)
  else failWith s (.addressRange 0)

end Sys2Proof.Machine
end

