-- ==== Sys2Proof/Machine/SerDes.lean ====
section
/-! DEFINITION. TREE_SER and TREE_DESER (45_tree_serdes R271, R276). -/

namespace Sys2Proof.Machine

/-- `Ser(ROOT)` of the current tree (45_tree_serdes R271). -/
def State.serialized (s : State) : Bits := serialize s.node (Config.maxDepth + 1) s.root

/-- TREE_SER (45_tree_serdes R271). -/
def execTreeSer (s : State) : Host.Outcome State Fault Refusal :=
  if s.treeValid = false then failWith s .uninitializedTree
  else if s.bitRegionOk s.args.a0 s.args.a1 = false then failWith s (.addressRange 0)
  else if s.args.a1.toNat < s.serialized.length then failWith s (.capacityExceeded 0)
  else
    succeed (((s.writeBits s.args.a0.toNat s.serialized).setQ0 (BitVec.ofNat 32 s.serialized.length)).setQ1
      (BitVec.ofNat 32 ((s.nodeCount.toNat + 1) / 2)))

/-- TREE_DESER (45_tree_serdes R276): a failed parse discards the fresh store (R277). -/
def execTreeDeser (s : State) : Host.Outcome State Fault Refusal :=
  if s.bitRegionOk s.args.a0 s.args.a1 = false then failWith s (.addressRange 0)
  else
    match parseTree (fun j => s.readBit (s.args.a0.toNat + j)) s.args.a1.toNat (Config.nNodes + 1) parseStart with
    | .error e => failWith s (.invalidContainer e.cause)
    | .ok (_, p) =>
      succeed (((s.installTree p.fresh 0).generateCodes.setQ0 (BitVec.ofNat 32 p.pos)).setQ1
        (BitVec.ofNat 32 p.seen.length))

end Sys2Proof.Machine
end

