-- ==== Sys2Proof/Machine/TreeBuild.lean ====
section
/-! DEFINITION. TREE_BUILD and NODE_READ (41_tree_builder R154-R167). -/

namespace Sys2Proof.Machine

/-- The tree of `FREQ` made current, with its code table (41_tree_builder R162). -/
def State.withBuiltTree (s : State) : State :=
  (s.installTree (buildTree s.freq).nodes (buildTree s.freq).root).generateCodes

/-- The results of TREE_BUILD: the number of leaves and the root's weight (41_tree_builder R162). -/
def State.reportBuild (t : State) (n : Nat) (w : Weight) : State :=
  ((t.setQ0 (BitVec.ofNat 32 n)).setQ1 (w.extractLsb' 0 32)).setQ2 ((w.extractLsb' 32 8).setWidth 32)

/-- TREE_BUILD (41_tree_builder R162): EmptyInput before anything changes (R156), else the tree, its code
table and the results. -/
def execTreeBuild (s : State) : Host.Outcome State Fault Refusal :=
  if (presentSymbols s.freq).length = 0 then failWith s .emptyInput
  else
    let t := s.withBuiltTree
    succeed (t.reportBuild (presentSymbols s.freq).length (t.node t.root.toNat).freq)

/-- NODE_READ (41_tree_builder R166): the fields of `NODES[a0]` in the layout of its table. -/
def execNodeRead (s : State) : Host.Outcome State Fault Refusal :=
  if s.treeValid = false then failWith s .uninitializedTree
  else if s.nodeCount.toNat ≤ s.args.a0.toNat then failWith s (.addressRange 0)
  else
    let n := s.node s.args.a0.toNat
    succeed (((s.setQ0 (0#7 ++ n.right ++ 0#7 ++ n.left)).setQ1
      (n.freq.extractLsb' 32 8 ++ 0#15 ++ BitVec.ofBool n.isLeaf ++ n.sym)).setQ2 (n.freq.extractLsb' 0 32))

end Sys2Proof.Machine
end

