-- ==== Sys2Proof/Syntax.lean ====
section
/-! DEFINITION. The sixteen commands (30_encoding R103) and the raw fields of a command word (R100). -/

namespace Sys2Proof

/-- A command: one constructor per row of the opcode table (30_encoding R103). `sym` is the byte value
and `bit` the bit symbol that `IMM8` holds (R101); every other operand is a latched argument. -/
inductive Instr where
  | nop
  | softReset
  | ackOverrun
  | freqClear
  | freqSet (sym : Byte)
  | freqGet (sym : Byte)
  | freqCount
  | treeBuild
  | nodeRead
  | codeGet (sym : Byte)
  | encode
  | decReset
  | decStep (bit : Byte)
  | decBulk
  | treeSer
  | treeDeser
  deriving DecidableEq, Repr

/-- The three fields of a command word (30_encoding R100), before any check. -/
structure CmdFields where
  opc  : Byte
  imm8 : Byte
  rsv  : BitVec 16
  deriving DecidableEq, Repr

end Sys2Proof
end

