-- ==== Sys2Proof/Machine/Dispatch.lean ====
section
/-! DEFINITION. One arm per command (30_encoding R103). -/

namespace Sys2Proof.Machine

def exec (i : Instr) (s : State) : Host.Outcome State Fault Refusal :=
  match i with
  | .nop => Sys2Proof.Machine.execNop s
  | .softReset => Sys2Proof.Machine.execSoftReset s
  | .ackOverrun => Sys2Proof.Machine.execAckOverrun s
  | .freqClear => Sys2Proof.Machine.execFreqClear s
  | .freqSet sym => Sys2Proof.Machine.execFreqSet sym s
  | .freqGet sym => Sys2Proof.Machine.execFreqGet sym s
  | .freqCount => Sys2Proof.Machine.execFreqCount s
  | .treeBuild => Sys2Proof.Machine.execTreeBuild s
  | .nodeRead => Sys2Proof.Machine.execNodeRead s
  | .codeGet sym => Sys2Proof.Machine.execCodeGet sym s
  | .encode => Sys2Proof.Machine.execEncode s
  | .decReset => Sys2Proof.Machine.execDecReset s
  | .decStep bit => Sys2Proof.Machine.execDecStep bit s
  | .decBulk => Sys2Proof.Machine.execDecBulk s
  | .treeSer => Sys2Proof.Machine.execTreeSer s
  | .treeDeser => Sys2Proof.Machine.execTreeDeser s

end Sys2Proof.Machine
end

