-- ==== Sys2Proof/Decode.lean ====
section
/-! DEFINITION. The decoder of 30_encoding R105, total on every 32-bit word and rejecting by name, and the
encoder of R103. -/

namespace Sys2Proof

/-- Which check of 30_encoding R105 a word fails. The machine raises `IllegalCommand` for each. -/
inductive DecodeError where
  /-- `OPC` is not listed in R103 (240 values). -/
  | reservedOpcode
  /-- `RSV` is not 0. -/
  | reservedField
  /-- `IMM8` is not 0 and the opcode takes no immediate. -/
  | strayImmediate
  deriving DecidableEq, Repr

/-- `OPC`, bits [7:0] (30_encoding R100). -/
def opcOf (w : Word) : Byte := w.extractLsb' 0 8

/-- `IMM8`, bits [15:8] (30_encoding R100). -/
def immOf (w : Word) : Byte := w.extractLsb' 8 8

/-- `RSV`, bits [31:16] (30_encoding R100). -/
def rsvOf (w : Word) : BitVec 16 := w.extractLsb' 16 16

/-- The command an opcode selects, its immediate applied (30_encoding R103). -/
def selectCommand (opc imm : Byte) : Option Instr :=
  match opc.toNat with
  | 0x00 => some .nop
  | 0x01 => some .softReset
  | 0x02 => some .ackOverrun
  | 0x10 => some .freqClear
  | 0x11 => some (.freqSet imm)
  | 0x12 => some (.freqGet imm)
  | 0x13 => some .freqCount
  | 0x20 => some .treeBuild
  | 0x21 => some .nodeRead
  | 0x30 => some (.codeGet imm)
  | 0x40 => some .encode
  | 0x50 => some .decReset
  | 0x51 => some (.decStep imm)
  | 0x52 => some .decBulk
  | 0x60 => some .treeSer
  | 0x61 => some .treeDeser
  | _ => none

/-- The opcodes that take an immediate: the set of 30_encoding R105. -/
def takesImmediate (opc : Byte) : Bool :=
  opc == 0x11#8 || opc == 0x12#8 || opc == 0x30#8 || opc == 0x51#8

/-- Decode a command word, the checks in the order of 30_encoding R105. -/
def decode (w : Word) : Except DecodeError Instr :=
  match selectCommand (opcOf w) (immOf w) with
  | none => .error .reservedOpcode
  | some i =>
    if rsvOf w ≠ 0 then .error .reservedField
    else if takesImmediate (opcOf w) = false ∧ immOf w ≠ 0 then .error .strayImmediate
    else .ok i

/-- The opcode of a command (30_encoding R103). -/
def Instr.opcode : Instr → Byte
  | .nop => 0x00#8
  | .softReset => 0x01#8
  | .ackOverrun => 0x02#8
  | .freqClear => 0x10#8
  | .freqSet _ => 0x11#8
  | .freqGet _ => 0x12#8
  | .freqCount => 0x13#8
  | .treeBuild => 0x20#8
  | .nodeRead => 0x21#8
  | .codeGet _ => 0x30#8
  | .encode => 0x40#8
  | .decReset => 0x50#8
  | .decStep _ => 0x51#8
  | .decBulk => 0x52#8
  | .treeSer => 0x60#8
  | .treeDeser => 0x61#8

/-- The `IMM8` of a command: its byte operand, else 0 (30_encoding R100, R103). -/
def Instr.immediate : Instr → Byte
  | .freqSet s | .freqGet s | .codeGet s | .decStep s => s
  | .nop | .softReset | .ackOverrun | .freqClear | .freqCount | .treeBuild | .nodeRead | .encode
  | .decReset | .decBulk | .treeSer | .treeDeser => 0#8

/-- The command word: `RSV` 0, then `IMM8`, then `OPC` (30_encoding R100, R103). -/
def encode (i : Instr) : Word := 0#16 ++ i.immediate ++ i.opcode

/-- What the decoder reads from an instruction whose low `nbits` bits are `w`, in the numbering of
spec/opcode_table.json: bit 0 is the least significant bit of the command word, which the host writes to
`CMD` whole, so no byte order enters (20_memory R67; log 18). -/
def decodeTableWord (nbits w : Nat) : Option Instr :=
  match decode (BitVec.ofNat 32 (w % 2 ^ nbits)) with
  | .ok i => some i
  | .error _ => none

end Sys2Proof
end

