-- ==== Sys2Proof/Machine/Flags.lean ====
section
/-! DEFINITION. The computed fields of `STATUS` and the whole status word (10_state R39). -/

namespace Sys2Proof.Machine

/-- `STATUS.BUSY`: a command is pending (10_state R23, R39; log 10). -/
def State.busy (s : State) : Bool := s.pending.isSome

/-- `STATUS.AT_ROOT` (10_state R39). -/
def State.atRoot (s : State) : Bool := s.treeValid && s.cursor == s.root

/-- `STATUS.SINGLE_LEAF` (10_state R39). -/
def State.singleLeaf (s : State) : Bool := s.treeValid && (s.node s.root.toNat).isLeaf

/-- The 32-bit `STATUS` word (10_state R39): bits [31:12] and [3:2] are reserved and read 0. -/
def State.statusWord (s : State) : Word :=
  0#20 ++ BitVec.ofBool s.overrun ++ BitVec.ofBool s.singleLeaf ++ BitVec.ofBool s.atRoot ++
    BitVec.ofBool s.treeValid ++ s.errCode ++ 0#2 ++ BitVec.ofBool s.err ++ BitVec.ofBool s.busy

end Sys2Proof.Machine
end

