-- ==== Sys2Proof/Machine/HostPort.lean ====
section
/-! DEFINITION. The host's side of the block: the register window (10_state R37-R45, 70_reset_and_hazards
R350-R356), DMEM accesses (20_memory R72, R73), the reset input, and the host program's lines (30_encoding
R109, R110). -/

namespace Sys2Proof.Machine

/-! ## The register window -/

/-- A host access moves one aligned 32-bit word (20_memory R68). -/
def wordAccess (width : Nat) (offset : BitVec 6) : Bool := width == 4 && offset.toNat % 4 == 0

/-- The registers whose value is unspecified while `BUSY = 1`: `Q0..Q2`, `CURSOR`, `ROOT`, `NODE_COUNT` and
`ERRINFO` (70_reset_and_hazards R353). -/
def unspecifiedWhileBusy (offset : BitVec 6) : Bool :=
  decide (0x18 ≤ offset.toNat ∧ offset.toNat ≤ 0x30)

/-- What a register holds (10_state R37): `CMD` and the reserved offsets read 0, `ID` is constant. -/
def State.register (s : State) (offset : BitVec 6) : Word :=
  match offset.toNat with
  | 0x04 => s.statusWord
  | 0x08 => s.a0
  | 0x0C => s.a1
  | 0x10 => s.a2
  | 0x14 => s.a3
  | 0x18 => s.q0
  | 0x1C => s.q1
  | 0x20 => s.q2
  | 0x24 => s.cursor.setWidth 32
  | 0x28 => s.root.setWidth 32
  | 0x2C => s.nodeCount.setWidth 32
  | 0x30 => s.errInfo
  | 0x34 => Config.idValue
  | _ => 0

/-- The value a host read returns (10_state R37, 70_reset_and_hazards R353): a free value for a result register
while `BUSY = 1` (log 5). -/
def State.readWindow (s : State) (offset : BitVec 6) : Word :=
  if s.busy && unspecifiedWhileBusy offset then Config.freeWord s.draws else s.register offset

/-- A write to `CMD` (10_state R38): issue when nothing is pending, else ignored with `OVERRUN <- 1`
(70_reset_and_hazards R351). -/
def State.writeCmd (s : State) (w : Word) : State := if s.busy then s.setOverrun true else s.issue w

/-- A host write to a register (10_state R37): `CMD`, `A0..A3`; a write anywhere else in the window is ignored
(R45). -/
def State.writeWindow (s : State) (offset : BitVec 6) (v : Word) : State :=
  match offset.toNat with
  | 0x00 => s.writeCmd v
  | 0x08 => { s with a0 := v }
  | 0x0C => { s with a1 := v }
  | 0x10 => { s with a2 := v }
  | 0x14 => { s with a3 := v }
  | _ => s

/-! ## The host's moves -/

/-- Record what a read returned (log 16). -/
def State.observe (s : State) (v : Word) : State := { s with seen := v :: s.seen }

/-- Take one free value for a read while busy (log 5). -/
def State.countDraw (s : State) (taken : Bool) : State := { s with draws := s.draws + taken.toNat }

/-- Replace the rest of the host's program. -/
def State.setScript (s : State) (l : List HostLine) : State := { s with script := l }

/-- What one host action does. `WAIT` with `BUSY = 1` polls `STATUS` and stays, no longer early, so that the
block moves next (70_reset_and_hazards R357; log 7). DESIGN CHOICE (log 22): a `MEMW` of no byte, which the spec is
silent on (30_encoding R110 lets `ZERO` have n = 0), touches no byte, so it is no DMEM access: it changes nothing,
whatever its address and also while `BUSY = 1`. -/
def hostAct (a : HostAction) (s : State) : Host.Outcome State Fault Refusal :=
  match a with
  | .writeReg width offset v =>
    if wordAccess width offset then .next (s.writeWindow offset v) else .refused .registerAccess
  | .readReg width offset =>
    if wordAccess width offset then
      .next ((s.observe (s.readWindow offset)).countDraw (s.busy && unspecifiedWhileBusy offset))
    else .refused .registerAccess
  | .writeMem addr bytes =>
    if bytes.isEmpty then .next s
    else if s.busy then .refused .dmemRace
    else if addr.toNat + bytes.length ≤ s.dmemBytes then .next (s.writeBytes addr.toNat bytes)
    else .fault .dmemAddress
  | .readMem addr =>
    if s.busy then .refused .dmemRace
    else if addr.toNat < s.dmemBytes then .next (s.observe ((s.readByte addr.toNat).setWidth 32))
    else .fault .dmemAddress
  | .wait => if s.busy then .next (s.setScript (⟨false, .wait⟩ :: s.script)) else .next s
  | .hardReset => .next s.hardReset

/-- The host's move: its next line, or nothing when its program is done; an idle block holds all its state
(60_exceptions R318). -/
def hostMove (s : State) : Host.Outcome State Fault Refusal :=
  match s.script with
  | [] => .next s
  | l :: rest => hostAct l.action (s.setScript rest)

/-- The host's next line lands before the block's step (log 6). -/
def State.hostEarly (s : State) : Bool :=
  match s.script with
  | [] => false
  | l :: _ => l.early

/-- The host's next line waits for the pending command. -/
def State.deferHost (s : State) : State :=
  match s.script with
  | [] => s
  | l :: rest => s.setScript (⟨false, l.action⟩ :: rest)

/-! ## Host programs (30_encoding R109, R110) -/

/-- The offset of `A<i>` (10_state R37). -/
def argOffset (i : Fin 4) : BitVec 6 := BitVec.ofNat 6 (8 + 4 * i.val)

/-- `ISSUE`: write the command's word to `CMD` (30_encoding R109). Whether the line may land while an earlier
command is pending is open (70_reset_and_hazards R357) and given by `early`; so in every expansion below
(DESIGN CHOICE, log 23). -/
def issueLine (early : Bool) (i : Instr) : HostLine := ⟨early, .writeReg 4 0 (encode i)⟩

/-- The `WR A<i>` of a `CALL`, none where the argument is not given (30_encoding R110). -/
def argLine (early : Bool) (i : Fin 4) (given : Option Word) : List HostLine :=
  (given.map (fun v => ⟨early, .writeReg 4 (argOffset i) v⟩)).toList

/-- `CALL` (30_encoding R110): a `WR` for each argument given, in the order a0, a1, a2, a3; then `ISSUE`; then
`WAIT`. One `early` serves all the lines (DESIGN CHOICE, log 23). -/
def callLines (early : Bool) (i : Instr) (a0 a1 a2 a3 : Option Word) : List HostLine :=
  argLine early 0 a0 ++ argLine early 1 a1 ++ argLine early 2 a2 ++ argLine early 3 a3 ++
    [issueLine early i, ⟨early, .wait⟩]

/-- `ZERO` (30_encoding R110): `MEMW` with n zero bytes (log 23); with n = 0 it changes nothing (DESIGN CHOICE, log 22). -/
def zeroLine (early : Bool) (addr : Word) (n : Nat) : HostLine := ⟨early, .writeMem addr (List.replicate n 0)⟩

/-- `EXPECT` expands to `RD` of its register (30_encoding R110; log 23). -/
def expectLine (early : Bool) (offset : BitVec 6) : HostLine := ⟨early, .readReg 4 offset⟩

/-- The claim of `EXPECT` (30_encoding R110), in the state right after its `RD`: the value read, which stands first
in what the host has seen (log 16), equals `v`. -/
def expectMet (v : Word) (t : State) : Bool := t.seen.head? == some v

end Sys2Proof.Machine
end

