-- ==== Sys2Proof/Machine/Step.lean ====
section
/-! DEFINITION. One step: the block runs the pending command as one atomic transition (10_state R23), or the
host moves (R20; log 6). -/

namespace Sys2Proof.Machine

/-- One step. With a command pending and no early host line, the block decodes the latched word and runs it; a
word that selects no command raises `IllegalCommand` (30_encoding R105). -/
def step (s : State) : Host.Outcome State Fault Refusal :=
  match s.pending with
  | none => hostMove s
  | some p =>
    if s.hostEarly then hostMove s
    else
      match decode p.word with
      | .ok i => exec i s
      | .error _ => failWith s (.illegalCommand p.word)

/-- `s` with the command word `w mod 2 ^ nbits` issued (10_state R38), so that the very next step runs it: the
block fetches nothing, a word reaches it through `CMD` (R22; log 8). An early host line is made to wait. -/
def State.withFetchWord (s : State) (nbits w : Nat) : State :=
  (s.issue (BitVec.ofNat 32 (w % 2 ^ nbits))).deferHost

end Sys2Proof.Machine
end

