-- ==== Sys2Proof/Machine/Container.lean ====
section
/-! DEFINITION. The host-side container format (20_memory R80-R87): no command of the block performs it
(00_scope R5); it is here so that a host's program can be described end to end. Log 17. -/

namespace Sys2Proof.Machine

/-- The byte whose bits, most significant first, are the first eight of `p`, missing positions 0 (20_memory
R66, R86). -/
def packByte (p : Bits) : Byte := BitVec.ofNat 8 (bitsVal ((List.range 8).map (fun j => p.getD j false)))

/-- A bitstring packed into bytes with trailing zero padding (20_memory R66, R83): `⌈|p|/8⌉` bytes. -/
def packBits (p : Bits) : List Byte := (List.range ((p.length + 7) / 8)).map (fun k => packByte (p.drop (8 * k)))

/-- A 4-byte length field, most significant byte first (20_memory R81). -/
def field32 (n : Nat) : List Byte :=
  [BitVec.ofNat 8 (n / 2 ^ 24), BitVec.ofNat 8 (n / 2 ^ 16), BitVec.ofNat 8 (n / 2 ^ 8), BitVec.ofNat 8 n]

/-- The unsigned value of big-endian bytes (20_memory R81). -/
def fieldVal (bs : List Byte) : Nat := bs.foldl (fun n b => 256 * n + b.toNat) 0

/-- Assemble a container (20_memory R80, R83) from the serialized tree and the encoded payload. -/
def buildContainer (magic : List Byte) (tree payload : Bits) : List Byte :=
  magic ++ field32 (packBits tree).length ++ packBits tree ++ field32 payload.length ++ packBits payload

/-- What a container holds: the tree blob's bytes, the number of payload bits and the payload's bytes. -/
structure ContainerParts where
  treeBlob : List Byte
  nbits    : Nat
  payload  : List Byte
  deriving DecidableEq, Repr

/-- Parse a container with the five checks of 20_memory R84 in order; `none` is `InvalidContainer`. -/
def parseContainer (magic buf : List Byte) : Option ContainerParts :=
  let treeLen := fieldVal ((buf.drop 4).take 4)
  let nbits := fieldVal ((buf.drop (8 + treeLen)).take 4)
  if buf.length < 8 then none
  else if buf.take 4 ≠ magic then none
  else if buf.length < 8 + treeLen then none
  else if buf.length < 12 + treeLen then none
  else if 8 * (buf.length - 12 - treeLen) < nbits then none
  else some ⟨(buf.drop 8).take treeLen, nbits, (buf.drop (12 + treeLen)).take ((nbits + 7) / 8)⟩

/-- The magic bytes of this platform (20_memory R82). -/
def platformMagic : List Byte := Config.containerMagic.toList

end Sys2Proof.Machine
end

