-- ==== Sys2Proof/WellFormed.lean ====
section
/-! DEFINITION. Which command words are legal: the three checks of 30_encoding R105 and R106 on the
fields of a word, stated apart from the decoder. The operands of an `Instr` are whole bytes and each byte
is encodable (R101), so every `Instr` is well-formed by its type; what can be ill-formed is a word. -/

namespace Sys2Proof

namespace CmdFields

/-- The fields of a word (30_encoding R100). -/
def ofWord (w : Word) : CmdFields :=
  { opc := w.extractLsb' 0 8, imm8 := w.extractLsb' 8 8, rsv := w.extractLsb' 16 16 }

/-- The OPC column of 30_encoding R103: opcode, and whether `IMM8` is an operand. -/
def opcodes : List (Byte × Bool) :=
  [(0x00#8, false), (0x01#8, false), (0x02#8, false)] ++
  [(0x10#8, false), (0x11#8, true), (0x12#8, true), (0x13#8, false)] ++
  [(0x20#8, false), (0x21#8, false), (0x30#8, true), (0x40#8, false)] ++
  [(0x50#8, false), (0x51#8, true), (0x52#8, false), (0x60#8, false), (0x61#8, false)]

/-- `OPC` is listed in 30_encoding R103. -/
def opcodeListed (f : CmdFields) : Bool := opcodes.any (fun p => p.1 == f.opc)

/-- `RSV` is 0 (30_encoding R106). -/
def reservedZero (f : CmdFields) : Bool := f.rsv == 0

/-- `IMM8` is 0 unless the opcode takes an immediate (30_encoding R106). -/
def immediateLegal (f : CmdFields) : Bool := f.imm8 == 0 || opcodes.any (fun p => p.1 == f.opc && p.2)

/-- A command word that selects a command (30_encoding R105). -/
def wellFormed (f : CmdFields) : Bool := f.opcodeListed && f.reservedZero && f.immediateLegal

end CmdFields

end Sys2Proof
end

