-- ==== Sys2Proof/Safety.lean ====
section
/-! DEFINITION. The terms in which claims speak of the machine, written from the spec's prose and apart from the
meanings: trees as mathematical objects (00_scope R11), a state that holds one (10_state R26, R36), the
invariants of the state, and which error a command reports (60_exceptions R302). -/

namespace Sys2Proof.Machine

/-! ## Trees -/

/-- A full binary tree over byte values: every node has 0 or 2 children (00_scope R11). -/
inductive HTree where
  | leaf (sym : Byte)
  | node (left right : HTree)
  deriving DecidableEq, Repr

/-- The leaf symbols, left to right. -/
def HTree.symbols : HTree → List Byte
  | .leaf x => [x]
  | .node l r => l.symbols ++ r.symbols

/-- The number of leaves. -/
def HTree.leaves (t : HTree) : Nat := t.symbols.length

/-- The pre-order encoding of a tree (45_tree_serdes R270, R273). -/
def HTree.bits : HTree → Bits
  | .leaf x => true :: bin8 x
  | .node l r => false :: (l.bits ++ r.bits)

/-- Each leaf's symbol with its path, 0 for left and 1 for right (42_code_table R200). -/
def HTree.paths : HTree → List (Byte × Bits)
  | .leaf x => [(x, [])]
  | .node l r =>
    l.paths.map (fun e => (e.1, false :: e.2)) ++ r.paths.map (fun e => (e.1, true :: e.2))

/-- The code of a byte value under a tree, the empty bitstring for no entry; in a degenerate tree the one
code is "0" (42_code_table R200, R202). -/
def HTree.codeOf : HTree → Byte → Bits
  | .leaf y, x => if x = y then [false] else []
  | .node l r, x => ((HTree.node l r).paths.lookup x).getD []

/-- The nodes reached from index `i` through `nd` form the tree `t`; `is` lists their indices in pre-order
(10_state R25, R26). -/
inductive Represents (nd : Nat → Node) : NodeIndex → HTree → List NodeIndex → Prop where
  | leaf (i : NodeIndex) (x : Byte) (hl : (nd i.toNat).isLeaf = true) (hs : (nd i.toNat).sym = x) :
      Represents nd i (.leaf x) [i]
  | node (i : NodeIndex) (l r : HTree) (li ri : List NodeIndex) (hn : (nd i.toNat).isLeaf = false)
      (hl : Represents nd (nd i.toNat).left l li) (hr : Represents nd (nd i.toNat).right r ri) :
      Represents nd i (.node l r) (i :: (li ++ ri))

/-- The state's node store holds exactly the tree `t` at `ROOT`: every index below `NODE_COUNT` is reached
exactly once and no two leaves have the same symbol (10_state R26). -/
def HoldsTree (s : State) (t : HTree) : Prop :=
  s.nodes.length = s.nodeCount.toNat ∧
  ∃ is, Represents s.node s.root t is ∧ is.Nodup ∧ (∀ i : NodeIndex, i ∈ is ↔ i.toNat < s.nodeCount.toNat) ∧
    t.symbols.Nodup

/-! ## Invariants -/

/-- The memory keeps its canonical form and lists only addresses that exist (20_memory R60; log 2). -/
def State.memoryInv (s : State) : Prop := Memory.wf s.dmem = true ∧ Memory.within s.dmemBytes s.dmem = true

/-- The error record is one the spec allows: `ERRCODE` and `ERRINFO` are 0 without an error, `ERRCODE` is one of
1 to 8 with one (60_exceptions R301, R303), and it is clear while a command is pending (10_state R38). -/
def State.recordInv (s : State) : Prop :=
  (s.err = false → s.errCode = 0 ∧ s.errInfo = 0) ∧
  (s.err = true → 1 ≤ s.errCode.toNat ∧ s.errCode.toNat ≤ 8 ∧ s.pending = none)

/-- When a tree exists, the node store holds it (10_state R26), the code table is its own (R34), and the cursor is
at the root or on an internal node of it (R36); the queue is empty (R31). -/
def State.treeInv (s : State) : Prop :=
  s.pq = [] ∧
  (s.treeValid = true → ∃ t, HoldsTree s t ∧ (∀ x, s.code x = t.codeOf x) ∧
    (s.cursor = s.root ∨ (s.cursor.toNat < s.nodeCount.toNat ∧ (s.node s.cursor.toNat).isLeaf = false)))

/-! ## Errors -/

/-- The regions of a command that reads DMEM at one place and writes it at another share a byte: a byte address
`k` of the byte region and a bit address `x` of the bit region lie in the same byte (20_memory R78). -/
def SharesByte (a m b n : Nat) : Prop := ∃ k x, a ≤ k ∧ k < a + m ∧ b ≤ x ∧ x < b + n ∧ x / 8 = k

/-- The command is one the spec asks a model to refuse: ENCODE or DEC_BULK, past its tree and region checks, on
overlapping regions (20_memory R78, 70_reset_and_hazards R355). -/
def OverlapRefused : Instr → State → Prop
  | .encode, s => s.treeValid = true ∧ s.args.a0.toNat + s.args.a1.toNat ≤ s.dmemBytes ∧
      s.args.a2.toNat + s.args.a3.toNat ≤ 8 * s.dmemBytes ∧
      SharesByte s.args.a0.toNat s.args.a1.toNat s.args.a2.toNat s.args.a3.toNat
  | .decBulk, s => s.treeValid = true ∧ s.args.a0.toNat + s.args.a1.toNat ≤ 8 * s.dmemBytes ∧
      s.args.a2.toNat + s.args.a3.toNat ≤ s.dmemBytes ∧
      SharesByte s.args.a2.toNat s.args.a3.toNat s.args.a0.toNat s.args.a1.toNat
  | .nop, _ | .softReset, _ | .ackOverrun, _ | .freqClear, _ | .freqSet _, _ | .freqGet _, _ | .freqCount, _
  | .treeBuild, _ | .nodeRead, _ | .codeGet _, _ | .decReset, _ | .decStep _, _ | .treeSer, _
  | .treeDeser, _ => False

/-- The first of a list of checks that fails. -/
def firstFailing : List (Bool × CmdError) → Option CmdError
  | [] => none
  | (bad, e) :: rest => if bad then some e else firstFailing rest

/-- The number of bits ENCODE produces for some bytes: the sum of the code lengths (43_encoder R221). -/
def totalCodeBits (s : State) (xs : List Byte) : Nat := (xs.map s.codeLen).sum

/-- The weighted code length of a frequency table under a code's lengths (41_tree_builder R163). -/
def weightedLength (f : Vector Word 256) (len : Byte → Nat) : Nat :=
  ((List.range 256).map (fun k => (freqAt f (BitVec.ofNat 8 k)).toNat * len (BitVec.ofNat 8 k))).sum

/-- The total of the counts (41_tree_builder R164). -/
def totalCount (f : Vector Word 256) : Nat :=
  ((List.range 256).map (fun k => (freqAt f (BitVec.ofNat 8 k)).toNat)).sum

/-- The bytes ENCODE reads. -/
def encodeSource (s : State) : List Byte := s.readBytes s.args.a0.toNat s.args.a1.toNat

/-- The symbols that a bitstring decodes to from node `c` on and the node where it ends, by the three cases a bit
can meet: a degenerate tree emits its one symbol and stays (44_decoder R245), a child that is a leaf emits the
leaf's symbol and goes on from the root (R244), and an internal child is the next node (R241). -/
def decodeFrom (s : State) (c : NodeIndex) : Bits → List Byte × NodeIndex
  | [] => ([], c)
  | v :: p =>
    let child := if v then (s.node c.toNat).right else (s.node c.toNat).left
    if (s.node s.root.toNat).isLeaf = true then
      ((s.node s.root.toNat).sym :: (decodeFrom s s.root p).1, (decodeFrom s s.root p).2)
    else if (s.node child.toNat).isLeaf = true then
      ((s.node child.toNat).sym :: (decodeFrom s s.root p).1, (decodeFrom s s.root p).2)
    else decodeFrom s child p

/-- The symbols DEC_BULK emits and the cursor it reaches (44_decoder R246). -/
def bulkWalk (s : State) : List Byte × NodeIndex :=
  decodeFrom s s.root (s.readBits s.args.a0.toNat s.args.a1.toNat)

/-- One node of a pre-order encoding (45_tree_serdes R273): the tag of an internal node, or a leaf. -/
inductive TreeToken where
  | internal
  | leaf (sym : Byte)
  deriving DecidableEq, Repr

/-- The bits of a node: "0", or "1" and the byte value, most significant bit first (45_tree_serdes R273). -/
def TreeToken.bits : TreeToken → Bits
  | .internal => [false]
  | .leaf x => true :: bin8 x

/-- The byte value of a leaf. -/
def TreeToken.sym : TreeToken → Option Byte
  | .internal => none
  | .leaf x => some x

/-- After these nodes, in pre-order, the tree still wants a node: no first part of them has more leaves than internal
nodes (45_tree_serdes R274). -/
def Unfinished (ts : List TreeToken) : Prop :=
  ∀ k, k ≤ ts.length →
    (ts.take k).countP (fun t => t.sym.isSome) ≤ (ts.take k).countP (fun t => t.sym.isNone)

/-- What is wrong with a bitstring that should begin with the encodings of `wanted` trees, as the `ERRINFO` of
45_tree_serdes R277, `none` if nothing: 1 when a node tag or the 8 bits of a leaf are missing, 2 when a node
comes with no room left in the store, 3 when a leaf repeats a byte value of `seen`. One node is read at a time,
so the first failure in parse order is the one found. -/
def treeFault : (room wanted : Nat) → (seen : List Byte) → Bits → Option Word
  | _, 0, _, _ => none
  | _, _ + 1, _, [] => some 1
  | 0, _ + 1, _, _ :: _ => some 2
  | room + 1, wanted + 1, seen, false :: p => treeFault room (wanted + 2) seen p
  | room + 1, wanted + 1, seen, true :: p =>
    if p.length < 8 then some 1
    else if BitVec.ofNat 8 (bitsVal (p.take 8)) ∈ seen then some 3
    else treeFault room wanted (BitVec.ofNat 8 (bitsVal (p.take 8)) :: seen) (p.drop 8)

/-- What is wrong with TREE_DESER's source bits as the encoding of one tree in an empty store of 511 nodes
(45_tree_serdes R275, R277). -/
def deserFault (s : State) : Option Word :=
  treeFault 511 1 [] (s.readBits s.args.a0.toNat s.args.a1.toNat)

/-- The error a command reports, by the table of 60_exceptions R302: its checks in order. -/
def firstError (i : Instr) (s : State) : Option CmdError :=
  let noTree := (!s.treeValid, CmdError.uninitializedTree)
  let byteRange := fun (a n : Word) (arg : Word) =>
    (decide (s.dmemBytes < a.toNat + n.toNat), CmdError.addressRange arg)
  let bitRange := fun (b n : Word) (arg : Word) =>
    (decide (8 * s.dmemBytes < b.toNat + n.toNat), CmdError.addressRange arg)
  match i with
  | .nop | .softReset | .ackOverrun | .freqClear | .freqSet _ | .freqGet _ => none
  | .freqCount => firstFailing [byteRange s.args.a0 s.args.a1 0]
  | .treeBuild => firstFailing [(s.freq.toList.all (fun v => v == 0), .emptyInput)]
  | .nodeRead =>
    firstFailing [noTree, (decide (s.nodeCount.toNat ≤ s.args.a0.toNat), .addressRange 0)]
  | .codeGet x =>
    firstFailing [noTree, bitRange s.args.a0 s.args.a1 0,
      (decide (s.args.a1.toNat < s.codeLen x), .capacityExceeded 0)]
  | .encode =>
    firstFailing [noTree, byteRange s.args.a0 s.args.a1 0, bitRange s.args.a2 s.args.a3 2,
      (((encodeSource s).find? (fun x => s.codeLen x == 0)).isSome,
        .symbolNotInTable (((encodeSource s).find? (fun x => s.codeLen x == 0)).getD 0)),
      (decide (s.args.a3.toNat < totalCodeBits s (encodeSource s)), .capacityExceeded 2)]
  | .decReset => firstFailing [noTree]
  | .decStep v => firstFailing [noTree, (decide (1 < v.toNat), .invalidBit v)]
  | .decBulk =>
    firstFailing [noTree, bitRange s.args.a0 s.args.a1 0, byteRange s.args.a2 s.args.a3 2,
      (decide (s.args.a3.toNat < (bulkWalk s).1.length), .capacityExceeded 2)]
  | .treeSer =>
    firstFailing [noTree, bitRange s.args.a0 s.args.a1 0,
      (decide (s.args.a1.toNat < s.serialized.length), .capacityExceeded 0)]
  | .treeDeser =>
    firstFailing [bitRange s.args.a0 s.args.a1 0,
      ((deserFault s).isSome, .invalidContainer ((deserFault s).getD 0))]

/-- The state a failed command leaves: the error record and, for SymbolNotInTable alone, `Q1` (60_exceptions
R304, R305); the offset is that of the first byte with no code (43_encoder R221). -/
def failedState (s : State) (e : CmdError) : State :=
  { s with err := true, errCode := e.code, errInfo := e.info, pending := none,
           q1 := match e with
             | .symbolNotInTable _ =>
               BitVec.ofNat 32 ((encodeSource s).findIdx (fun x => s.codeLen x == 0))
             | .emptyInput | .invalidBit _ | .uninitializedTree | .invalidContainer _ | .illegalCommand _
             | .addressRange _ | .capacityExceeded _ => s.q1 }

end Sys2Proof.Machine
end

