-- ==== Sys2Proof/Certificates/Slice0/Obligations.lean ====
section
/-! DEFINITION. The statements for the provers, each from a numbered rule of the spec. A next state is written
as the state before with the fields that change, so every field not named is unchanged: the frame. -/

open Sys2Proof Sys2Proof.Machine

/-! ## Encoding (30_encoding) -/

/-- 30_encoding R100, R103, R105: the decoder reads every command back from the word the encoder writes, at
every value of its immediate. -/
def Obligations.DecodeInvertsEncode : Prop := ∀ i : Instr, decode (encode i) = .ok i

/-- 30_encoding R105: a word selects at most one command, the one it encodes. -/
def Obligations.EncodeInvertsDecode : Prop := ∀ (w : Word) (i : Instr), decode w = .ok i → encode i = w

/-- 30_encoding R105, R106: a word selects a command exactly when its opcode is listed, `RSV` is 0 and `IMM8` is
0 unless the opcode takes an immediate. -/
def Obligations.DecodeAcceptsExactlyLegalWords : Prop :=
  ∀ w : Word, (∃ i, decode w = .ok i) ↔ (CmdFields.ofWord w).wellFormed = true

/-- 30_encoding R103, with the words of programs P1, P3 and P4 of 95_test_vectors. -/
def Obligations.SpecWordsDecode : Prop :=
  decode 0x00000013#32 = .ok .freqCount ∧ decode 0x00000020#32 = .ok .treeBuild ∧
  decode 0x00000060#32 = .ok .treeSer ∧ decode 0x00000040#32 = .ok .encode ∧
  decode 0x00000061#32 = .ok .treeDeser ∧ decode 0x00000052#32 = .ok .decBulk ∧
  decode 0x00000151#32 = .ok (.decStep 1#8) ∧ decode 0x00004111#32 = .ok (.freqSet 0x41#8) ∧
  decode 0x00000099#32 = .error .reservedOpcode

/-! ## Steps -/

/-- 10_state R23, 30_encoding R105: with a command pending and no early host line, a step is the execution of
the command its word decodes to, and nothing else. -/
def Obligations.StepRunsThePendingCommand : Prop :=
  ∀ (s : State) (p : Pending) (i : Instr), s.pending = some p → s.hostEarly = false →
    decode p.word = .ok i → step s = exec i s

/-- 30_encoding R106: the 240 opcodes not listed are reserved; a pending word with a reserved opcode, with `RSV` not
0, or with `IMM8` not 0 where none is taken ends with `IllegalCommand`, `ERRINFO` the word, and changes
nothing else. -/
def Obligations.IllegalWordsAreReported : Prop :=
  ((List.range 256).countP
    (fun k => !(CmdFields.opcodeListed { opc := BitVec.ofNat 8 k, imm8 := 0, rsv := 0 }))) = 240 ∧
  (∀ k, 0x70 ≤ k → k < 256 →
    CmdFields.opcodeListed { opc := BitVec.ofNat 8 k, imm8 := 0, rsv := 0 } = false) ∧
  ∀ (s : State) (p : Pending), s.pending = some p → s.hostEarly = false →
    (CmdFields.ofWord p.word).wellFormed = false →
    step s = .next { s with err := true, errCode := 6, errInfo := p.word, pending := none }

/-- 60_exceptions R318: with no command pending and no host line left, a step changes nothing. -/
def Obligations.IdleBlockHoldsItsState : Prop :=
  ∀ s : State, s.pending = none → s.script = [] → step s = .next s

/-- 10_state R23, R38, R41: a command word written to `CMD` with nothing pending is what the block's next step runs, the
arguments as they stood at the issue; host moves may come in between (70_reset_and_hazards R357), so the step is
the block's when no early host line stands first. The last clause is the model's choice, not the spec's (log 8):
`withFetchWord` stands for an issue, also where a command is pending, and makes an early host line wait. -/
def Obligations.IssuedWordRunsNext : Prop :=
  ∀ (s : State) (i : Instr),
    (s.pending = none → ∃ u, hostAct (.writeReg 4 0x00#6 (encode i)) s = .next u ∧
      u.args = ⟨s.a0, s.a1, s.a2, s.a3⟩ ∧ (u.hostEarly = false → step u = exec i u)) ∧
    step (s.withFetchWord 32 (encode i).toNat) = exec i ((s.issue (encode i)).deferHost) ∧
    ((s.issue (encode i)).deferHost).args = ⟨s.a0, s.a1, s.a2, s.a3⟩

/-! ## The host's side -/

/-- 10_state R38: a write to `CMD` issues the word when nothing is pending and is ignored with `OVERRUN`
otherwise; a read returns 0. -/
def Obligations.CmdWriteIssuesOrOverruns : Prop :=
  ∀ (s : State) (w : Word),
    (s.pending = none → hostAct (.writeReg 4 0x00#6 w) s =
      .next { s with err := false, errCode := 0, errInfo := 0,
                     pending := some ⟨w, ⟨s.a0, s.a1, s.a2, s.a3⟩⟩ }) ∧
    (s.pending ≠ none → hostAct (.writeReg 4 0x00#6 w) s = .next { s with overrun := true }) ∧
    hostAct (.readReg 4 0x00#6) s = .next { s with seen := 0 :: s.seen }

/-- 70_reset_and_hazards R351: a `CMD` write while busy changes only `OVERRUN`, which stays set until ACK_OVERRUN,
SOFT_RESET or reset. -/
def Obligations.OverrunIsSticky : Prop :=
  (∀ (s : State) (w : Word), s.pending ≠ none →
    hostAct (.writeReg 4 0x00#6 w) s = .next { s with overrun := true }) ∧
  (∀ (i : Instr) (s t : State), exec i s = .next t → i ≠ .ackOverrun → i ≠ .softReset →
    t.overrun = s.overrun) ∧
  (∀ (a : HostAction) (s t : State), hostAct a s = .next t → a ≠ .hardReset → s.overrun = true →
    t.overrun = true) ∧
  (∀ s t : State, exec .ackOverrun s = .next t ∨ exec .softReset s = .next t ∨
    hostAct .hardReset s = .next t → t.overrun = false)

/-- 70_reset_and_hazards R352, 10_state R41: a write to `A0..A3` takes effect in the register at once and leaves the
latched arguments alone, also while busy; the next issue latches the new value. -/
def Obligations.ArgumentWritesReachTheNextCommand : Prop :=
  ∀ (s : State) (v w : Word),
    (hostAct (.writeReg 4 0x08#6 v) s = .next { s with a0 := v } ∧
      (State.issue { s with a0 := v } w).args = ⟨v, s.a1, s.a2, s.a3⟩) ∧
    (hostAct (.writeReg 4 0x0C#6 v) s = .next { s with a1 := v } ∧
      (State.issue { s with a1 := v } w).args = ⟨s.a0, v, s.a2, s.a3⟩) ∧
    (hostAct (.writeReg 4 0x10#6 v) s = .next { s with a2 := v } ∧
      (State.issue { s with a2 := v } w).args = ⟨s.a0, s.a1, v, s.a3⟩) ∧
    (hostAct (.writeReg 4 0x14#6 v) s = .next { s with a3 := v } ∧
      (State.issue { s with a3 := v } w).args = ⟨s.a0, s.a1, s.a2, v⟩)

/-- 10_state R44: `ID` reads 0x48544231 in every state. -/
def Obligations.IdAlwaysReadsItsValue : Prop :=
  ∀ s : State, hostAct (.readReg 4 0x34#6) s = .next { s with seen := 0x48544231#32 :: s.seen }

/-- 10_state R45: reserved offsets read 0, a write to a reserved offset or a read-only register changes nothing,
and no read changes anything but what the host has seen and the count of free values. -/
def Obligations.ReservedAndReadOnlyOffsetsAreInert : Prop :=
  ∀ s : State,
    (∀ o ∈ [0x38#6, 0x3C#6], hostAct (.readReg 4 o) s = .next { s with seen := 0 :: s.seen }) ∧
    (∀ o ∈ [0x04#6, 0x18#6, 0x1C#6, 0x20#6, 0x24#6, 0x28#6, 0x2C#6, 0x30#6, 0x34#6, 0x38#6, 0x3C#6],
      ∀ v : Word, hostAct (.writeReg 4 o v) s = .next s) ∧
    (∀ o : BitVec 6, o.toNat % 4 = 0 →
      ∃ v n, hostAct (.readReg 4 o) s = .next { s with seen := v :: s.seen, draws := n })

/-- 10_state R37, 70_reset_and_hazards R353: `STATUS`, `A0..A3` and `ID` read their values at any time, the result
registers when nothing is pending; while busy a result register reads a free value (log 5). -/
def Obligations.RegistersReadTheirContent : Prop :=
  ∀ s : State,
    (∀ e ∈ [(0x04#6, s.statusWord), (0x08#6, s.a0), (0x0C#6, s.a1), (0x10#6, s.a2), (0x14#6, s.a3),
        (0x34#6, 0x48544231#32)],
      hostAct (.readReg 4 e.1) s = .next { s with seen := e.2 :: s.seen }) ∧
    (s.pending = none →
      ∀ e ∈ [(0x18#6, s.q0), (0x1C#6, s.q1), (0x20#6, s.q2), (0x24#6, s.cursor.setWidth 32),
          (0x28#6, s.root.setWidth 32), (0x2C#6, s.nodeCount.setWidth 32), (0x30#6, s.errInfo)],
        hostAct (.readReg 4 e.1) s = .next { s with seen := e.2 :: s.seen }) ∧
    (s.pending ≠ none → ∀ o ∈ [0x18#6, 0x1C#6, 0x20#6, 0x24#6, 0x28#6, 0x2C#6, 0x30#6],
      hostAct (.readReg 4 o) s =
        .next { s with seen := Config.freeWord s.draws :: s.seen, draws := s.draws + 1 })

/-- 10_state R39: every field of `STATUS`, the computed ones among them; the reserved bits read 0. -/
def Obligations.StatusWordHasItsFields : Prop :=
  ∀ s : State,
    s.statusWord.getLsbD 0 = s.pending.isSome ∧ s.statusWord.getLsbD 1 = s.err ∧
    s.statusWord.extractLsb' 2 2 = 0 ∧ s.statusWord.extractLsb' 4 4 = s.errCode ∧
    s.statusWord.getLsbD 8 = s.treeValid ∧
    (s.statusWord.getLsbD 9 = true ↔ s.treeValid = true ∧ s.cursor = s.root) ∧
    (s.statusWord.getLsbD 10 = true ↔ s.treeValid = true ∧ (s.node s.root.toNat).isLeaf = true) ∧
    s.statusWord.getLsbD 11 = s.overrun ∧ s.statusWord.extractLsb' 12 20 = 0

/-- 70_reset_and_hazards R354: a host read of DMEM, or a host write of at least one byte, is refused while busy. -/
def Obligations.DmemAccessWhileBusyIsRefused : Prop :=
  ∀ (s : State) (a : Word) (bs : List Byte), s.busy = true →
    (bs ≠ [] → hostAct (.writeMem a bs) s = .refused .dmemRace) ∧ hostAct (.readMem a) s = .refused .dmemRace

/-- 20_memory R60, R62: when nothing is pending, a host write of DMEM bytes inside DMEM stores exactly them: each
byte of the region reads as written, every other address as before; a read returns the byte. The last clause is
the model's choice, not the spec's (log 22): a write of no byte changes nothing in any state, whatever its address. -/
def Obligations.HostDmemAccess : Prop :=
  (∀ (s : State) (a : Word) (bs : List Byte), s.pending = none →
    (a.toNat + bs.length ≤ s.dmemBytes →
      ∃ m, hostAct (.writeMem a bs) s = .next { s with dmem := m } ∧
        (∀ j, (h : j < bs.length) → Memory.read s.dmemEpoch m (a.toNat + j) = bs[j]) ∧
        (∀ k, k < a.toNat ∨ a.toNat + bs.length ≤ k → Memory.read s.dmemEpoch m k = s.readByte k)) ∧
    (a.toNat < s.dmemBytes →
      hostAct (.readMem a) s = .next { s with seen := (s.readByte a.toNat).setWidth 32 :: s.seen })) ∧
  ∀ (s : State) (a : Word), hostAct (.writeMem a []) s = .next s

/-- 20_memory R68, 70_reset_and_hazards R356: a register access of another width, or at an offset that is no
multiple of 4, is refused. -/
def Obligations.NonWordAccessIsRefused : Prop :=
  ∀ (s : State) (width : Nat) (o : BitVec 6) (v : Word), width ≠ 4 ∨ o.toNat % 4 ≠ 0 →
    hostAct (.writeReg width o v) s = .refused .registerAccess ∧
    hostAct (.readReg width o) s = .refused .registerAccess

/-- 70_reset_and_hazards R340, R342, 10_state R48: the reset input puts every register and `FREQ` at 0, drops a
pending command, and leaves no tree; a DMEM byte, a node and a code then read free values (log 2, 3, 4). The
parameter and the host's own fields are the model's and stay (log 19). -/
def Obligations.HardResetValues : Prop :=
  ∀ s : State, ∃ t, hostAct .hardReset s = .next t ∧
    t.pending = none ∧ t.statusWord = 0 ∧ [t.a0, t.a1, t.a2, t.a3] = [0, 0, 0, 0] ∧
    [t.q0, t.q1, t.q2] = [0, 0, 0] ∧ t.cursor = 0 ∧ t.root = 0 ∧ t.nodeCount = 0 ∧ t.errInfo = 0 ∧
    (∀ x, freqAt t.freq x = 0) ∧ t.pq = [] ∧ t.treeValid = false ∧
    (∀ a, t.readByte a = Config.freeDmem t.dmemEpoch a) ∧ t.dmemEpoch = s.dmemEpoch + 1 ∧
    (∀ i, t.node i = Config.freeNode t.storeEpoch i) ∧ (∀ x, t.code x = Config.freeCode t.storeEpoch x) ∧
    t.storeEpoch = s.storeEpoch + 1 ∧
    t.dmemBytes = s.dmemBytes ∧ t.script = s.script ∧ t.seen = s.seen

/-! ## What each command does -/

/-- 40_control R130: NOP completes and changes nothing but the error record. -/
def Obligations.NopResult : Prop :=
  ∀ s : State, exec .nop s = .next { s with err := false, errCode := 0, errInfo := 0, pending := none }

/-- 40_control R131, 70_reset_and_hazards R343: SOFT_RESET always completes, leaving every register and `FREQ` at
the reset values of 10_state R48 but for `A0..A3` and DMEM. -/
def Obligations.SoftResetResult : Prop :=
  ∀ s : State, ∃ t, exec .softReset s = .next t ∧
    t.pending = none ∧ t.statusWord = 0 ∧ [t.q0, t.q1, t.q2] = [0, 0, 0] ∧ t.cursor = 0 ∧ t.root = 0 ∧
    t.nodeCount = 0 ∧ t.errInfo = 0 ∧ (∀ x, freqAt t.freq x = 0) ∧ t.pq = [] ∧ t.treeValid = false ∧
    (∀ i, t.node i = Config.freeNode t.storeEpoch i) ∧ (∀ x, t.code x = Config.freeCode t.storeEpoch x) ∧
    t.storeEpoch = s.storeEpoch + 1 ∧ [t.a0, t.a1, t.a2, t.a3] = [s.a0, s.a1, s.a2, s.a3] ∧ t.dmem = s.dmem ∧ t.dmemEpoch = s.dmemEpoch ∧
    t.dmemBytes = s.dmemBytes ∧ t.draws = s.draws ∧ t.script = s.script ∧ t.seen = s.seen

/-- 40_control R132: ACK_OVERRUN clears the flag and changes nothing else but the error record. -/
def Obligations.AckOverrunResult : Prop :=
  ∀ s : State, exec .ackOverrun s =
    .next { s with overrun := false, err := false, errCode := 0, errInfo := 0, pending := none }

/-- 41_tree_builder R150: FREQ_CLEAR leaves every count 0 and the tree, its code table and the cursor as they
were. -/
def Obligations.FreqClearResult : Prop :=
  ∀ s : State, ∃ f, exec .freqClear s =
      .next { s with freq := f, err := false, errCode := 0, errInfo := 0, pending := none } ∧
    ∀ x, freqAt f x = 0

/-- 41_tree_builder R151: FREQ_SET writes argument 0 to one entry and leaves every other entry alone. -/
def Obligations.FreqSetResult : Prop :=
  ∀ (s : State) (x : Byte), ∃ f, exec (.freqSet x) s =
      .next { s with freq := f, err := false, errCode := 0, errInfo := 0, pending := none } ∧
    ∀ y, freqAt f y = if y = x then s.args.a0 else freqAt s.freq y

/-- 41_tree_builder R152: FREQ_GET puts the entry in `Q0`. -/
def Obligations.FreqGetResult : Prop :=
  ∀ (s : State) (x : Byte), exec (.freqGet x) s =
    .next { s with q0 := freqAt s.freq x, err := false, errCode := 0, errInfo := 0, pending := none }

/-- 41_tree_builder R153: FREQ_COUNT replaces the table by the histogram of the source bytes, without overflow;
`Q0` is the number of entries and `Q1` the number of bytes. -/
def Obligations.FreqCountResult : Prop :=
  ∀ s : State, s.args.a0.toNat + s.args.a1.toNat ≤ s.dmemBytes →
    ∃ f q, exec .freqCount s =
        .next { s with freq := f, q0 := q, q1 := s.args.a1, err := false, errCode := 0, errInfo := 0,
                       pending := none } ∧
      (∀ x, (freqAt f x).toNat =
        (List.range s.args.a1.toNat).countP (fun j => s.readByte (s.args.a0.toNat + j) == x)) ∧
      q.toNat = (List.range 256).countP (fun k => freqAt f (BitVec.ofNat 8 k) != 0)

/-- 41_tree_builder R162, R160: with any entry in the table, TREE_BUILD completes with `2n - 1` nodes, the root
the last of them, the cursor at the root; `Q0` is n, and `Q2 : Q1` the exact total of the counts, which is
the root's weight (R155). -/
def Obligations.TreeBuildResult : Prop :=
  ∀ s : State, (∃ x, freqAt s.freq x ≠ 0) →
    ∃ t, exec .treeBuild s = .next t ∧
      t = { s with nodes := t.nodes, root := t.root, nodeCount := t.nodeCount, treeValid := true,
                   cursor := t.root, codes := t.codes, pq := [], q0 := t.q0, q1 := t.q1, q2 := t.q2,
                   err := false, errCode := 0, errInfo := 0, pending := none } ∧
      t.q0.toNat = (List.range 256).countP (fun k => freqAt s.freq (BitVec.ofNat 8 k) != 0) ∧
      t.nodes.length + 1 = 2 * t.q0.toNat ∧ t.nodeCount.toNat = t.nodes.length ∧
      t.root.toNat + 1 = t.nodes.length ∧
      (t.node t.root.toNat).freq.toNat = totalCount s.freq ∧
      (t.node t.root.toNat).freq.toNat = t.q2.toNat * 2 ^ 32 + t.q1.toNat

/-- 41_tree_builder R157: after TREE_BUILD the leaves are the entries of the table in ascending byte value, from
index 0 on, each with its count. -/
def Obligations.TreeBuildAllocatesLeavesInOrder : Prop :=
  ∀ s t : State, exec .treeBuild s = .next t → t.err = false →
    (∀ k, k < t.q0.toNat → ∃ x, t.node k = ⟨true, x, 0, 0, (freqAt s.freq x).setWidth 40⟩ ∧
      freqAt s.freq x ≠ 0) ∧
    (∀ j k, j < k → k < t.q0.toNat → (t.node j).sym.toNat < (t.node k).sym.toNat) ∧
    (∀ x, freqAt s.freq x ≠ 0 → ∃ k, k < t.q0.toNat ∧ (t.node k).sym = x)

/-- 41_tree_builder R158, R159, R165, R167: every later node is internal, its weight the exact sum of its
children's, its children older than it; the left child's key is below the right child's, and every key a
merge takes is below every key a later merge takes, in the order `(freq, index)`. -/
def Obligations.TreeBuildMergesInKeyOrder : Prop :=
  ∀ s t : State, exec .treeBuild s = .next t → t.err = false →
    let key := fun i : NodeIndex => (⟨(t.node i.toNat).freq, i⟩ : QueueKey)
    (∀ k, t.q0.toNat ≤ k → k < t.nodes.length →
      (t.node k).isLeaf = false ∧ (t.node k).sym = 0 ∧
      (t.node k).left.toNat < k ∧ (t.node k).right.toNat < k ∧
      (t.node k).freq.toNat =
        (t.node (t.node k).left.toNat).freq.toNat + (t.node (t.node k).right.toNat).freq.toNat ∧
      (key (t.node k).left).before (key (t.node k).right) = true) ∧
    (∀ j k, t.q0.toNat ≤ j → j < k → k < t.nodes.length →
      (key (t.node j).right).before (key (t.node k).left) = true)

/-- 41_tree_builder R166: NODE_READ gives the fields of `NODES[a0]` in the layout of its table. -/
def Obligations.NodeReadResult : Prop :=
  ∀ s : State, s.treeValid = true → s.args.a0.toNat < s.nodeCount.toNat →
    ∃ v0 v1 v2 : Word, exec .nodeRead s =
        .next { s with q0 := v0, q1 := v1, q2 := v2, err := false, errCode := 0, errInfo := 0,
                       pending := none } ∧
      v0.extractLsb' 0 9 = (s.node s.args.a0.toNat).left ∧ v0.extractLsb' 9 7 = 0 ∧
      v0.extractLsb' 16 9 = (s.node s.args.a0.toNat).right ∧ v0.extractLsb' 25 7 = 0 ∧
      v1.extractLsb' 0 8 = (s.node s.args.a0.toNat).sym ∧
      v1.getLsbD 8 = (s.node s.args.a0.toNat).isLeaf ∧ v1.extractLsb' 9 15 = 0 ∧
      v1.extractLsb' 24 8 = (s.node s.args.a0.toNat).freq.extractLsb' 32 8 ∧
      v2 = (s.node s.args.a0.toNat).freq.extractLsb' 0 32

/-- 42_code_table R206, 20_memory R65: CODE_GET writes exactly the code's bits at bit address a0; a byte value with
no entry is no error. -/
def Obligations.CodeGetResult : Prop :=
  ∀ (s : State) (x : Byte), s.treeValid = true →
    s.args.a0.toNat + s.args.a1.toNat ≤ 8 * s.dmemBytes → s.codeLen x ≤ s.args.a1.toNat →
    ∃ m q, exec (.codeGet x) s =
        .next { s with dmem := m, q0 := BitVec.ofNat 32 (s.codeLen x), q1 := q, err := false, errCode := 0,
                       errInfo := 0, pending := none } ∧
      (s.codeLen x ≤ 32 → q.toNat = bitsVal (s.code x)) ∧ (32 < s.codeLen x → q = 0) ∧
      Memory.readBits s.dmemEpoch m s.args.a0.toNat (s.codeLen x) = s.code x ∧
      (∀ b, b < s.args.a0.toNat ∨ s.args.a0.toNat + s.codeLen x ≤ b →
        Memory.bitRead s.dmemEpoch m b = s.readBit b) ∧
      (∀ a, (∀ j, j < s.codeLen x → (s.args.a0.toNat + j) / 8 ≠ a) →
        Memory.read s.dmemEpoch m a = s.readByte a)

/-- 43_encoder R221, R220, 20_memory R65: ENCODE writes exactly the concatenation of the source bytes' codes, in
input order, at bit address a2. -/
def Obligations.EncodeResult : Prop :=
  ∀ s : State, s.treeValid = true → s.args.a0.toNat + s.args.a1.toNat ≤ s.dmemBytes →
    s.args.a2.toNat + s.args.a3.toNat ≤ 8 * s.dmemBytes →
    ¬ SharesByte s.args.a0.toNat s.args.a1.toNat s.args.a2.toNat s.args.a3.toNat →
    (∀ x ∈ encodeSource s, s.code x ≠ []) → totalCodeBits s (encodeSource s) ≤ s.args.a3.toNat →
    ∃ m, exec .encode s =
        .next { s with dmem := m, q0 := BitVec.ofNat 32 (totalCodeBits s (encodeSource s)), q1 := s.args.a1,
                       err := false, errCode := 0, errInfo := 0, pending := none } ∧
      Memory.readBits s.dmemEpoch m s.args.a2.toNat (totalCodeBits s (encodeSource s)) =
        ((encodeSource s).map s.code).flatten ∧
      (∀ b, b < s.args.a2.toNat ∨ s.args.a2.toNat + totalCodeBits s (encodeSource s) ≤ b →
        Memory.bitRead s.dmemEpoch m b = s.readBit b) ∧
      (∀ a, (∀ j, j < totalCodeBits s (encodeSource s) → (s.args.a2.toNat + j) / 8 ≠ a) →
        Memory.read s.dmemEpoch m a = s.readByte a)

/-- 44_decoder R242: DEC_RESET puts the cursor at the root. -/
def Obligations.DecResetResult : Prop :=
  ∀ s : State, s.treeValid = true → exec .decReset s =
    .next { s with cursor := s.root, err := false, errCode := 0, errInfo := 0, pending := none }

/-- 44_decoder R243, R241, R244, R245: DEC_STEP moves to the child the bit names; onto a leaf it emits the leaf's
symbol and returns to the root; on a degenerate tree either bit emits the root's symbol. -/
def Obligations.DecStepResult : Prop :=
  ∀ (s : State) (v : Byte), s.treeValid = true → v = 0 ∨ v = 1 →
    let child := if v = 0 then (s.node s.cursor.toNat).left else (s.node s.cursor.toNat).right
    ∃ c q, exec (.decStep v) s =
        .next { s with cursor := c, q0 := q, err := false, errCode := 0, errInfo := 0, pending := none } ∧
      ((s.node s.root.toNat).isLeaf = true →
        c = s.root ∧ q.toNat = 256 + (s.node s.root.toNat).sym.toNat) ∧
      ((s.node s.root.toNat).isLeaf = false → (s.node child.toNat).isLeaf = true →
        c = s.root ∧ q.toNat = 256 + (s.node child.toNat).sym.toNat) ∧
      ((s.node s.root.toNat).isLeaf = false → (s.node child.toNat).isLeaf = false → c = child ∧ q = 0)

/-- 44_decoder R246, R247: DEC_BULK walks the source bits from the root, writes exactly the bytes emitted from
byte address a2 on, and reports whether the input ended inside a code. `bulkWalk` says the walk by the cases of
R241, R244 and R245, apart from the machine's walker. -/
def Obligations.DecBulkResult : Prop :=
  ∀ s : State, s.treeValid = true → s.args.a0.toNat + s.args.a1.toNat ≤ 8 * s.dmemBytes →
    s.args.a2.toNat + s.args.a3.toNat ≤ s.dmemBytes →
    ¬ SharesByte s.args.a2.toNat s.args.a3.toNat s.args.a0.toNat s.args.a1.toNat →
    (bulkWalk s).1.length ≤ s.args.a3.toNat →
    ∃ m q, exec .decBulk s =
        .next { s with dmem := m, cursor := (bulkWalk s).2, q0 := BitVec.ofNat 32 (bulkWalk s).1.length,
                       q1 := s.args.a1, q2 := q, err := false, errCode := 0, errInfo := 0,
                       pending := none } ∧
      ((bulkWalk s).2 = s.root → q = 0) ∧ ((bulkWalk s).2 ≠ s.root → q = 1) ∧
      (∀ k, (h : k < (bulkWalk s).1.length) →
        Memory.read s.dmemEpoch m (s.args.a2.toNat + k) = (bulkWalk s).1[k]) ∧
      (∀ a, a < s.args.a2.toNat ∨ s.args.a2.toNat + (bulkWalk s).1.length ≤ a →
        Memory.read s.dmemEpoch m a = s.readByte a)

/-- 45_tree_serdes R271, R272, R273, 20_memory R65: TREE_SER writes exactly the pre-order encoding of the tree at
bit address a0; `Q0` is its `10L - 1` bits and `Q1` its leaves. -/
def Obligations.TreeSerResult : Prop :=
  ∀ (s : State) (t : HTree), s.treeValid = true → HoldsTree s t →
    s.args.a0.toNat + s.args.a1.toNat ≤ 8 * s.dmemBytes → t.bits.length ≤ s.args.a1.toNat →
    ∃ m q0 q1, exec .treeSer s =
        .next { s with dmem := m, q0 := q0, q1 := q1, err := false, errCode := 0, errInfo := 0,
                       pending := none } ∧
      q0.toNat + 1 = 10 * t.leaves ∧ q1.toNat = t.leaves ∧
      Memory.readBits s.dmemEpoch m s.args.a0.toNat t.bits.length = t.bits ∧
      (∀ b, b < s.args.a0.toNat ∨ s.args.a0.toNat + t.bits.length ≤ b →
        Memory.bitRead s.dmemEpoch m b = s.readBit b) ∧
      (∀ a, (∀ j, j < t.bits.length → (s.args.a0.toNat + j) / 8 ≠ a) →
        Memory.read s.dmemEpoch m a = s.readByte a)

/-- 45_tree_serdes R276, R278, R279, R280: TREE_DESER completes on every region that begins with the encoding of a
tree with distinct symbols, whatever follows it, and then holds that tree in pre-order numbering with its
code table, the cursor at the root 0; `Q0` is the bits consumed and `Q1` the leaves. -/
def Obligations.TreeDeserResult : Prop :=
  ∀ (s : State) (t : HTree), s.args.a0.toNat + s.args.a1.toNat ≤ 8 * s.dmemBytes → t.symbols.Nodup →
    t.bits.length ≤ s.args.a1.toNat → s.readBits s.args.a0.toNat t.bits.length = t.bits →
    ∃ u, exec .treeDeser s = .next u ∧
      u = { s with nodes := u.nodes, root := 0, nodeCount := u.nodeCount, treeValid := true, cursor := 0,
                   codes := u.codes, pq := [], q0 := u.q0, q1 := u.q1, err := false, errCode := 0,
                   errInfo := 0, pending := none } ∧
      HoldsTree u t ∧ (∀ x, u.code x = t.codeOf x) ∧ (∀ k, k < u.nodes.length → (u.node k).freq = 0) ∧
      (∀ k, k < u.nodes.length → (u.node k).isLeaf = false →
        (u.node k).left.toNat = k + 1 ∧ k < (u.node k).right.toNat) ∧
      u.q0.toNat = t.bits.length ∧ u.q1.toNat = t.leaves ∧ u.nodeCount.toNat + 1 = 2 * t.leaves

/-! ## Errors -/

/-- 20_memory R78, 70_reset_and_hazards R355: ENCODE and DEC_BULK are refused when, past their tree and region checks,
their source and destination regions share a byte; no command is refused otherwise, and none faults. That the
checks come before the refusal is the model's reading (DEDUCED, log 15) of the comments in 43_encoder R221 and
44_decoder R246. -/
def Obligations.OnlyOverlappingRegionsAreRefused : Prop :=
  ∀ (i : Instr) (s : State),
    (∀ r, exec i s = .refused r ↔ r = .overlappingRegions ∧ OverlapRefused i s) ∧
    (∀ f, exec i s ≠ .fault f) ∧ (¬ OverlapRefused i s → ∃ t, exec i s = .next t)

/-- 60_exceptions R302, R304, R305: a command that meets an error reports the first in the table's order, and
changes only the error record (and `Q1` for SymbolNotInTable); one that meets none succeeds. `firstError` reads
TREE_DESER's cause off the source bits, node by node (45_tree_serdes R277), apart from the machine's parser. -/
def Obligations.FirstErrorIsReported : Prop :=
  ∀ (i : Instr) (s : State), ¬ OverlapRefused i s →
    (∀ e, firstError i s = some e → exec i s = .next (failedState s e)) ∧
    (firstError i s = none → ∃ t, exec i s = .next t ∧ t.err = false)

/-- 60_exceptions R305: a failed command changes no state other than the error record and `PENDING`, with the one
exception of `Q1` for SymbolNotInTable; the same of the step of a pending word, legal or not. -/
def Obligations.FailedCommandChangesNothing : Prop :=
  (∀ (i : Instr) (s t : State), exec i s = .next t → t.err = true →
    t = { s with err := true, errCode := t.errCode, errInfo := t.errInfo, pending := none, q1 := t.q1 } ∧
    (t.errCode ≠ 2 → t.q1 = s.q1)) ∧
  (∀ s t : State, s.pending ≠ none → s.hostEarly = false → step s = .next t → t.err = true →
    t = { s with err := true, errCode := t.errCode, errInfo := t.errInfo, pending := none, q1 := t.q1 } ∧
    (t.errCode ≠ 2 → t.q1 = s.q1))

/-- 60_exceptions R303: a command that raises no error leaves the error record clear and the block not busy. -/
def Obligations.SuccessClearsTheRecord : Prop :=
  ∀ (i : Instr) (s t : State), exec i s = .next t →
    t.pending = none ∧ t.busy = false ∧ (t.err = false → t.errCode = 0 ∧ t.errInfo = 0)

/-- 41_tree_builder R156: with every count 0, TREE_BUILD raises EmptyInput with `ERRINFO = 0`; the previous tree,
code table and cursor are kept. -/
def Obligations.EmptyTableIsReported : Prop :=
  ∀ s : State, (∀ x, freqAt s.freq x = 0) → exec .treeBuild s =
    .next { s with err := true, errCode := 1, errInfo := 0, pending := none }

/-- 45_tree_serdes R276, R279: when TREE_DESER succeeds, the bits it consumed are the encoding of a tree with
distinct symbols, which the block then holds. -/
def Obligations.TreeDeserAcceptsOnlyEncodings : Prop :=
  ∀ s u : State, exec .treeDeser s = .next u → u.err = false →
    ∃ t : HTree, t.symbols.Nodup ∧ s.readBits s.args.a0.toNat u.q0.toNat = t.bits ∧
      t.bits.length ≤ s.args.a1.toNat ∧ HoldsTree u t

/-! ## Rules over all commands -/

/-- 10_state R30: `TREE_VALID` is set only by a successful TREE_BUILD or TREE_DESER and cleared, of the commands,
only by SOFT_RESET. -/
def Obligations.TreeValidChangesOnlyByTreeCommands : Prop :=
  ∀ (i : Instr) (s t : State), exec i s = .next t →
    (s.treeValid = true → t.treeValid = false → i = .softReset) ∧
    (s.treeValid = false → t.treeValid = true → (i = .treeBuild ∨ i = .treeDeser) ∧ t.err = false)

/-- 10_state R24, R35, R40, 20_memory R79: `FREQ` is written only by FREQ_CLEAR, FREQ_SET, FREQ_COUNT and
SOFT_RESET; DMEM only by CODE_GET, ENCODE, DEC_BULK and TREE_SER; the cursor only by the tree commands, the
decoder commands and SOFT_RESET; `A0..A3`, the parameter and the host's own fields by no command. -/
def Obligations.CommandsWriteOnlyTheirOwnState : Prop :=
  ∀ (i : Instr) (s t : State), exec i s = .next t →
    (t.freq ≠ s.freq → i = .softReset ∨ i = .freqClear ∨ (∃ x, i = .freqSet x) ∨ i = .freqCount) ∧
    (t.dmem ≠ s.dmem → (∃ x, i = .codeGet x) ∨ i = .encode ∨ i = .decBulk ∨ i = .treeSer) ∧
    (t.cursor ≠ s.cursor → i = .softReset ∨ i = .treeBuild ∨ i = .treeDeser ∨ i = .decReset ∨
      (∃ v, i = .decStep v) ∨ i = .decBulk) ∧
    [t.a0, t.a1, t.a2, t.a3] = [s.a0, s.a1, s.a2, s.a3] ∧ t.dmemBytes = s.dmemBytes ∧
    t.dmemEpoch = s.dmemEpoch ∧ t.draws = s.draws ∧ t.script = s.script ∧ t.seen = s.seen

/-! ## Invariants -/

/-- 20_memory R60, R63: every step keeps DMEM in its canonical form and inside `0 .. DMEM_BYTES - 1`. -/
def Obligations.StepKeepsMemoryCanonical : Prop :=
  ∀ s t : State, s.memoryInv → step s = .next t → t.memoryInv

/-- 60_exceptions R301, R303, 10_state R38: every step keeps the error record one the spec allows. -/
def Obligations.StepKeepsErrorRecordLegal : Prop :=
  ∀ s t : State, s.recordInv → step s = .next t → t.recordInv

/-- 10_state R26, R31, R34, R36: every step keeps the tree, its code table, the cursor and the queue as the
spec says they are when a tree exists. -/
def Obligations.StepKeepsTreeWhole : Prop :=
  ∀ s t : State, s.treeInv → step s = .next t → t.treeInv

/-- 00_scope R6, 10_state R48: whatever the OPEN `DMEM_BYTES`, one of 1 to 2^29 in every state, a block of that size
meets the three invariants after reset. `State.reset` is the block of one size, the model's choice (log 1). -/
def Obligations.ResetMeetsTheInvariants : Prop :=
  (∀ s : State, 1 ≤ s.dmemBytes ∧ s.dmemBytes ≤ 2 ^ 29) ∧
  (∀ n : Nat, 1 ≤ n → n ≤ 2 ^ 29 → ∃ top, (State.resetWith top).dmemBytes = n ∧
    (State.resetWith top).memoryInv ∧ (State.resetWith top).recordInv ∧ (State.resetWith top).treeInv) ∧
  State.reset.memoryInv ∧ State.reset.recordInv ∧ State.reset.treeInv

/-! ## Trees, codes and bits -/

/-- 42_code_table R203: in every state with a tree the code is nonempty exactly for the symbols of the tree's leaves, no
code is a prefix of another, a code has at most 255 bits, and following it from the root reaches the symbol's
leaf. The last clause says the first two of a tree by itself. -/
def Obligations.CodesArePrefixFree : Prop :=
  (∀ s : State, s.treeInv → s.treeValid = true →
    (∀ x, s.code x ≠ [] ↔ ∃ i : NodeIndex, i.toNat < s.nodeCount.toNat ∧ (s.node i.toNat).isLeaf = true ∧
      (s.node i.toNat).sym = x) ∧
    (∀ x y, s.code x ≠ [] → s.code y ≠ [] → x ≠ y → ¬ s.code x <+: s.code y) ∧
    (∀ x, s.code x ≠ [] → s.codeLen x ≤ 255 ∧ decodeFrom s s.root (s.code x) = ([x], s.root))) ∧
  ∀ t : HTree, t.symbols.Nodup →
    (∀ x, t.codeOf x ≠ [] ↔ x ∈ t.symbols) ∧
    (∀ x y, x ∈ t.symbols → y ∈ t.symbols → x ≠ y → ¬ t.codeOf x <+: t.codeOf y)

/-- 41_tree_builder R163: the code TREE_BUILD leaves has the least weighted length of all full binary trees with the
same leaves. -/
def Obligations.BuiltTreeIsOptimal : Prop :=
  ∀ (s t : State) (h : HTree), exec .treeBuild s = .next t → t.err = false → h.symbols.Nodup →
    (∀ x, x ∈ h.symbols ↔ freqAt s.freq x ≠ 0) →
    weightedLength s.freq t.codeLen ≤ weightedLength s.freq (fun x => (h.codeOf x).length)

/-- 41_tree_builder R164: the weighted length is at most `⌈log2 n⌉ + 1` times the total count, and with n = 1 the one
code has length 1. -/
def Obligations.BuiltCodeMeetsTheLengthBound : Prop :=
  ∀ s t : State, exec .treeBuild s = .next t → t.err = false →
    weightedLength s.freq t.codeLen ≤ (Nat.clog 2 t.q0.toNat + 1) * totalCount s.freq ∧
    (t.q0 = 1 → ∀ x, freqAt s.freq x ≠ 0 → t.codeLen x = 1)

/-- 43_encoder R224: DEC_BULK over ENCODE's output with the same tree returns the input and ends with the cursor at the
root, the degenerate tree included (R223). -/
def Obligations.DecBulkInvertsEncode : Prop :=
  ∀ (s u : State) (p : Pending), s.treeInv → exec .encode s = .next u → u.err = false →
    p.args.a0 = s.args.a2 → p.args.a1 = u.q0 → s.args.a1.toNat ≤ p.args.a3.toNat →
    p.args.a2.toNat + p.args.a3.toNat ≤ s.dmemBytes →
    ¬ SharesByte p.args.a2.toNat p.args.a3.toNat p.args.a0.toNat p.args.a1.toNat →
    ∃ v, exec .decBulk { u with pending := some p } = .next v ∧ v.err = false ∧ v.cursor = v.root ∧
      v.q0 = s.args.a1 ∧ v.q2 = 0 ∧
      ∀ j, j < s.args.a1.toNat → v.readByte (p.args.a2.toNat + j) = s.readByte (s.args.a0.toNat + j)

/-- 45_tree_serdes R281, R280, 42_code_table R205: TREE_DESER over a region that begins with the bits TREE_SER wrote
succeeds and yields a tree with the same shape and symbols, hence the same code table. -/
def Obligations.DeserializingInvertsSerializing : Prop :=
  ∀ (s u : State) (t : HTree) (p : Pending), s.treeValid = true → HoldsTree s t →
    (∀ x, s.code x = t.codeOf x) → exec .treeSer s = .next u → u.err = false →
    p.args.a0 = s.args.a0 → p.args.a0.toNat + p.args.a1.toNat ≤ 8 * s.dmemBytes →
    u.q0.toNat ≤ p.args.a1.toNat →
    ∃ v, exec .treeDeser { u with pending := some p } = .next v ∧ v.err = false ∧ HoldsTree v t ∧
      (∀ x, v.code x = s.code x) ∧ v.q0 = u.q0

/-- 45_tree_serdes R281: TREE_DESER then TREE_SER reproduces the first `Q0` bits of its input. -/
def Obligations.SerializingInvertsDeserializing : Prop :=
  ∀ (s u : State) (p : Pending), exec .treeDeser s = .next u → u.err = false →
    p.args.a0.toNat + p.args.a1.toNat ≤ 8 * s.dmemBytes → u.q0.toNat ≤ p.args.a1.toNat →
    ∃ v, exec .treeSer { u with pending := some p } = .next v ∧ v.err = false ∧ v.q0 = u.q0 ∧ v.q1 = u.q1 ∧
      v.readBits p.args.a0.toNat u.q0.toNat = s.readBits s.args.a0.toNat u.q0.toNat

/-- 45_tree_serdes R272: a tree with L leaves serializes to exactly `10L - 1` bits, determined by the shape: in every
state that holds it, where L is also `(NODE_COUNT + 1) / 2`, and as an encoding by itself. -/
def Obligations.SerializedLength : Prop :=
  (∀ (s : State) (t : HTree), HoldsTree s t →
    s.serialized.length = 9 * t.leaves + (t.leaves - 1) ∧ s.serialized.length = 10 * t.leaves - 1 ∧
    s.nodeCount.toNat + 1 = 2 * t.leaves) ∧
  ∀ (t : HTree), t.bits.length = 9 * t.leaves + (t.leaves - 1) ∧ t.bits.length = 10 * t.leaves - 1

/-- 20_memory R64: bit address `b` is bit `7 - (b mod 8)` of byte `b div 8`; writing a bit sets that bit, leaves
every other bit of the byte and every other byte unchanged, and reads back. -/
def Obligations.BitViewOfDmem : Prop :=
  ∀ (e : Nat) (m : List Host.Cell) (b : Nat) (v : Bool),
    Memory.bitRead e m b = (Memory.read e m (b / 8)).getLsbD (7 - b % 8) ∧
    Memory.bitRead e (Memory.bitWrite e m b v) b = v ∧
    (∀ k, k < 8 → k ≠ 7 - b % 8 →
      (Memory.read e (Memory.bitWrite e m b v) (b / 8)).getLsbD k = (Memory.read e m (b / 8)).getLsbD k) ∧
    (∀ a, a ≠ b / 8 → Memory.read e (Memory.bitWrite e m b v) a = Memory.read e m a)

/-- 20_memory R66: a bitstring written at a byte-aligned address over cleared bytes packs into `⌈|p|/8⌉` bytes,
byte `k` holding the value of its bits `8k .. 8k+7`, missing positions 0. -/
def Obligations.AlignedWritePacksBytes : Prop :=
  ∀ (e : Nat) (m : List Host.Cell) (a : Nat) (p : Bits),
    (∀ k, k < (p.length + 7) / 8 → Memory.read e m (a + k) = 0) →
    Memory.readBytes e (Memory.writeBits e m (8 * a) p) a ((p.length + 7) / 8) = packBits p ∧
    (∀ b, b < a ∨ a + (p.length + 7) / 8 ≤ b →
      Memory.read e (Memory.writeBits e m (8 * a) p) b = Memory.read e m b)

/-- 20_memory R80, R84: parsing a container the host built gives its tree blob, payload length and payload back. -/
def Obligations.ContainerRoundTrip : Prop :=
  ∀ (magic : List Byte) (tree payload : Bits), magic.length = 4 → tree.length < 2 ^ 32 →
    payload.length < 2 ^ 32 →
    parseContainer magic (buildContainer magic tree payload) =
      some ⟨packBits tree, payload.length, packBits payload⟩

/-! ## The causes of InvalidContainer -/

/-- 45_tree_serdes R275, R277: TREE_DESER's source begins with the nodes `ts` of a tree that wants more, and `p` follows
them. It fails with InvalidContainer, `ERRINFO` 1 when no node tag or not all 8 bits of a leaf value follow, 2 when a
node follows with the store full, 3 when a leaf follows whose byte value has been met. -/
def Obligations.TreeDeserNamesTheCause : Prop :=
  ∀ (s : State) (ts : List TreeToken) (p : Bits), s.args.a0.toNat + s.args.a1.toNat ≤ 8 * s.dmemBytes →
    s.readBits s.args.a0.toNat s.args.a1.toNat = ts.flatMap TreeToken.bits ++ p → Unfinished ts →
    (ts.filterMap TreeToken.sym).Nodup → ts.length ≤ 511 →
    let failsWith := fun cause : Word =>
      exec .treeDeser s = .next { s with err := true, errCode := 5, errInfo := cause, pending := none }
    (p = [] → failsWith 1) ∧
    (∀ q, p = true :: q → q.length < 8 → ts.length < 511 → failsWith 1) ∧
    (p ≠ [] → ts.length = 511 → failsWith 2) ∧
    (∀ x q, p = true :: (bin8 x ++ q) → x ∈ ts.filterMap TreeToken.sym → ts.length < 511 → failsWith 3)
end

