-- ==== Sys2Proof/Laws/Arrays.lean ====
section
/-! SUPPORT. The internal arrays: reading an entry after a write (10_state R24, R33), the empty table, and the
byte values with an entry. -/

namespace Sys2Proof.Machine

/-- Reading a 256-entry array by a byte value after writing one entry. -/
theorem vector_get_set {α : Type} (t : Vector α 256) (x y : Byte) (v : α) :
    (t.set x.toNat v x.isLt).get y.toFin = if y = x then v else t.get y.toFin := by
  show (t.set x.toNat v x.isLt)[y.toNat]'y.isLt = if y = x then v else t[y.toNat]'y.isLt
  rw [Vector.getElem_set]
  by_cases h : y = x
  · subst h; simp
  · have : ¬ x.toNat = y.toNat := fun hn => h (BitVec.eq_of_toNat_eq hn.symm)
    simp [h, this]

theorem vector_get_replicate {α : Type} (v : α) (x : Byte) :
    (Vector.replicate 256 v).get x.toFin = v := by
  show (Vector.replicate 256 v)[x.toNat]'x.isLt = v
  simp

@[simp] theorem freqAt_freqSetAt (f : Vector Word 256) (x y : Byte) (v : Word) :
    freqAt (freqSetAt f x v) y = if y = x then v else freqAt f y := vector_get_set f x y v

@[simp] theorem freqAt_freqEmpty (x : Byte) : freqAt freqEmpty x = 0 := vector_get_replicate 0 x

/-- The code table after one entry (42_code_table R201). -/
theorem codeSetAt_get (t : Vector Bits 256) (e : Byte × Bits) (y : Byte) :
    (codeSetAt t e).get y.toFin = if y = e.1 then e.2 else t.get y.toFin := vector_get_set t e.1 y e.2

/-- A table's entries in ascending byte value. -/
theorem freq_toList (f : Vector Word 256) :
    f.toList = (List.range 256).map (fun k => freqAt f (BitVec.ofNat 8 k)) := by
  apply List.ext_getElem
  · simp
  · intro k h1 h2
    have hk : k < 256 := by simpa using h2
    simp only [Vector.getElem_toList, List.getElem_map, List.getElem_range]
    show f[k] = f[(BitVec.ofNat 8 k).toNat]'_
    congr 1
    simp only [BitVec.toNat_ofNat]
    omega

theorem mem_presentSymbols (f : Vector Word 256) (x : Byte) : x ∈ presentSymbols f ↔ freqAt f x ≠ 0 := by
  unfold presentSymbols
  simp only [List.mem_filter, List.mem_map, List.mem_range, bne_iff_ne, ne_eq, and_iff_right_iff_imp]
  intro _
  exact ⟨x.toNat, x.isLt, by simp⟩

/-- `FREQ_COUNT`'s `Q0` and `TREE_BUILD`'s n are the same number: the entries of the table. -/
theorem distinctSymbols_eq (f : Vector Word 256) : distinctSymbols f = (presentSymbols f).length := by
  unfold distinctSymbols presentSymbols
  rw [freq_toList, List.countP_map, ← List.countP_eq_length_filter, List.countP_map]
  rfl

theorem presentSymbols_length_le (f : Vector Word 256) : (presentSymbols f).length ≤ 256 := by
  unfold presentSymbols
  exact (List.length_filter_le _ _).trans (by simp)

end Sys2Proof.Machine
end

