-- ==== Sys2Proof/Laws/Bits.lean ====
section
/-! SUPPORT. Bitstrings as numbers and bytes (00_scope R8): the value of a bitstring, and a byte's bits read
back. -/

namespace Sys2Proof.Machine

theorem bitsVal_append (p q : Bits) : bitsVal (p ++ q) = 2 ^ q.length * bitsVal p + bitsVal q := by
  have key : ∀ (q : Bits) (n : Nat),
      q.foldl (fun n b => 2 * n + b.toNat) n = 2 ^ q.length * n + bitsVal q := by
    intro q
    induction q with
    | nil => simp [bitsVal]
    | cons b q ih =>
      intro n
      simp only [bitsVal, List.foldl_cons, List.length_cons]
      rw [ih, ih (2 * 0 + b.toNat)]
      ring
  unfold bitsVal
  rw [List.foldl_append, key]
  rfl

theorem bitsVal_cons (b : Bool) (p : Bits) : bitsVal (b :: p) = 2 ^ p.length * b.toNat + bitsVal p := by
  have := bitsVal_append [b] p
  simpa [bitsVal] using this

theorem bitsVal_lt (p : Bits) : bitsVal p < 2 ^ p.length := by
  induction p with
  | nil => simp [bitsVal]
  | cons b p ih =>
    rw [bitsVal_cons, List.length_cons, pow_succ]
    cases b <;> simp <;> omega

@[simp] theorem bin8_length (x : Byte) : (bin8 x).length = 8 := by simp [bin8]

/-- A byte is the value of its bits. -/
theorem ofNat_bitsVal_bin8 (x : Byte) : BitVec.ofNat 8 (bitsVal (bin8 x)) = x := by
  have h : ∀ x : Byte, BitVec.ofNat 8 (bitsVal (bin8 x)) = x := by decide +kernel
  exact h x

/-- Eight bits are the bits of the byte they make. -/
theorem bin8_ofNat_bitsVal (p : Bits) (h : p.length = 8) : bin8 (BitVec.ofNat 8 (bitsVal p)) = p := by
  match p, h with
  | [b0, b1, b2, b3, b4, b5, b6, b7], _ =>
    have h : ∀ b0 b1 b2 b3 b4 b5 b6 b7 : Bool,
        bin8 (BitVec.ofNat 8 (bitsVal [b0, b1, b2, b3, b4, b5, b6, b7])) = [b0, b1, b2, b3, b4, b5, b6, b7] := by
      decide +kernel
    exact h b0 b1 b2 b3 b4 b5 b6 b7

/-- `Q1` of CODE_GET holds the value of a code of at most 32 bits exactly (42_code_table R206). -/
theorem codeValue_toNat (p : Bits) (h : p.length ≤ 32) : (codeValue p).toNat = bitsVal p := by
  have h1 := bitsVal_lt p
  have h2 : 2 ^ p.length ≤ 2 ^ 32 := Nat.pow_le_pow_right (by norm_num) h
  simp only [codeValue, if_pos h, BitVec.toNat_ofNat]
  exact Nat.mod_eq_of_lt (by omega)

/-- The bits of a packed byte (20_memory R66). -/
theorem packByte_getLsbD (p : Bits) (i : Nat) (hi : i < 8) : (packByte p).getLsbD (7 - i) = p.getD i false := by
  have h := bin8_ofNat_bitsVal ((List.range 8).map (fun j => p.getD j false)) (by simp)
  have := congrArg (fun l => l[i]?) h
  simp [bin8, hi] at this
  simpa [packByte] using this

@[simp] theorem packBits_length (p : Bits) : (packBits p).length = (p.length + 7) / 8 := by simp [packBits]

/-- A length field holds its number (20_memory R81). -/
theorem fieldVal_field32 (n : Nat) (h : n < 2 ^ 32) : fieldVal (field32 n) = n := by
  simp [fieldVal, field32]
  omega

end Sys2Proof.Machine
end

