-- ==== Sys2Proof/Laws/Trees.lean ====
section
/-! SUPPORT. Trees and the node stores that represent them: sizes and depths (10_state R26, R27), the walks of
the code-table generator and the serializer (42_code_table R201, 45_tree_serdes R273), and the code table they
give. -/

namespace Sys2Proof.Machine

/-! ## Sizes -/

/-- The greatest number of edges from the root to a leaf. -/
def HTree.depth : HTree → Nat
  | .leaf _ => 0
  | .node l r => max l.depth r.depth + 1

@[simp] theorem HTree.leaves_leaf (x : Byte) : (HTree.leaf x).leaves = 1 := rfl

@[simp] theorem HTree.leaves_node (l r : HTree) : (HTree.node l r).leaves = l.leaves + r.leaves := by
  simp [HTree.leaves, HTree.symbols]

theorem HTree.leaves_pos (t : HTree) : 0 < t.leaves := by
  induction t with
  | leaf x => simp
  | node l r ihl ihr => simp; omega

/-- 10_state R27: a tree with L leaves has depth at most L - 1. -/
theorem HTree.depth_lt_leaves (t : HTree) : t.depth < t.leaves := by
  induction t with
  | leaf x => simp [HTree.depth]
  | node l r ihl ihr =>
    have h1 := l.leaves_pos
    have h2 := r.leaves_pos
    simp only [HTree.depth, HTree.leaves_node]
    omega

/-- A list of distinct byte values has at most 256 members. -/
theorem nodup_bytes_length (xs : List Byte) (h : xs.Nodup) : xs.length ≤ 256 := by
  have h1 : (xs.map BitVec.toNat).Nodup := h.map (fun a b e => BitVec.eq_of_toNat_eq e)
  have h2 : xs.map BitVec.toNat ⊆ List.range 256 := by
    intro n hn
    obtain ⟨x, _, rfl⟩ := List.mem_map.1 hn
    exact List.mem_range.2 x.isLt
  simpa using (List.subperm_of_subset h1 h2).length_le

theorem HTree.leaves_le (t : HTree) (h : t.symbols.Nodup) : t.leaves ≤ 256 := nodup_bytes_length _ h

theorem HTree.depth_lt_fuel (t : HTree) (h : t.symbols.Nodup) : t.depth < Config.maxDepth + 1 := by
  have h1 := t.depth_lt_leaves
  have h2 := t.leaves_le h
  have h3 : Config.maxDepth = 255 := rfl
  omega

/-! ## Node stores that represent a tree -/

theorem Represents.root_mem {nd : Nat → Node} {i : NodeIndex} {t : HTree} {is : List NodeIndex}
    (h : Represents nd i t is) : i ∈ is := by
  cases h <;> simp

/-- 10_state R26: a tree with L leaves has 2L - 1 nodes. -/
theorem Represents.length_eq {nd : Nat → Node} {i : NodeIndex} {t : HTree} {is : List NodeIndex}
    (h : Represents nd i t is) : is.length + 1 = 2 * t.leaves := by
  induction h with
  | leaf => rfl
  | node i l r li ri hn hl hr ihl ihr =>
    simp only [List.length_cons, List.length_append, HTree.leaves_node]
    omega

/-- Only the entries of the tree's own nodes matter. -/
theorem Represents.congr {nd nd' : Nat → Node} {i : NodeIndex} {t : HTree} {is : List NodeIndex}
    (h : Represents nd i t is) (he : ∀ j ∈ is, nd' j.toNat = nd j.toNat) : Represents nd' i t is := by
  induction h with
  | leaf i x hl hs =>
    have := he i (by simp)
    exact .leaf i x (by rw [this, hl]) (by rw [this, hs])
  | node i l r li ri hn hl hr ihl ihr =>
    have h0 := he i (by simp)
    refine .node i l r li ri (by rw [h0, hn]) ?_ ?_
    · rw [h0]
      exact ihl (fun j hj => he j (by simp [hj]))
    · rw [h0]
      exact ihr (fun j hj => he j (by simp [hj]))

/-- A tree held in the store has one index in its list per node, so `NODE_COUNT` is 2L - 1 (10_state R26). -/
theorem HoldsTree.nodeCount_eq {s : State} {t : HTree} (h : HoldsTree s t) :
    s.nodeCount.toNat + 1 = 2 * t.leaves := by
  obtain ⟨-, is, hr, hn, hm, -⟩ := h
  have hl := hr.length_eq
  have hbound : is.length ≤ 512 := by
    have h1 : (is.map BitVec.toNat).Nodup := hn.map (fun a b e => BitVec.eq_of_toNat_eq e)
    have h2 : is.map BitVec.toNat ⊆ List.range 512 := by
      intro n hn
      obtain ⟨x, _, rfl⟩ := List.mem_map.1 hn
      exact List.mem_range.2 x.isLt
    simpa using (List.subperm_of_subset h1 h2).length_le
  have hperm : (is.map BitVec.toNat).Perm (List.range (min s.nodeCount.toNat 512)) := by
    rw [List.perm_ext_iff_of_nodup (hn.map (fun a b e => BitVec.eq_of_toNat_eq e)) List.nodup_range]
    intro n
    simp only [List.mem_map, List.mem_range]
    constructor
    · rintro ⟨x, hx, rfl⟩
      have h1 := (hm x).1 hx
      have h2 := x.isLt
      omega
    · intro hn
      have h1 : (BitVec.ofNat 9 n).toNat = n := by
        rw [BitVec.toNat_ofNat]
        exact Nat.mod_eq_of_lt (by omega)
      exact ⟨BitVec.ofNat 9 n, (hm _).2 (by omega), h1⟩
  have hlen : is.length = min s.nodeCount.toNat 512 := by simpa using hperm.length_eq
  omega

/-! ## The walks -/

/-- `Ser` at a node writes the encoding of the tree below it (45_tree_serdes R273). -/
theorem serialize_eq {nd : Nat → Node} {i : NodeIndex} {t : HTree} {is : List NodeIndex}
    (h : Represents nd i t is) (fuel : Nat) (hf : t.depth < fuel) : serialize nd fuel i = t.bits := by
  induction h generalizing fuel with
  | leaf i x hl hs =>
    obtain ⟨k, rfl⟩ : ∃ k, fuel = k + 1 := ⟨fuel - 1, by omega⟩
    simp [serialize, HTree.bits, hl, hs]
  | node i l r li ri hn hl hr ihl ihr =>
    obtain ⟨k, rfl⟩ : ∃ k, fuel = k + 1 := ⟨fuel - 1, by omega⟩
    simp only [HTree.depth] at hf
    simp [serialize, HTree.bits, hn, ihl k (by omega), ihr k (by omega)]

/-- `Walk` at a node lists the leaves below it with their paths (42_code_table R201). -/
theorem walkCodes_eq {nd : Nat → Node} {i : NodeIndex} {t : HTree} {is : List NodeIndex}
    (h : Represents nd i t is) (fuel : Nat) (p : Bits) (hf : t.depth < fuel) :
    walkCodes nd fuel i p = t.paths.map (fun e => (e.1, p ++ e.2)) := by
  induction h generalizing fuel p with
  | leaf i x hl hs =>
    obtain ⟨k, rfl⟩ : ∃ k, fuel = k + 1 := ⟨fuel - 1, by omega⟩
    simp [walkCodes, HTree.paths, hl, hs]
  | node i l r li ri hn hl hr ihl ihr =>
    obtain ⟨k, rfl⟩ : ∃ k, fuel = k + 1 := ⟨fuel - 1, by omega⟩
    simp only [HTree.depth] at hf
    simp [walkCodes, HTree.paths, hn, ihl k _ (by omega), ihr k _ (by omega), Function.comp_def]

theorem HTree.paths_symbols (t : HTree) : t.paths.map (fun e => e.1) = t.symbols := by
  induction t with
  | leaf x => rfl
  | node l r ihl ihr => simp [HTree.paths, HTree.symbols, ← ihl, ← ihr, Function.comp_def]

/-- The code table after entering a list of codes with distinct symbols. -/
theorem foldl_codeSetAt_get (es : List (Byte × Bits)) (t : Vector Bits 256) (x : Byte)
    (hn : (es.map (fun e => e.1)).Nodup) :
    (es.foldl codeSetAt t).get x.toFin = (es.lookup x).getD (t.get x.toFin) := by
  induction es generalizing t with
  | nil => rfl
  | cons e es ih =>
    simp only [List.map_cons, List.nodup_cons] at hn
    rw [List.foldl_cons, ih _ hn.2, codeSetAt_get, List.lookup_cons]
    by_cases hx : x = e.1
    · subst hx
      have hnone : es.lookup e.1 = none := by
        rw [List.lookup_eq_none_iff]
        intro p hp
        rw [bne_iff_ne]
        intro h
        exact hn.1 (List.mem_map.2 ⟨p, hp, h.symm⟩)
      simp [hnone]
    · rw [show (x == e.1) = false by simpa using hx, if_neg hx]

/-- The table the generator writes is the tree's own (42_code_table R201, R202). -/
theorem codeGen_get {nd : Nat → Node} {i : NodeIndex} {t : HTree} {is : List NodeIndex}
    (h : Represents nd i t is) (hn : t.symbols.Nodup) (x : Byte) :
    (codeGen nd i).get x.toFin = t.codeOf x := by
  unfold codeGen
  cases h with
  | leaf i y hl hs =>
    rw [if_pos hl, codeSetAt_get, vector_get_replicate]
    simp [HTree.codeOf, hs]
  | node i l r li ri hnl hl hr =>
    have hrep : Represents nd i (.node l r) (i :: (li ++ ri)) := .node i l r li ri hnl hl hr
    rw [if_neg (by simp [hnl]), walkCodes_eq hrep _ _ (HTree.depth_lt_fuel _ hn)]
    have hid : (HTree.node l r).paths.map (fun e => (e.1, ([] : Bits) ++ e.2)) = (HTree.node l r).paths := by
      simp
    rw [hid, foldl_codeSetAt_get _ _ _ (by rw [HTree.paths_symbols]; exact hn), vector_get_replicate]
    rfl

/-- A code's entry in the list of leaves is its lookup, the symbols being distinct. -/
theorem lookup_eq_some_iff (es : List (Byte × Bits)) (hn : (es.map (fun e => e.1)).Nodup) (x : Byte) (p : Bits) :
    es.lookup x = some p ↔ (x, p) ∈ es := by
  induction es with
  | nil => simp
  | cons e es ih =>
    obtain ⟨y, q⟩ := e
    simp only [List.map_cons, List.nodup_cons] at hn
    rw [List.lookup_cons, List.mem_cons, ← ih hn.2]
    by_cases h : x = y
    · subst h
      simp only [beq_self_eq_true, Option.some.injEq, Prod.mk.injEq, true_and]
      constructor
      · exact fun h => .inl h.symm
      · rintro (h | h)
        · exact h.symm
        · exact absurd (List.mem_map.2 ⟨_, (ih hn.2).1 h, rfl⟩) hn.1
    · simp [h, show (x == y) = false by simpa using h]

theorem HTree.mem_symbols_iff (t : HTree) (x : Byte) : x ∈ t.symbols ↔ ∃ p, (x, p) ∈ t.paths := by
  rw [← HTree.paths_symbols]
  simp

/-- Under a tree of two leaves or more a leaf's code is its path. -/
theorem HTree.codeOf_eq {l r : HTree} (hn : (HTree.node l r).symbols.Nodup) {x : Byte} {p : Bits}
    (h : (x, p) ∈ (HTree.node l r).paths) : (HTree.node l r).codeOf x = p := by
  have hn' : ((HTree.node l r).paths.map (fun e => e.1)).Nodup := by
    rw [HTree.paths_symbols]
    exact hn
  simp [HTree.codeOf, (lookup_eq_some_iff _ hn' x p).2 h]

/-! ## The tree in the state -/

/-- Only the store, the root, the node count and the free values matter to the tree a state holds. -/
theorem HoldsTree.congr {s u : State} {t : HTree} (h : HoldsTree s t) (h1 : u.nodes = s.nodes)
    (h2 : u.root = s.root) (h3 : u.nodeCount = s.nodeCount) (h4 : u.storeEpoch = s.storeEpoch) :
    HoldsTree u t := by
  have hn : u.node = s.node := by
    funext i
    simp [State.node, h1, h4]
  unfold HoldsTree
  rw [h1, h2, h3, hn]
  exact h

/-- The children of an internal node of a tree are nodes of the tree. -/
theorem Represents.children_mem {nd : Nat → Node} {i : NodeIndex} {t : HTree} {is : List NodeIndex}
    (h : Represents nd i t is) (c : NodeIndex) (hc : c ∈ is) (hl : (nd c.toNat).isLeaf = false) :
    (nd c.toNat).left ∈ is ∧ (nd c.toNat).right ∈ is := by
  induction h with
  | leaf i x h1 h2 =>
    obtain rfl := List.mem_singleton.1 hc
    simp [h1] at hl
  | node i l r li ri hn h1 h2 ih1 ih2 =>
    rcases List.mem_cons.1 hc with rfl | hc
    · simp [h1.root_mem, h2.root_mem]
    · rcases List.mem_append.1 hc with hc | hc
      · simp [ih1 hc]
      · simp [ih2 hc]

/-! ## The walker (44_decoder R241) -/

/-- The cursor stays at the root or on an internal node of the tree (10_state R36). -/
theorem walk1_cursor {s : State} {t : HTree} (h : HoldsTree s t) (c : NodeIndex) (v : Bool)
    (hc : c = s.root ∨ (c.toNat < s.nodeCount.toNat ∧ (s.node c.toNat).isLeaf = false)) :
    (walk1 s.node s.root c v).2 = s.root ∨ ((walk1 s.node s.root c v).2.toNat < s.nodeCount.toNat ∧
      (s.node (walk1 s.node s.root c v).2.toNat).isLeaf = false) := by
  obtain ⟨-, is, hr, -, hm, -⟩ := h
  unfold walk1
  by_cases h1 : (s.node s.root.toNat).isLeaf = true
  · simp [h1]
  · have h1' : (s.node s.root.toNat).isLeaf = false := eq_false_of_ne_true h1
    have hc' : c ∈ is ∧ (s.node c.toNat).isLeaf = false := by
      rcases hc with rfl | h
      · exact ⟨hr.root_mem, h1'⟩
      · exact ⟨(hm c).2 h.1, h.2⟩
    obtain ⟨hl, hr'⟩ := hr.children_mem c hc'.1 hc'.2
    rw [if_neg h1]
    have hn : (if v then (s.node c.toNat).right else (s.node c.toNat).left) ∈ is := by
      split
      · exact hr'
      · exact hl
    dsimp only
    generalize (if v then (s.node c.toNat).right else (s.node c.toNat).left) = n at hn ⊢
    by_cases h2 : (s.node n.toNat).isLeaf = true
    · simp [h2]
    · rw [if_neg h2]
      exact .inr ⟨(hm n).1 hn, eq_false_of_ne_true h2⟩

theorem walkBits_cursor {s : State} {t : HTree} (h : HoldsTree s t) (p : Bits) (c : NodeIndex)
    (hc : c = s.root ∨ (c.toNat < s.nodeCount.toNat ∧ (s.node c.toNat).isLeaf = false)) :
    (walkBits s.node s.root c p).2 = s.root ∨ ((walkBits s.node s.root c p).2.toNat < s.nodeCount.toNat ∧
      (s.node (walkBits s.node s.root c p).2.toNat).isLeaf = false) := by
  induction p generalizing c with
  | nil => exact hc
  | cons v p ih => exact ih _ (walk1_cursor h c v hc)

/-- Walking a leaf's path from a node of two leaves or more emits the leaf's symbol and returns to the root. -/
theorem walkBits_path {nd : Nat → Node} {root i : NodeIndex} {l r : HTree} {is : List NodeIndex}
    (hroot : (nd root.toNat).isLeaf = false) (h : Represents nd i (.node l r) is) (x : Byte) (p q : Bits)
    (hp : (x, p) ∈ (HTree.node l r).paths) :
    walkBits nd root i (p ++ q) = (x :: (walkBits nd root root q).1, (walkBits nd root root q).2) := by
  generalize ht : HTree.node l r = t at h hp
  induction h generalizing l r p with
  | leaf => simp at ht
  | node i l' r' li ri hn hl hr ihl ihr =>
    simp only [HTree.paths, List.mem_append, List.mem_map, Prod.mk.injEq] at hp
    rcases hp with ⟨⟨y, p'⟩, hp, rfl, rfl⟩ | ⟨⟨y, p'⟩, hp, rfl, rfl⟩
    · rw [List.cons_append, walkBits]
      cases hl with
      | leaf _ z h1 h2 =>
        obtain ⟨rfl, rfl⟩ : y = z ∧ p' = [] := by simpa [HTree.paths] using hp
        simp [walk1, hroot, h1, h2]
      | node _ a b la lb h1 h2 h3 =>
        simp [walk1, hroot, h1, ihl p' rfl hp]
    · rw [List.cons_append, walkBits]
      cases hr with
      | leaf _ z h1 h2 =>
        obtain ⟨rfl, rfl⟩ : y = z ∧ p' = [] := by simpa [HTree.paths] using hp
        simp [walk1, hroot, h1, h2]
      | node _ a b la lb h1 h2 h3 =>
        simp [walk1, hroot, h1, ihr p' rfl hp]

/-- The walker decodes as the cases of 44_decoder R241, R244 and R245 say. -/
theorem walkBits_eq_decodeFrom (s : State) (c : NodeIndex) (p : Bits) :
    walkBits s.node s.root c p = decodeFrom s c p := by
  induction p generalizing c with
  | nil => rfl
  | cons v p ih =>
    simp only [walkBits, walk1, decodeFrom]
    split
    next => simp [ih]
    next =>
      generalize (if v = true then (s.node c.toNat).right else (s.node c.toNat).left) = n
      split <;> simp [ih]

/-- The leaves among the nodes of a tree are those of its symbols. -/
theorem Represents.mem_symbols_iff {nd : Nat → Node} {i : NodeIndex} {t : HTree} {is : List NodeIndex}
    (h : Represents nd i t is) (x : Byte) :
    x ∈ t.symbols ↔ ∃ j ∈ is, (nd j.toNat).isLeaf = true ∧ (nd j.toNat).sym = x := by
  induction h with
  | leaf i y hl hs => 
    simp only [HTree.symbols, List.mem_singleton, exists_eq_left, hl, hs, true_and]
    exact eq_comm
  | node i l r li ri hn hl hr ihl ihr =>
    simp only [HTree.symbols, List.mem_append, ihl, ihr, List.mem_cons, or_and_right, exists_or,
      exists_eq_left, hn, Bool.false_eq_true, false_and, false_or]

/-- TREE_SER's bits are the encoding of the tree the state holds (45_tree_serdes R273). -/
theorem HoldsTree.serialized_eq {s : State} {t : HTree} (h : HoldsTree s t) : s.serialized = t.bits := by
  obtain ⟨-, is, hr, -, -, hs⟩ := h
  exact serialize_eq hr _ (t.depth_lt_fuel hs)

end Sys2Proof.Machine
end

