-- ==== Sys2Proof/Laws/Weights.lean ====
section
/-! SUPPORT. Why merging the two least weights is optimal (41_tree_builder R163), stated on lists: the depths of the
leaves of a full tree fill the unit interval, so two of the deepest are equal, and the two least weights may take
those two places. -/

namespace Sys2Proof.Machine

/-! ## Weighted depths -/

/-- The sum of weights times depths. -/
def dot (ws ds : List Nat) : Nat := (List.zipWith (fun w d => w * d) ws ds).sum

@[simp] theorem dot_nil_left (ds : List Nat) : dot [] ds = 0 := rfl

@[simp] theorem dot_cons (w d : Nat) (ws ds : List Nat) : dot (w :: ws) (d :: ds) = w * d + dot ws ds := rfl

theorem dot_append (ws ws' ds ds' : List Nat) (h : ws.length = ds.length) :
    dot (ws ++ ws') (ds ++ ds') = dot ws ds + dot ws' ds' := by
  unfold dot
  rw [List.zipWith_append h, List.sum_append]

/-- Rearranging the weights, the depths can be rearranged with them. -/
theorem exists_perm_dot {ws ws' : List Nat} (h : ws.Perm ws') (ds : List Nat) (hl : ds.length = ws.length) :
    ∃ ds', ds'.Perm ds ∧ dot ws' ds' = dot ws ds := by
  induction h generalizing ds with
  | nil => exact ⟨ds, List.Perm.refl _, rfl⟩
  | cons w _ ih =>
    cases ds with
    | nil => simp at hl
    | cons d ds =>
      obtain ⟨ds', h1, h2⟩ := ih ds (by simpa using hl)
      exact ⟨d :: ds', h1.cons d, by simp [h2]⟩
  | swap w w' ws =>
    match ds, hl with
    | d :: d' :: ds, _ => exact ⟨d' :: d :: ds, List.Perm.swap _ _ _, by simp; omega⟩
  | trans h1 _ ih1 ih2 =>
    obtain ⟨ds', p1, e1⟩ := ih1 ds hl
    obtain ⟨ds'', p2, e2⟩ := ih2 ds' (by rw [p1.length_eq, hl, h1.length_eq])
    exact ⟨ds'', p2.trans p1, e2.trans e1⟩

/-- A least weight may take a greatest depth. -/
theorem exists_swap (w m d : Nat) (ws ds : List Nat) (hl : ds.length = ws.length) (hw : ∀ v ∈ ws, w ≤ v)
    (hm : m ∈ d :: ds) (hd : d ≤ m) :
    ∃ ds', (m :: ds').Perm (d :: ds) ∧ w * m + dot ws ds' ≤ w * d + dot ws ds := by
  by_cases he : m = d
  · subst he
    exact ⟨ds, List.Perm.refl _, le_refl _⟩
  · have hm' : m ∈ ds := (List.mem_cons.1 hm).resolve_left he
    clear hm
    induction ds generalizing ws with
    | nil => simp at hm'
    | cons e ds ih =>
      cases ws with
      | nil => simp at hl
      | cons v ws =>
        by_cases h2 : m = e
        · subst h2
          refine ⟨d :: ds, List.Perm.swap _ _ _, ?_⟩
          have hv := hw v (by simp)
          obtain ⟨a, rfl⟩ := Nat.exists_eq_add_of_le hv
          obtain ⟨b, rfl⟩ := Nat.exists_eq_add_of_le hd
          simp only [dot_cons]
          nlinarith [Nat.zero_le (a * b)]
        · obtain ⟨ds', h3, h4⟩ := ih ws (by simpa using hl) (fun u hu => hw u (by simp [hu]))
            ((List.mem_cons.1 hm').resolve_left h2)
          refine ⟨e :: ds', ?_, ?_⟩
          · exact (List.Perm.swap _ _ _).trans ((h3.cons e).trans (List.Perm.swap _ _ _))
          · simp only [dot_cons]
            omega

/-! ## Depths that fill the unit interval (42_code_table R203) -/

/-- The Kraft sum. -/
def kraft (ds : List Nat) : Rat := (ds.map (fun d => (1 / 2 : Rat) ^ d)).sum

@[simp] theorem kraft_cons (d : Nat) (ds : List Nat) : kraft (d :: ds) = (1 / 2 : Rat) ^ d + kraft ds := rfl

theorem kraft_append (ds ds' : List Nat) : kraft (ds ++ ds') = kraft ds + kraft ds' := by simp [kraft]

theorem kraft_perm {ds ds' : List Nat} (h : ds.Perm ds') : kraft ds = kraft ds' := (h.map _).sum_eq

theorem kraft_map_succ (ds : List Nat) : kraft (ds.map (fun d => d + 1)) = (1 / 2 : Rat) * kraft ds := by
  induction ds with
  | nil => simp [kraft]
  | cons d ds ih =>
    rw [List.map_cons, kraft_cons, ih, kraft_cons, pow_succ]
    ring

/-- The leaves of a full tree fill the unit interval. -/
theorem HTree.kraft_paths (t : HTree) : kraft (t.paths.map (fun e => e.2.length)) = 1 := by
  induction t with
  | leaf x => simp [HTree.paths, kraft]
  | node l r ihl ihr =>
    simp only [HTree.paths, List.map_append, List.map_map, kraft_append]
    have h : ∀ t : HTree, ∀ b : Bool, t.paths.map ((fun e : Byte × Bits => e.2.length) ∘ fun e => (e.1, b :: e.2)) =
        (t.paths.map (fun e => e.2.length)).map (fun d => d + 1) := by
      intro t b
      simp [Function.comp_def]
    rw [h, h, kraft_map_succ, kraft_map_succ, ihl, ihr]
    norm_num

theorem exists_max (ds : List Nat) (h : ds ≠ []) : ∃ m ∈ ds, ∀ d ∈ ds, d ≤ m := by
  induction ds with
  | nil => exact absurd rfl h
  | cons d ds ih =>
    by_cases hn : ds = []
    · subst hn
      exact ⟨d, by simp, by simp⟩
    · obtain ⟨m, hm, hx⟩ := ih hn
      by_cases hc : d ≤ m
      · exact ⟨m, by simp [hm], by simpa [hc] using hx⟩
      · refine ⟨d, by simp, ?_⟩
        intro e he
        rcases List.mem_cons.1 he with rfl | he
        · exact le_refl _
        · exact (hx e he).trans (by omega)

/-- With two leaves or more, two of the deepest are equal. -/
theorem exists_deepest_pair (ds : List Nat) (hk : kraft ds = 1) (hl : 2 ≤ ds.length) :
    ∃ m rest, ds.Perm ((m + 1) :: (m + 1) :: rest) ∧ ∀ d ∈ ds, d ≤ m + 1 := by
  obtain ⟨m, hm, hmax⟩ := exists_max ds (by rintro rfl; simp at hl)
  have hp := List.perm_cons_erase hm
  have hz : m ≠ 0 := by
    rintro rfl
    have h1 : ∀ es : List Nat, (∀ d ∈ es, d ≤ 0) → kraft es = es.length := by
      intro es
      induction es with
      | nil => simp [kraft]
      | cons e es ih =>
        intro he
        have := he e (by simp)
        rw [kraft_cons, ih (fun d hd => he d (by simp [hd])), Nat.le_zero.1 this]
        push_cast [List.length_cons]
        ring
    rw [h1 ds hmax] at hk
    have : ds.length = 1 := by exact_mod_cast hk
    omega
  have hin : m ∈ ds.erase m := by
    by_contra hno
    have hlt : ∀ d ∈ ds.erase m, d < m := by
      intro d hd
      rcases lt_or_eq_of_le (hmax d (List.mem_of_mem_erase hd)) with h | rfl
      · exact h
      · exact absurd hd hno
    have heven : ∀ es : List Nat, (∀ d ∈ es, d < m) → ∃ n : Nat, (2 : Rat) ^ m * kraft es = 2 * n := by
      intro es
      induction es with
      | nil => exact fun _ => ⟨0, by simp [kraft]⟩
      | cons e es ih =>
        intro he
        obtain ⟨n, hn⟩ := ih (fun d hd => he d (by simp [hd]))
        obtain ⟨j, rfl⟩ : ∃ j, m = e + 1 + j := ⟨m - (e + 1), by have := he e (by simp); omega⟩
        refine ⟨2 ^ j + n, ?_⟩
        rw [kraft_cons, mul_add, hn]
        have : (2 : Rat) ^ (e + 1 + j) * (1 / 2) ^ e = 2 * 2 ^ j := by
          rw [pow_add, pow_succ, one_div, inv_pow]
          field_simp
        rw [this]
        push_cast
        ring
    obtain ⟨n, hn⟩ := heven _ hlt
    have h1 : kraft ds = (1 / 2 : Rat) ^ m + kraft (ds.erase m) := kraft_perm hp
    obtain ⟨j, rfl⟩ : ∃ j, m = j + 1 := ⟨m - 1, by omega⟩
    have h2 : (2 : Rat) ^ (j + 1) * kraft ds = 1 + 2 * n := by
      rw [h1, mul_add, hn, one_div, inv_pow]
      field_simp
    rw [hk, pow_succ] at h2
    have h3 : 2 ^ j * 2 = 1 + 2 * n := by exact_mod_cast (by linarith : ((2 : Rat) ^ j * 2 = 1 + 2 * n))
    omega
  obtain ⟨j, rfl⟩ : ∃ j, m = j + 1 := ⟨m - 1, by omega⟩
  exact ⟨j, _, hp.trans ((List.perm_cons_erase hin).cons _), hmax⟩

/-- One merge of the two least weights loses nothing: any depths for the old weights give depths for the new ones
that cost less by the merged weight. -/
theorem exists_merged_depths (w v : Nat) (ws ds : List Nat) (hl : ds.length = ws.length + 2) (hwv : w ≤ v)
    (hv : ∀ u ∈ ws, v ≤ u) (hk : kraft ds = 1) :
    ∃ m ds', ds'.length = ws.length ∧ kraft (m :: ds') = 1 ∧
      w + v + ((w + v) * m + dot ws ds') ≤ dot (w :: v :: ws) ds := by
  obtain ⟨m, rest, hp, hmax⟩ := exists_deepest_pair ds hk (by omega)
  match ds, hl with
  | d :: e :: ds, hl =>
    have hl' : ds.length = ws.length := by simpa using hl
    obtain ⟨ds1, p1, c1⟩ := exists_swap w (m + 1) d (v :: ws) (e :: ds) (by simp [hl'])
      (by
        intro u hu
        rcases List.mem_cons.1 hu with rfl | hu
        · exact hwv
        · exact hwv.trans (hv u hu))
      (hp.mem_iff.2 (by simp)) (hmax d (by simp))
    have q1 : ds1.Perm ((m + 1) :: rest) := (p1.trans hp).cons_inv
    match ds1, q1.length_eq with
    | e1 :: ds1, _ =>
      have hl1 : ds1.length = ws.length := by
        have := p1.length_eq
        simp only [List.length_cons] at this
        omega
      obtain ⟨ds2, p2, c2⟩ := exists_swap v (m + 1) e1 ws ds1 hl1 hv (q1.mem_iff.2 (by simp))
        (hmax e1 (p1.mem_iff.1 (by simp)))
      have q2 : ds2.Perm rest := (p2.trans q1).cons_inv
      refine ⟨m, ds2, ?_, ?_, ?_⟩
      · have := p2.length_eq
        simp only [List.length_cons] at this
        omega
      · have h1 := kraft_perm hp
        rw [hk] at h1
        rw [kraft_cons, kraft_perm q2]
        simp only [kraft_cons, pow_succ] at h1
        linarith
      · simp only [dot_cons] at c1 c2 ⊢
        have h3 : (w + v) * m = w * m + v * m := Nat.add_mul _ _ _
        have h4 : w * (m + 1) = w * m + w := Nat.mul_succ _ _
        have h5 : v * (m + 1) = v * m + v := Nat.mul_succ _ _
        omega
    | [], hn => simp at hn

/-! ## The cost of a tree -/

/-- The total weight of a tree's leaves. -/
def HTree.weight (wt : Byte → Nat) (t : HTree) : Nat := (t.symbols.map wt).sum

/-- The weighted path length of a tree: each leaf's weight times its depth. -/
def HTree.cost (wt : Byte → Nat) (t : HTree) : Nat := (t.paths.map (fun e => wt e.1 * e.2.length)).sum

@[simp] theorem HTree.weight_node (wt : Byte → Nat) (l r : HTree) :
    (HTree.node l r).weight wt = l.weight wt + r.weight wt := by simp [HTree.weight, HTree.symbols]

/-- A node adds the weight of everything below it. -/
theorem HTree.cost_node (wt : Byte → Nat) (l r : HTree) :
    (HTree.node l r).cost wt = l.cost wt + r.cost wt + (l.weight wt + r.weight wt) := by
  have h : ∀ (t : HTree) (b : Bool),
      (t.paths.map ((fun e : Byte × Bits => wt e.1 * e.2.length) ∘ fun e => (e.1, b :: e.2))).sum =
        t.cost wt + t.weight wt := by
    intro t b
    unfold HTree.cost HTree.weight
    rw [← HTree.paths_symbols, List.map_map]
    induction t.paths with
    | nil => rfl
    | cons e es ih =>
      simp only [List.map_cons, List.sum_cons, ih, Function.comp_apply, List.length_cons]
      ring
  have hd : (HTree.node l r).cost wt = ((HTree.node l r).paths.map (fun e => wt e.1 * e.2.length)).sum := rfl
  rw [hd]
  simp only [HTree.paths, List.map_append, List.map_map, List.sum_append, h]
  omega

/-! ## A shallow tree (41_tree_builder R164) -/

/-- Any byte values are the leaves of a full tree no deeper than the logarithm of their number, rounded up. -/
theorem exists_shallow_tree (n : Nat) (xs : List Byte) (hn : xs.length = n) (h : 0 < n) :
    ∃ t : HTree, t.symbols = xs ∧ t.depth ≤ Nat.clog 2 n := by
  induction n using Nat.strong_induction_on generalizing xs with
  | _ n ih =>
    by_cases h1 : n = 1
    · subst h1
      obtain ⟨x, rfl⟩ := List.length_eq_one_iff.1 hn
      exact ⟨.leaf x, rfl, by simp [HTree.depth]⟩
    · have hc : Nat.clog 2 n = Nat.clog 2 ((n + 1) / 2) + 1 := Nat.clog_of_two_le (by omega) (by omega)
      obtain ⟨l, l1, l2⟩ := ih ((n + 1) / 2) (by omega) (xs.take ((n + 1) / 2)) (by simp [hn]; omega) (by omega)
      obtain ⟨r, r1, r2⟩ := ih (n / 2) (by omega) (xs.drop ((n + 1) / 2)) (by simp [hn]; omega) (by omega)
      refine ⟨.node l r, by simp [HTree.symbols, l1, r1], ?_⟩
      have h3 : Nat.clog 2 (n / 2) ≤ Nat.clog 2 ((n + 1) / 2) := Nat.clog_mono_right 2 (by omega)
      rw [hc]
      simp only [HTree.depth]
      omega

theorem HTree.path_length_le (t : HTree) (e : Byte × Bits) (h : e ∈ t.paths) : e.2.length ≤ t.depth := by
  induction t generalizing e with
  | leaf x => simp [List.mem_singleton.1 h, HTree.depth]
  | node l r ihl ihr =>
    simp only [HTree.paths, List.mem_append, List.mem_map] at h
    rcases h with ⟨e', he, rfl⟩ | ⟨e', he, rfl⟩
    · have := ihl e' he
      simp only [HTree.depth, List.length_cons]
      omega
    · have := ihr e' he
      simp only [HTree.depth, List.length_cons]
      omega

/-- A tree costs at most its weight times its depth. -/
theorem HTree.cost_le (wt : Byte → Nat) (t : HTree) : t.cost wt ≤ t.weight wt * t.depth := by
  have h : ∀ es : List (Byte × Bits), (∀ e ∈ es, e.2.length ≤ t.depth) →
      (es.map (fun e => wt e.1 * e.2.length)).sum ≤ ((es.map (fun e => e.1)).map wt).sum * t.depth := by
    intro es
    induction es with
    | nil => simp
    | cons e es ih =>
      intro he
      have h1 := Nat.mul_le_mul_left (wt e.1) (he e (by simp))
      have h2 := ih (fun d hd => he d (by simp [hd]))
      simp only [List.map_cons, List.sum_cons, Nat.add_mul]
      omega
  have := h t.paths t.path_length_le
  rwa [HTree.paths_symbols] at this

end Sys2Proof.Machine
end

