-- ==== Sys2Proof/Laws/Build.lean ====
section
/-! SUPPORT. The tree builder says once what it can do: what the queue holds while it merges (41_tree_builder
R157-R160), that one merge keeps it, and the tree the build ends with. -/

namespace Sys2Proof.Machine

/-! ## The order of keys (41_tree_builder R158) -/

theorem QueueKey.before_iff (x y : QueueKey) :
    x.before y = true ↔ x.freq.toNat < y.freq.toNat ∨ (x.freq = y.freq ∧ x.idx.toNat < y.idx.toNat) := by
  simp [QueueKey.before]

theorem QueueKey.before_trans {x y z : QueueKey} (h1 : x.before y = true) (h2 : y.before z = true) :
    x.before z = true := by
  rw [QueueKey.before_iff] at *
  rcases h1 with h1 | ⟨h1, h1'⟩ <;> rcases h2 with h2 | ⟨h2, h2'⟩
  · exact .inl (by omega)
  · exact .inl (by rw [← h2]; exact h1)
  · exact .inl (by rw [h1]; exact h2)
  · exact .inr ⟨h1.trans h2, by omega⟩

theorem QueueKey.before_total (x y : QueueKey) : x.before y = true ∨ x = y ∨ y.before x = true := by
  simp only [QueueKey.before_iff]
  rcases lt_trichotomy x.freq.toNat y.freq.toNat with h | h | h
  · exact .inl (.inl h)
  · have hf := BitVec.eq_of_toNat_eq h
    rcases lt_trichotomy x.idx.toNat y.idx.toNat with h' | h' | h'
    · exact .inl (.inr ⟨hf, h'⟩)
    · have hi := BitVec.eq_of_toNat_eq h'
      cases x
      cases y
      exact .inr (.inl (by simp_all))
    · exact .inr (.inr (.inr ⟨hf.symm, h'⟩))
  · exact .inr (.inr (.inl h))

theorem QueueKey.freq_le_of_before {x y : QueueKey} (h : x.before y = true) : x.freq.toNat ≤ y.freq.toNat := by
  rcases (QueueKey.before_iff x y).1 h with h | ⟨h, -⟩
  · omega
  · rw [h]

/-- The least key is a member and comes before every other member. -/
theorem leastKey_spec (x : QueueKey) (q : List QueueKey) :
    leastKey x q ∈ x :: q ∧ ∀ z ∈ x :: q, z = leastKey x q ∨ (leastKey x q).before z = true := by
  induction q generalizing x with
  | nil => simp [leastKey]
  | cons y q ih =>
    unfold leastKey
    by_cases h : y.before x = true
    · rw [if_pos h]
      obtain ⟨h1, h2⟩ := ih y
      refine ⟨List.mem_cons_of_mem _ h1, ?_⟩
      intro z hz
      rcases List.mem_cons.1 hz with rfl | hz
      · rcases h2 y (by simp) with he | hb
        · exact .inr (he ▸ h)
        · exact .inr (QueueKey.before_trans hb h)
      · exact h2 z hz
    · rw [if_neg h]
      obtain ⟨h1, h2⟩ := ih x
      refine ⟨?_, ?_⟩
      · rcases List.mem_cons.1 h1 with h1 | h1
        · rw [h1]
          simp
        · simp [h1]
      · intro z hz
        rcases List.mem_cons.1 hz with rfl | hz
        · exact h2 z (by simp)
        · rcases List.mem_cons.1 hz with rfl | hz
          · rcases QueueKey.before_total x z with hb | rfl | hb
            · rcases h2 x (by simp) with he | hb'
              · exact .inr (he ▸ hb)
              · exact .inr (QueueKey.before_trans hb' hb)
            · exact h2 x (by simp)
            · exact absurd hb h
          · exact h2 z (by simp [hz])

/-- Extracting the least key: the queue is that key and the rest, and it comes before the whole rest when the
keys are distinct. -/
theorem extractLeast_spec {q r : List QueueKey} {x : QueueKey} (h : extractLeast q = some (x, r)) :
    q.Perm (x :: r) ∧ (q.Nodup → ∀ z ∈ r, x.before z = true) := by
  cases q with
  | nil => simp [extractLeast] at h
  | cons a q =>
    simp only [extractLeast, Option.some.injEq, Prod.mk.injEq] at h
    obtain ⟨h1, h2⟩ := leastKey_spec a q
    rw [h.1] at h1 h2
    have hr : (a :: q).erase x = r := by rw [← h.2, h.1]
    refine ⟨hr ▸ List.perm_cons_erase h1, ?_⟩
    intro hn z hz
    rw [← hr] at hz
    rcases h2 z (List.mem_of_mem_erase hz) with rfl | hb
    · exact absurd hz (hn.not_mem_erase)
    · exact hb

theorem extractLeast_some (q : List QueueKey) (h : 0 < q.length) : ∃ x r, extractLeast q = some (x, r) := by
  cases q with
  | nil => simp at h
  | cons a q => exact ⟨_, _, rfl⟩

/-! ## What holds while the builder merges -/

/-- One subtree the queue holds: its key, its tree and its indices in pre-order. -/
structure Grove where
  key  : QueueKey
  tree : HTree
  idxs : List NodeIndex
  deriving DecidableEq

/-- `NODES[i]` while the builder runs. -/
def Builder.nodeAt (b : Builder) (i : Nat) : Node := (b.nodes[i]?).getD default

/-- The key the entry at index `i` gives. -/
def Builder.keyAt (b : Builder) (i : NodeIndex) : QueueKey := ⟨(b.nodeAt i.toNat).freq, i⟩

/-- What holds while the builder merges: the queue holds exactly the roots of disjoint trees that take up the whole
store, their leaves are the entries of the table, and no weight is lost. -/
structure BuildInv (f : Vector Word 256) (b : Builder) (fs : List Grove) : Prop where
  queue : b.pq.Perm (fs.map Grove.key)
  trees : ∀ g ∈ fs, Represents b.nodeAt g.key.idx g.tree g.idxs
  freqs : ∀ g ∈ fs, b.keyAt g.key.idx = g.key
  indices : ((fs.flatMap Grove.idxs).map BitVec.toNat).Perm (List.range b.nodes.length)
  symbols : (fs.flatMap (fun g => g.tree.symbols)).Perm (presentSymbols f)
  positive : ∀ g ∈ fs, 0 < g.key.freq.toNat
  total : (fs.map (fun g => g.key.freq.toNat)).sum = ((presentSymbols f).map (fun s => (freqAt f s).toNat)).sum
  count : b.nodes.length + fs.length = 2 * (presentSymbols f).length
  weights : ∀ g ∈ fs, g.key.freq.toNat = g.tree.weight (fun x => (freqAt f x).toNat)

/-- What holds of the order of merges: leaves first, each merged node's children are older and in key order, and
every key taken comes before every key still in the queue. -/
structure OrderInv (f : Vector Word 256) (b : Builder) : Prop where
  leaves : b.nodes.take (presentSymbols f).length = (builderStart f).nodes
  long : (presentSymbols f).length ≤ b.nodes.length
  merged : ∀ k, (presentSymbols f).length ≤ k → k < b.nodes.length →
    (b.nodeAt k).isLeaf = false ∧ (b.nodeAt k).sym = 0 ∧ (b.nodeAt k).left.toNat < k ∧
    (b.nodeAt k).right.toNat < k ∧
    (b.nodeAt k).freq.toNat = (b.nodeAt (b.nodeAt k).left.toNat).freq.toNat +
      (b.nodeAt (b.nodeAt k).right.toNat).freq.toNat ∧
    (b.keyAt (b.nodeAt k).left).before (b.keyAt (b.nodeAt k).right) = true
  past : ∀ k, (presentSymbols f).length ≤ k → k < b.nodes.length →
    ∀ x ∈ b.pq, (b.keyAt (b.nodeAt k).right).before x = true
  order : ∀ j k, (presentSymbols f).length ≤ j → j < k → k < b.nodes.length →
    (b.keyAt (b.nodeAt j).right).before (b.keyAt (b.nodeAt k).left) = true

/-- The total of the counts fits in a weight (41_tree_builder R155). -/
theorem total_lt (f : Vector Word 256) :
    ((presentSymbols f).map (fun s => (freqAt f s).toNat)).sum < 2 ^ 40 := by
  have h1 : ∀ xs : List Byte, (xs.map (fun s => (freqAt f s).toNat)).sum ≤ xs.length * (2 ^ 32 - 1) := by
    intro xs
    induction xs with
    | nil => simp
    | cons x xs ih =>
      have := (freqAt f x).isLt
      simp only [List.map_cons, List.sum_cons, List.length_cons, Nat.add_mul]
      omega
  have h2 := h1 (presentSymbols f)
  have h3 := presentSymbols_length_le f
  have h4 : (presentSymbols f).length * (2 ^ 32 - 1) ≤ 256 * (2 ^ 32 - 1) := Nat.mul_le_mul_right _ h3
  omega

/-- The counts of the entries are all the counts. -/
theorem total_eq (f : Vector Word 256) :
    ((presentSymbols f).map (fun s => (freqAt f s).toNat)).sum =
      ((List.range 256).map (fun k => (freqAt f (BitVec.ofNat 8 k)).toNat)).sum := by
  have h : ∀ xs : List Byte, ((xs.filter (fun s => freqAt f s != 0)).map (fun s => (freqAt f s).toNat)).sum =
      (xs.map (fun s => (freqAt f s).toNat)).sum := by
    intro xs
    induction xs with
    | nil => rfl
    | cons x xs ih =>
      by_cases hx : freqAt f x = 0
      · rw [List.filter_cons_of_neg (by simp [hx]), ih, List.map_cons, List.sum_cons, hx]
        simp
      · rw [List.filter_cons_of_pos (by simpa using hx), List.map_cons, List.sum_cons, ih, List.map_cons,
          List.sum_cons]
  unfold presentSymbols
  rw [h, List.map_map]
  rfl

theorem presentSymbols_nodup (f : Vector Word 256) : (presentSymbols f).Nodup := by
  unfold presentSymbols
  refine List.Nodup.filter _ ?_
  refine List.Nodup.map_on ?_ List.nodup_range
  intro a ha b hb h
  have := congrArg BitVec.toNat h
  simp only [List.mem_range] at ha hb
  simp only [BitVec.toNat_ofNat] at this
  omega

/-! ## One merge (41_tree_builder R159) -/

theorem Builder.nodeAt_append_lt {b b' : Builder} {n : Node} (hn : b'.nodes = b.nodes ++ [n]) (i : Nat)
    (h : i < b.nodes.length) : b'.nodeAt i = b.nodeAt i := by
  simp [Builder.nodeAt, hn, List.getElem?_append_left h]

theorem Builder.nodeAt_append_self {b b' : Builder} {n : Node} (hn : b'.nodes = b.nodes ++ [n]) :
    b'.nodeAt b.nodes.length = n := by
  simp [Builder.nodeAt, hn]

section Merge

variable {f : Vector Word 256} {b : Builder} {fs : List Grove}

theorem BuildInv.idx_lt (h : BuildInv f b fs) {g : Grove} (hg : g ∈ fs) {i : NodeIndex} (hi : i ∈ g.idxs) :
    i.toNat < b.nodes.length := by
  have : i.toNat ∈ (fs.flatMap Grove.idxs).map BitVec.toNat :=
    List.mem_map.2 ⟨i, List.mem_flatMap.2 ⟨g, hg, hi⟩, rfl⟩
  exact List.mem_range.1 (h.indices.mem_iff.1 this)

theorem BuildInv.key_lt (h : BuildInv f b fs) {x : QueueKey} (hx : x ∈ b.pq) : x.idx.toNat < b.nodes.length := by
  obtain ⟨g, hg, rfl⟩ := List.mem_map.1 (h.queue.mem_iff.1 hx)
  exact h.idx_lt hg (h.trees g hg).root_mem

theorem BuildInv.keyAt_eq (h : BuildInv f b fs) {x : QueueKey} (hx : x ∈ b.pq) : b.keyAt x.idx = x := by
  obtain ⟨g, hg, rfl⟩ := List.mem_map.1 (h.queue.mem_iff.1 hx)
  exact h.freqs g hg

theorem BuildInv.pos (h : BuildInv f b fs) {x : QueueKey} (hx : x ∈ b.pq) : 0 < x.freq.toNat := by
  obtain ⟨g, hg, rfl⟩ := List.mem_map.1 (h.queue.mem_iff.1 hx)
  exact h.positive g hg

/-- The keys in the queue are distinct. -/
theorem BuildInv.nodup (h : BuildInv f b fs) : b.pq.Nodup := by
  have h1 : ((fs.flatMap Grove.idxs).map BitVec.toNat).Nodup := h.indices.nodup_iff.2 List.nodup_range
  have h2 : (fs.flatMap Grove.idxs).Nodup := List.Nodup.of_map _ h1
  have h3 : ∀ gs : List Grove, (∀ g ∈ gs, g.key.idx ∈ g.idxs) → (gs.flatMap Grove.idxs).Nodup →
      (gs.map Grove.key).Nodup := by
    intro gs
    induction gs with
    | nil => simp
    | cons g gs ih =>
      intro hm hn
      rw [List.flatMap_cons, List.nodup_append] at hn
      rw [List.map_cons, List.nodup_cons]
      refine ⟨?_, ih (fun g' hg' => hm g' (by simp [hg'])) hn.2.1⟩
      intro hk
      obtain ⟨g', hg', he⟩ := List.mem_map.1 hk
      have hi : g'.key.idx ∈ gs.flatMap Grove.idxs := List.mem_flatMap.2 ⟨g', hg', hm g' (by simp [hg'])⟩
      rw [he] at hi
      exact hn.2.2 _ (hm g (by simp)) _ hi rfl
  exact h.queue.nodup_iff.2 (h3 fs (fun g hg => (h.trees g hg).root_mem) h2)

/-- The invariant does not depend on the order in which the subtrees are listed. -/
theorem BuildInv.perm (h : BuildInv f b fs) {gs : List Grove} (hp : fs.Perm gs) : BuildInv f b gs where
  queue := h.queue.trans (hp.map _)
  trees := fun g hg => h.trees g (hp.mem_iff.2 hg)
  freqs := fun g hg => h.freqs g (hp.mem_iff.2 hg)
  indices := ((hp.flatMap_right _).map _).symm.trans h.indices
  symbols := (hp.flatMap_right _).symm.trans h.symbols
  positive := fun g hg => h.positive g (hp.mem_iff.2 hg)
  total := (hp.map _).sum_eq.symm.trans h.total
  count := by rw [← hp.length_eq]; exact h.count
  weights := fun g hg => h.weights g (hp.mem_iff.2 hg)

/-- Taking a key out of the queue takes its subtree out of the list. -/
theorem exists_grove {q r : List QueueKey} {x : QueueKey} {gs : List Grove} (hq : q.Perm (gs.map Grove.key))
    (hx : q.Perm (x :: r)) : ∃ g gs', gs.Perm (g :: gs') ∧ g.key = x ∧ r.Perm (gs'.map Grove.key) := by
  have hm : x ∈ gs.map Grove.key := (hq.symm.trans hx).mem_iff.2 (by simp)
  obtain ⟨g, hg, rfl⟩ := List.mem_map.1 hm
  refine ⟨g, gs.erase g, List.perm_cons_erase hg, rfl, ?_⟩
  have := (hx.symm.trans hq).trans ((List.perm_cons_erase hg).map Grove.key)
  exact this.cons_inv

/-- With two keys or more a merge takes the two least, in order, and one key fewer remains. -/
theorem mergeStep_spec (h : BuildInv f b fs) (h2 : 2 ≤ fs.length) :
    ∃ gx gy gs, fs.Perm (gx :: gy :: gs) ∧ gx.key.before gy.key = true ∧
      (∀ g ∈ gs, gy.key.before g.key = true) ∧
      (mergeStep b).nodes = b.nodes ++ [Node.internal gx.key.idx gy.key.idx (gx.key.freq + gy.key.freq)] ∧
      (mergeStep b).pq.Perm ((gs.map Grove.key) ++
        [⟨gx.key.freq + gy.key.freq, BitVec.ofNat 9 b.nodes.length⟩]) := by
  have hlen : b.pq.length = fs.length := by simpa using h.queue.length_eq
  obtain ⟨x, q, hx⟩ := extractLeast_some b.pq (by omega)
  obtain ⟨hx1, hx2⟩ := extractLeast_spec hx
  have hlq : q.length + 1 = fs.length := by rw [← hlen, hx1.length_eq]; rfl
  obtain ⟨y, r, hy⟩ := extractLeast_some q (by omega)
  obtain ⟨hy1, hy2⟩ := extractLeast_spec hy
  have hnq : q.Nodup := (List.nodup_cons.1 (hx1.nodup_iff.1 h.nodup)).2
  obtain ⟨gx, gq, hgx, rfl, hq⟩ := exists_grove h.queue hx1
  obtain ⟨gy, gs, hgy, rfl, hr⟩ := exists_grove hq hy1
  refine ⟨gx, gy, gs, hgx.trans (hgy.cons gx), ?_, ?_, ?_, ?_⟩
  · exact hx2 h.nodup _ (hy1.mem_iff.2 (by simp))
  · intro g hg
    exact hy2 hnq _ (hr.mem_iff.2 (List.mem_map.2 ⟨g, hg, rfl⟩))
  · simp only [mergeStep, hx, hy]
  · simp only [mergeStep, hx, hy]
    exact hr.append_right _

/-- One merge keeps what holds of the queue and the trees. -/
theorem mergeStep_buildInv (h : BuildInv f b fs) (h2 : 2 ≤ fs.length) :
    ∃ gx gy gs g, fs.Perm (gx :: gy :: gs) ∧ gx.key.freq.toNat ≤ gy.key.freq.toNat ∧
      (∀ g ∈ gs, gy.key.freq.toNat ≤ g.key.freq.toNat) ∧ g.tree = .node gx.tree gy.tree ∧
      g.key.freq.toNat = gx.key.freq.toNat + gy.key.freq.toNat ∧ BuildInv f (mergeStep b) (gs ++ [g]) := by
  obtain ⟨gx, gy, gs, hp, hxy, hys, hn, hq⟩ := mergeStep_spec h h2
  have h' := h.perm hp
  have hlen := hp.length_eq
  simp only [List.length_cons] at hlen
  have hcap : b.nodes.length < 512 := by
    have := h.count
    have := presentSymbols_length_le f
    omega
  have hidx : (BitVec.ofNat 9 b.nodes.length).toNat = b.nodes.length := by
    rw [BitVec.toNat_ofNat]
    exact Nat.mod_eq_of_lt (by omega)
  have hsum : gx.key.freq.toNat + gy.key.freq.toNat < 2 ^ 40 := by
    have h3 := h'.total
    have h4 := total_lt f
    simp only [List.map_cons, List.sum_cons] at h3
    omega
  have hadd : (gx.key.freq + gy.key.freq).toNat = gx.key.freq.toNat + gy.key.freq.toNat := by
    rw [BitVec.toNat_add]
    exact Nat.mod_eq_of_lt hsum
  have hold : ∀ i, i < b.nodes.length → (mergeStep b).nodeAt i = b.nodeAt i :=
    fun i hi => Builder.nodeAt_append_lt hn i hi
  have hnew : (mergeStep b).nodeAt b.nodes.length =
      Node.internal gx.key.idx gy.key.idx (gx.key.freq + gy.key.freq) :=
    Builder.nodeAt_append_self hn
  have htree : ∀ g ∈ gx :: gy :: gs, Represents (mergeStep b).nodeAt g.key.idx g.tree g.idxs := by
    intro g hg
    exact (h'.trees g hg).congr (fun j hj => hold _ (h'.idx_lt hg hj))
  refine ⟨gx, gy, gs, ⟨⟨gx.key.freq + gy.key.freq, BitVec.ofNat 9 b.nodes.length⟩, .node gx.tree gy.tree,
    BitVec.ofNat 9 b.nodes.length :: (gx.idxs ++ gy.idxs)⟩, hp, QueueKey.freq_le_of_before hxy,
    fun g hg => QueueKey.freq_le_of_before (hys g hg), rfl, hadd, ?_⟩
  refine { queue := ?_, trees := ?_, freqs := ?_, indices := ?_, symbols := ?_, positive := ?_, total := ?_,
           count := ?_, weights := ?_ }
  · simpa using hq
  · intro g hg
    rcases List.mem_append.1 hg with hg | hg
    · exact htree g (by simp [hg])
    · obtain rfl := List.mem_singleton.1 hg
      refine .node _ _ _ _ _ ?_ ?_ ?_ <;> (dsimp only; rw [hidx, hnew])
      · rfl
      · exact htree gx (by simp)
      · exact htree gy (by simp)
  · intro g hg
    rcases List.mem_append.1 hg with hg | hg
    · have hlt := h'.idx_lt (g := g) (by simp [hg]) (h'.trees g (by simp [hg])).root_mem
      rw [← h'.freqs g (by simp [hg])]
      simp only [Builder.keyAt, hold _ hlt]
    · obtain rfl := List.mem_singleton.1 hg
      simp only [Builder.keyAt, hidx, hnew, Node.internal]
  · rw [hn, List.length_append, List.length_singleton, List.range_succ]
    simp only [List.flatMap_append, List.flatMap_singleton, List.map_append, List.map_cons, hidx]
    have h3 := h'.indices
    simp only [List.flatMap_cons, List.map_append] at h3
    refine List.Perm.trans ?_ (h3.append_right [b.nodes.length])
    rw [List.perm_iff_count]
    intro c
    simp only [List.count_append, List.count_cons, List.count_nil]
    omega
  · simp only [List.flatMap_append, List.flatMap_singleton, HTree.symbols]
    have h3 := h'.symbols
    simp only [List.flatMap_cons] at h3
    refine List.Perm.trans ?_ h3
    rw [List.perm_iff_count]
    intro c
    simp only [List.count_append]
    omega
  · intro g hg
    rcases List.mem_append.1 hg with hg | hg
    · exact h'.positive g (by simp [hg])
    · obtain rfl := List.mem_singleton.1 hg
      have := h'.positive gx (by simp)
      dsimp only
      omega
  · have h3 := h'.total
    simp only [List.map_cons, List.sum_cons] at h3
    simp only [List.map_append, List.map_cons, List.map_nil, List.sum_append, List.sum_cons, List.sum_nil]
    rw [← h3, hadd]
    omega
  · have h3 := h.count
    rw [hn]
    simp only [List.length_append, List.length_singleton]
    omega
  · intro g hg
    rcases List.mem_append.1 hg with hg | hg
    · exact h'.weights g (by simp [hg])
    · obtain rfl := List.mem_singleton.1 hg
      dsimp only
      rw [hadd, HTree.weight_node, h'.weights gx (by simp), h'.weights gy (by simp)]

/-- One merge keeps what holds of the order of merges. -/
theorem mergeStep_orderInv (h : BuildInv f b fs) (ho : OrderInv f b) (h2 : 2 ≤ fs.length) :
    OrderInv f (mergeStep b) := by
  obtain ⟨gx, gy, gs, hp, hxy, hys, hn, hq⟩ := mergeStep_spec h h2
  have h' := h.perm hp
  have hcap : b.nodes.length < 512 := by
    have h3 := h.count
    have h4 := presentSymbols_length_le f
    omega
  have hidx : (BitVec.ofNat 9 b.nodes.length).toNat = b.nodes.length := by
    rw [BitVec.toNat_ofNat]
    exact Nat.mod_eq_of_lt (by omega)
  have hsum : gx.key.freq.toNat + gy.key.freq.toNat < 2 ^ 40 := by
    have h3 := h'.total
    have h4 := total_lt f
    simp only [List.map_cons, List.sum_cons] at h3
    omega
  have hadd : (gx.key.freq + gy.key.freq).toNat = gx.key.freq.toNat + gy.key.freq.toNat := by
    rw [BitVec.toNat_add]
    exact Nat.mod_eq_of_lt hsum
  have hold : ∀ i, i < b.nodes.length → (mergeStep b).nodeAt i = b.nodeAt i :=
    fun i hi => Builder.nodeAt_append_lt hn i hi
  have hkey : ∀ i : NodeIndex, i.toNat < b.nodes.length → (mergeStep b).keyAt i = b.keyAt i := by
    intro i hi
    simp only [Builder.keyAt, hold _ hi]
  have hnew : (mergeStep b).nodeAt b.nodes.length =
      Node.internal gx.key.idx gy.key.idx (gx.key.freq + gy.key.freq) :=
    Builder.nodeAt_append_self hn
  have hx := h'.idx_lt (g := gx) (by simp) (h'.trees gx (by simp)).root_mem
  have hy := h'.idx_lt (g := gy) (by simp) (h'.trees gy (by simp)).root_mem
  have hkx : (mergeStep b).keyAt gx.key.idx = gx.key := (hkey _ hx).trans (h'.freqs gx (by simp))
  have hky : (mergeStep b).keyAt gy.key.idx = gy.key := (hkey _ hy).trans (h'.freqs gy (by simp))
  have hpx := h'.positive gx (by simp)
  have hlen : (mergeStep b).nodes.length = b.nodes.length + 1 := by simp [hn]
  have hmx : gx.key ∈ b.pq := h'.queue.mem_iff.2 (by simp)
  have hmy : gy.key ∈ b.pq := h'.queue.mem_iff.2 (by simp)
  have hright : ∀ k, (presentSymbols f).length ≤ k → k < b.nodes.length →
      (mergeStep b).keyAt ((mergeStep b).nodeAt k).right = b.keyAt (b.nodeAt k).right := by
    intro k hk1 hk2
    rw [hold k hk2]
    exact hkey _ (by have := (ho.merged k hk1 hk2).2.2.2.1; omega)
  have hyn : gy.key.before ⟨gx.key.freq + gy.key.freq, BitVec.ofNat 9 b.nodes.length⟩ = true := by
    rw [QueueKey.before_iff]
    left
    dsimp only
    omega
  refine { leaves := ?_, long := by rw [hlen]; have := ho.long; omega, merged := ?_, past := ?_, order := ?_ }
  · rw [hn, List.take_append_of_le_length ho.long]
    exact ho.leaves
  · intro k hk1 hk2
    rw [hlen] at hk2
    rcases Nat.lt_succ_iff_lt_or_eq.1 hk2 with hk | rfl
    · obtain ⟨m1, m2, m3, m4, m5, m6⟩ := ho.merged k hk1 hk
      rw [hold k hk, hold _ (m3.trans hk), hold _ (m4.trans hk), hkey _ (m3.trans hk), hkey _ (m4.trans hk)]
      exact ⟨m1, m2, m3, m4, m5, m6⟩
    · rw [hnew]
      refine ⟨rfl, rfl, hx, hy, ?_, ?_⟩
      · dsimp only [Node.internal]
        have e1 := congrArg QueueKey.freq hkx
        have e2 := congrArg QueueKey.freq hky
        simp only [Builder.keyAt] at e1 e2
        rw [e1, e2, hadd]
      · dsimp only [Node.internal]
        rw [hkx, hky]
        exact hxy
  · intro k hk1 hk2 x hxq
    rw [hlen] at hk2
    have hxq' := List.mem_append.1 (hq.mem_iff.1 hxq)
    rcases Nat.lt_succ_iff_lt_or_eq.1 hk2 with hk | rfl
    · rw [hright k hk1 hk]
      rcases hxq' with hm | hm
      · obtain ⟨g, hg, rfl⟩ := List.mem_map.1 hm
        exact ho.past k hk1 hk _ (h'.queue.mem_iff.2 (by simp; right; right; exact ⟨g, hg, rfl⟩))
      · obtain rfl := List.mem_singleton.1 hm
        exact QueueKey.before_trans (ho.past k hk1 hk _ hmy) hyn
    · rw [hnew]
      dsimp only [Node.internal]
      rw [hky]
      rcases hxq' with hm | hm
      · obtain ⟨g, hg, rfl⟩ := List.mem_map.1 hm
        exact hys g hg
      · obtain rfl := List.mem_singleton.1 hm
        exact hyn
  · intro j k hj hjk hk2
    rw [hlen] at hk2
    rcases Nat.lt_succ_iff_lt_or_eq.1 hk2 with hk | rfl
    · rw [hright j hj (by omega), hold k hk,
        hkey _ (by have := (ho.merged k (by omega) hk).2.2.1; omega)]
      exact ho.order j k hj hjk hk
    · rw [hright j hj hjk, hnew]
      dsimp only [Node.internal]
      rw [hkx]
      exact ho.past j hj hjk _ hmx

end Merge

/-! ## The whole build -/

/-- What holds before the first merge: one leaf per entry. -/
theorem builderStart_inv (f : Vector Word 256) :
    BuildInv f (builderStart f) ((presentSymbols f).zipIdx.map (fun p =>
      ⟨⟨(freqAt f p.1).setWidth 40, BitVec.ofNat 9 p.2⟩, .leaf p.1, [BitVec.ofNat 9 p.2]⟩)) ∧
    OrderInv f (builderStart f) := by
  have hlen : (builderStart f).nodes.length = (presentSymbols f).length := by simp [builderStart]
  have hcap := presentSymbols_length_le f
  have hmem : ∀ p ∈ (presentSymbols f).zipIdx, p.2 < (presentSymbols f).length ∧
      (presentSymbols f)[p.2]? = some p.1 := by
    intro p hp
    have := List.mem_zipIdx_iff_getElem?.1 hp
    exact ⟨(List.getElem?_eq_some_iff.1 this).1, this⟩
  have hnode : ∀ p ∈ (presentSymbols f).zipIdx,
      (builderStart f).nodeAt (BitVec.ofNat 9 p.2).toNat = Node.leaf p.1 ((freqAt f p.1).setWidth 40) := by
    intro p hp
    obtain ⟨h1, h2⟩ := hmem p hp
    rw [BitVec.toNat_ofNat, Nat.mod_eq_of_lt (by omega)]
    simp [Builder.nodeAt, builderStart, h2]
  have hfreq : ∀ x : Byte, ((freqAt f x).setWidth 40).toNat = (freqAt f x).toNat := by
    intro x
    rw [BitVec.toNat_setWidth]
    exact Nat.mod_eq_of_lt (by have := (freqAt f x).isLt; omega)
  constructor
  · refine { queue := ?_, trees := ?_, freqs := ?_, indices := ?_, symbols := ?_, positive := ?_, total := ?_,
             count := ?_, weights := ?_ }
    · simp only [builderStart, List.map_map]
      exact List.Perm.refl _
    · intro g hg
      obtain ⟨p, hp, rfl⟩ := List.mem_map.1 hg
      refine .leaf _ _ ?_ ?_ <;> (dsimp only; rw [hnode p hp]; rfl)
    · intro g hg
      obtain ⟨p, hp, rfl⟩ := List.mem_map.1 hg
      dsimp only [Builder.keyAt]
      rw [hnode p hp]
      rfl
    · rw [hlen, List.flatMap_map]
      have : (presentSymbols f).zipIdx.flatMap (fun p => [BitVec.ofNat 9 p.2]) =
          (presentSymbols f).zipIdx.map (fun p => (BitVec.ofNat 9 p.2 : NodeIndex)) := by
        rw [List.flatMap_def]
        induction (presentSymbols f).zipIdx with
        | nil => rfl
        | cons a l ih => simp [ih]
      rw [this, List.map_map]
      have h2 : (presentSymbols f).zipIdx.map (BitVec.toNat ∘ fun p => (BitVec.ofNat 9 p.2 : NodeIndex)) =
          (presentSymbols f).zipIdx.map Prod.snd := by
        apply List.map_congr_left
        intro p hp
        obtain ⟨h1, -⟩ := hmem p hp
        simp only [Function.comp_apply, BitVec.toNat_ofNat]
        exact Nat.mod_eq_of_lt (by omega)
      rw [h2, List.zipIdx_map_snd, List.range_eq_range']
    · rw [List.flatMap_map]
      have : (presentSymbols f).zipIdx.flatMap (fun p => (HTree.leaf p.1).symbols) =
          (presentSymbols f).zipIdx.map Prod.fst := by
        rw [List.flatMap_def]
        induction (presentSymbols f).zipIdx with
        | nil => rfl
        | cons a l ih => rw [List.map_cons, List.flatten_cons, ih]; rfl
      rw [this, List.zipIdx_map_fst]
    · intro g hg
      obtain ⟨p, hp, rfl⟩ := List.mem_map.1 hg
      dsimp only
      rw [hfreq]
      have h1 := (mem_presentSymbols f p.1).1 (List.mem_of_getElem? (hmem p hp).2)
      have h2 : (freqAt f p.1).toNat ≠ 0 := fun h => h1 (BitVec.eq_of_toNat_eq h)
      omega
    · rw [List.map_map]
      simp only [Function.comp_def, hfreq]
      rw [show (fun p : Byte × Nat => (freqAt f p.1).toNat) = (fun s => (freqAt f s).toNat) ∘ Prod.fst from rfl,
        ← List.map_map, List.zipIdx_map_fst]
    · rw [hlen]
      simp
      omega
    · intro g hg
      obtain ⟨p, hp, rfl⟩ := List.mem_map.1 hg
      simp [HTree.weight, HTree.symbols, hfreq]
  · refine { leaves := ?_, long := by omega, merged := ?_, past := ?_, order := ?_ }
    · rw [← hlen, List.take_length]
    · intros
      omega
    · intros
      omega
    · intros
      omega

/-- Merging on until one key is left keeps both invariants, and the tree it ends with costs no more than what the
subtrees cost already and any full tree over their weights would add. -/
theorem mergeLoop_inv {f : Vector Word 256} (k : Nat) (b : Builder) (fs : List Grove) (h : BuildInv f b fs)
    (ho : OrderInv f b) (hk : fs.length = k + 1) :
    ∃ g, BuildInv f (mergeLoop k b) [g] ∧ OrderInv f (mergeLoop k b) ∧
      ∀ ds, ds.length = fs.length → kraft ds = 1 →
        g.tree.cost (fun x => (freqAt f x).toNat) ≤
          (fs.map (fun g => g.tree.cost (fun x => (freqAt f x).toNat))).sum +
            dot (fs.map (fun g => g.key.freq.toNat)) ds := by
  induction k generalizing b fs with
  | zero =>
    obtain ⟨g, rfl⟩ := List.length_eq_one_iff.1 hk
    exact ⟨g, h, ho, fun ds _ _ => by simp⟩
  | succ k ih =>
    obtain ⟨gx, gy, gs, g, hp, hxy, hys, ht, hf, hb⟩ := mergeStep_buildInv h (by omega)
    have hlen : gs.length = k := by
      have := hp.length_eq
      simp only [List.length_cons] at this
      omega
    obtain ⟨gz, h1, h2, h3⟩ := ih (mergeStep b) (gs ++ [g]) hb (mergeStep_orderInv h ho (by omega)) (by simp [hlen])
    refine ⟨gz, h1, h2, ?_⟩
    intro ds hl hkr
    obtain ⟨ds', p1, c1⟩ := exists_perm_dot (hp.map (fun g => g.key.freq.toNat)) ds (by simpa using hl)
    obtain ⟨m, ds2, l2, k2, c2⟩ := exists_merged_depths gx.key.freq.toNat gy.key.freq.toNat
      (gs.map (fun g => g.key.freq.toNat)) ds' (by simp [p1.length_eq, hl, hk, hlen]) hxy
      (by
        intro u hu
        obtain ⟨g', hg', rfl⟩ := List.mem_map.1 hu
        exact hys g' hg') ((kraft_perm p1).trans hkr)
    have h4 := h3 (ds2 ++ [m]) (by simpa using l2) (by
      have h0 : kraft ([] : List Nat) = 0 := rfl
      rw [kraft_cons] at k2
      rw [kraft_append, kraft_cons, h0]
      linarith)
    have h5 := (hp.map (fun g => g.tree.cost (fun x => (freqAt f x).toNat))).sum_eq
    rw [h5, ← c1]
    simp only [List.map_append, List.map_cons, List.map_nil, List.sum_append, List.sum_cons, List.sum_nil] at h4 ⊢
    rw [dot_append _ _ _ _ (by simpa using l2.symm), ht, HTree.cost_node,
      ← h.weights gx (hp.mem_iff.2 (by simp)), ← h.weights gy (hp.mem_iff.2 (by simp)), hf] at h4
    simp only [dot_cons, dot_nil_left, Nat.add_zero] at h4 c2
    have h6 : (gx.key.freq.toNat + gy.key.freq.toNat) * m = m * (gx.key.freq.toNat + gy.key.freq.toNat) :=
      Nat.mul_comm _ _
    omega

/-- The build ends with one tree that takes up the whole store (41_tree_builder R160), and no full tree with the same
leaves costs less (R163). -/
theorem buildTree_inv (f : Vector Word 256) (h : presentSymbols f ≠ []) :
    ∃ g, BuildInv f (buildTree f) [g] ∧ OrderInv f (buildTree f) ∧
      ∀ t : HTree, t.symbols.Perm (presentSymbols f) →
        g.tree.cost (fun x => (freqAt f x).toNat) ≤ t.cost (fun x => (freqAt f x).toNat) := by
  obtain ⟨h1, h2⟩ := builderStart_inv f
  have hp := List.length_pos_iff.2 h
  obtain ⟨g, i1, i2, i3⟩ := mergeLoop_inv ((builderStart f).pq.length - 1) _ _ h1 h2 (by
    simp only [builderStart, List.length_map, List.length_zipIdx]
    omega)
  refine ⟨g, i1, i2, ?_⟩
  intro t ht
  have hfreq : ∀ x : Byte, ((freqAt f x).setWidth 40).toNat = (freqAt f x).toNat := by
    intro x
    rw [BitVec.toNat_setWidth]
    exact Nat.mod_eq_of_lt (by have := (freqAt f x).isLt; omega)
  have hsum : ∀ zs : List (Byte × Nat), (zs.map (fun p => (HTree.leaf p.1).cost (fun x => (freqAt f x).toNat))).sum = 0 := by
    intro zs
    induction zs with
    | nil => rfl
    | cons z zs ih => simp [HTree.cost, HTree.paths]
  obtain ⟨ds', p1, c1⟩ := exists_perm_dot (ht.map (fun x => (freqAt f x).toNat))
    (t.paths.map (fun e => e.2.length)) (by rw [← HTree.paths_symbols]; simp)
  have h3 := i3 ds' (by rw [p1.length_eq, List.length_map, List.length_map, List.length_zipIdx, ← ht.length_eq,
    ← HTree.paths_symbols, List.length_map]) ((kraft_perm p1).trans t.kraft_paths)
  simp only [List.map_map, Function.comp_def, hfreq, hsum] at h3
  have h4 : (presentSymbols f).zipIdx.map (fun p => (freqAt f p.1).toNat) =
      (presentSymbols f).map (fun x => (freqAt f x).toNat) := by
    rw [show (fun p : Byte × Nat => (freqAt f p.1).toNat) = (fun s => (freqAt f s).toNat) ∘ Prod.fst from rfl,
      ← List.map_map, List.zipIdx_map_fst]
  have h5 : dot (t.symbols.map (fun x => (freqAt f x).toNat)) (t.paths.map (fun e => e.2.length)) =
      t.cost (fun x => (freqAt f x).toNat) := by
    unfold HTree.cost
    rw [← HTree.paths_symbols]
    induction t.paths with
    | nil => rfl
    | cons e es ih => simp only [List.map_cons, dot_cons, List.sum_cons, ih]
  rw [h4, c1, h5] at h3
  simpa using h3

/-- In a built store every node below an index has a lower index than it (41_tree_builder R160). -/
theorem OrderInv.descendants_le {f : Vector Word 256} {b : Builder} (h : OrderInv f b) {i : NodeIndex} {t : HTree}
    {is : List NodeIndex} (hr : Represents b.nodeAt i t is) (hi : i.toNat < b.nodes.length) :
    ∀ j ∈ is, j.toNat ≤ i.toNat := by
  induction hr with
  | leaf =>
    intro j hj
    rw [List.mem_singleton.1 hj]
  | node i l r li ri hn hl hr ihl ihr =>
    intro j hj
    have hge : (presentSymbols f).length ≤ i.toNat := by
      by_contra hc
      have he : b.nodeAt i.toNat = (builderStart f).nodeAt i.toNat := by
        unfold Builder.nodeAt
        rw [← h.leaves, List.getElem?_take, if_pos (by omega)]
      have h9 : i.toNat < (presentSymbols f).length := by omega
      rw [he] at hn
      simp [Builder.nodeAt, builderStart, h9, Node.leaf] at hn
    obtain ⟨-, -, m3, m4, -⟩ := h.merged i.toNat hge hi
    rcases List.mem_cons.1 hj with rfl | hj
    · omega
    · rcases List.mem_append.1 hj with hj | hj
      · have := ihl (by omega) j hj
        omega
      · have := ihr (by omega) j hj
        omega

/-- A state that takes over a built store holds a tree whose leaves are the entries and than which no full tree with
the same leaves costs less; it has `2n - 1` nodes, and its root is the last node and weighs the total of the
counts. -/
theorem buildTree_holdsTree {f : Vector Word 256} (hp : presentSymbols f ≠ []) (u : State)
    (h1 : u.nodes = (buildTree f).nodes) (h2 : u.root = (buildTree f).root)
    (h3 : u.nodeCount = BitVec.ofNat 10 (buildTree f).nodes.length) :
    (∃ t, HoldsTree u t ∧ t.symbols.Perm (presentSymbols f) ∧
      ∀ t' : HTree, t'.symbols.Perm (presentSymbols f) →
        t.cost (fun x => (freqAt f x).toNat) ≤ t'.cost (fun x => (freqAt f x).toNat)) ∧
    u.nodes.length + 1 = 2 * (presentSymbols f).length ∧
    u.root.toNat + 1 = u.nodes.length ∧ (u.node u.root.toNat).freq.toNat =
      ((List.range 256).map (fun k => (freqAt f (BitVec.ofNat 8 k)).toNat)).sum := by
  obtain ⟨g, hb, ho, hopt⟩ := buildTree_inv f hp
  have hle := presentSymbols_length_le f
  have hlen : (buildTree f).nodes.length + 1 = 2 * (presentSymbols f).length := by simpa using hb.count
  have hq : (buildTree f).pq = [g.key] := by simpa using hb.queue
  have hr : (buildTree f).root = g.key.idx := by simp [Builder.root, hq]
  have hroot : g.key.idx.toNat < (buildTree f).nodes.length :=
    hb.idx_lt (g := g) (by simp) (hb.trees g (by simp)).root_mem
  have hcc : u.nodeCount.toNat = (buildTree f).nodes.length := by
    rw [h3, BitVec.toNat_ofNat]
    exact Nat.mod_eq_of_lt (by omega)
  have hnode : ∀ i, i < (buildTree f).nodes.length → u.node i = (buildTree f).nodeAt i := by
    intro i hi
    simp [State.node, Builder.nodeAt, h1, hi]
  have hperm := hb.indices
  simp only [List.flatMap_cons, List.flatMap_nil, List.append_nil] at hperm
  have hsym : g.tree.symbols.Perm (presentSymbols f) := by
    have := hb.symbols
    simpa only [List.flatMap_cons, List.flatMap_nil, List.append_nil] using this
  refine ⟨⟨g.tree, ⟨by rw [h1, hcc], g.idxs, ?_, ?_, ?_, hsym.nodup_iff.2 (presentSymbols_nodup f)⟩, hsym, hopt⟩,
    ?_, ?_, ?_⟩
  · rw [h2, hr]
    exact (hb.trees g (by simp)).congr (fun j hj => hnode _ (hb.idx_lt (g := g) (by simp) hj))
  · exact List.Nodup.of_map _ (hperm.nodup_iff.2 List.nodup_range)
  · intro i
    rw [hcc, ← List.mem_range, ← hperm.mem_iff]
    constructor
    · exact fun h => List.mem_map.2 ⟨i, h, rfl⟩
    · intro h
      obtain ⟨j, hj, e⟩ := List.mem_map.1 h
      rwa [← BitVec.eq_of_toNat_eq e]
  · rw [h1]
    exact hlen
  · rw [h2, hr, h1]
    have hlast : (buildTree f).nodes.length - 1 ∈ g.idxs.map BitVec.toNat :=
      hperm.mem_iff.2 (List.mem_range.2 (by omega))
    obtain ⟨j, hj, e⟩ := List.mem_map.1 hlast
    have := ho.descendants_le (hb.trees g (by simp)) hroot j hj
    omega
  · rw [h2, hr, hnode _ hroot, ← total_eq, ← hb.total]
    have := congrArg QueueKey.freq (hb.freqs g (by simp))
    simp only [Builder.keyAt] at this
    simp [this]

end Sys2Proof.Machine
end

