-- ==== Sys2Proof/Laws/Encoding.lean ====
section
/-! SUPPORT. The fields of a command word: each bit of a word put together from its three fields, and the
fields read back (30_encoding R100). -/

namespace Sys2Proof

/-- Which field each bit of a command word comes from. -/
theorem word_getLsbD (r : BitVec 16) (x y : Byte) (i : Nat) :
    BitVec.getLsbD (w := 32) (r ++ x ++ y) i =
      if i < 8 then y.getLsbD i else if i < 16 then x.getLsbD (i - 8) else r.getLsbD (i - 16) := by
  have h1 := BitVec.getLsbD_append (n := 24) (m := 8) (x := r ++ x) (y := y) (i := i)
  have h2 := BitVec.getLsbD_append (n := 16) (m := 8) (x := r) (y := x) (i := i - 8)
  refine h1.trans ?_
  split_ifs
  · rfl
  · exact h2.trans (by rw [if_pos (by omega)])
  · exact h2.trans (by rw [if_neg (by omega)]; congr 1)

theorem opcOf_fields (r : BitVec 16) (x y : Byte) : opcOf (r ++ x ++ y) = y := by
  unfold opcOf
  ext i hi
  rw [BitVec.getElem_extractLsb', word_getLsbD, if_pos (by omega)]
  simp [BitVec.getLsbD_eq_getElem, hi]

theorem immOf_fields (r : BitVec 16) (x y : Byte) : immOf (r ++ x ++ y) = x := by
  unfold immOf
  ext i hi
  rw [BitVec.getElem_extractLsb', word_getLsbD, if_neg (by omega), if_pos (by omega)]
  simp [BitVec.getLsbD_eq_getElem, hi]

theorem rsvOf_fields (r : BitVec 16) (x y : Byte) : rsvOf (r ++ x ++ y) = r := by
  unfold rsvOf
  ext i hi
  rw [BitVec.getElem_extractLsb', word_getLsbD, if_neg (by omega), if_neg (by omega)]
  simp [BitVec.getLsbD_eq_getElem, hi]

@[simp] theorem opcOf_encode (i : Instr) : opcOf (encode i) = i.opcode := opcOf_fields _ _ _

@[simp] theorem immOf_encode (i : Instr) : immOf (encode i) = i.immediate := immOf_fields _ _ _

@[simp] theorem rsvOf_encode (i : Instr) : rsvOf (encode i) = 0 := rsvOf_fields _ _ _

/-- A word is its three fields put together. -/
theorem word_eq_fields (w : Word) : rsvOf w ++ immOf w ++ opcOf w = w := by
  apply BitVec.eq_of_getLsbD_eq
  intro i hi
  refine (word_getLsbD (rsvOf w) (immOf w) (opcOf w) i).trans ?_
  unfold rsvOf immOf opcOf
  split_ifs with c1 c2
  · simp [c1]
  · rw [BitVec.getLsbD_extractLsb', show 8 + (i - 8) = i by omega]
    simp
    omega
  · rw [BitVec.getLsbD_extractLsb', show 16 + (i - 16) = i by omega]
    simp
    omega

/-- The fields WellFormed reads are the fields the decoder reads. -/
theorem CmdFields.ofWord_eq (w : Word) : CmdFields.ofWord w = ⟨opcOf w, immOf w, rsvOf w⟩ := rfl

end Sys2Proof
end

