-- ==== Sys2Proof/Laws/Memory.lean ====
section
/-! SUPPORT. DMEM: a read after a write, what a write leaves alone, and the canonical form, for bytes
(20_memory R62) and bits (R64, R65). -/

namespace Sys2Proof.Machine

/-! ## Bytes -/

theorem Memory.lookup_write (m : List Host.Cell) (a : Nat) (v : Byte) (b : Nat) :
    Memory.lookup (Memory.write m a v) b = if b = a then some v else Memory.lookup m b := by
  induction m with
  | nil =>
    by_cases h : a = b
    · simp [Memory.write, Memory.lookup, h]
    · simp [Memory.write, Memory.lookup, h, Ne.symm h]
  | cons c m ih =>
    unfold Memory.write
    by_cases h1 : c.1 < a
    · rw [if_pos h1]
      by_cases h2 : c.1 = b
      · have h3 : ¬ b = a := by omega
        simp [Memory.lookup, h2, h3]
      · simp [Memory.lookup, h2, ih]
    · rw [if_neg h1]
      by_cases h2 : c.1 = a
      · rw [if_pos h2]
        by_cases h3 : a = b
        · simp [Memory.lookup, h3]
        · simp [Memory.lookup, h2, h3, Ne.symm h3]
      · rw [if_neg h2]
        by_cases h3 : a = b
        · simp [Memory.lookup, h3]
        · simp [Memory.lookup, h3, Ne.symm h3]

@[simp] theorem Memory.read_write (e : Nat) (m : List Host.Cell) (a : Nat) (v : Byte) (b : Nat) :
    Memory.read e (Memory.write m a v) b = if b = a then v else Memory.read e m b := by
  unfold Memory.read
  rw [Memory.lookup_write]
  split_ifs <;> rfl

/-- Writing consecutive bytes: the bytes of the region read as written, every other address as before. -/
theorem Memory.read_writeBytes (e : Nat) (vs : List Byte) (m : List Host.Cell) (a b : Nat) :
    Memory.read e (Memory.writeBytes m a vs) b =
      if a ≤ b then (vs[b - a]?).getD (Memory.read e m b) else Memory.read e m b := by
  induction vs generalizing m a with
  | nil => simp [Memory.writeBytes]
  | cons v vs ih =>
    simp only [Memory.writeBytes, ih, Memory.read_write]
    by_cases h : b = a
    · subst h; simp
    · by_cases h2 : a ≤ b
      · have h3 : b - a = (b - (a + 1)) + 1 := by omega
        have h4 : a + 1 ≤ b := by omega
        simp [h, h2, h3, h4]
      · have h4 : ¬ a + 1 ≤ b := by omega
        simp [h, h2, h4]

@[simp] theorem Memory.readBytes_length (e : Nat) (m : List Host.Cell) (a n : Nat) :
    (Memory.readBytes e m a n).length = n := by
  induction n generalizing a with
  | zero => rfl
  | succ n ih => simp [Memory.readBytes, ih]

theorem Memory.readBytes_getElem (e : Nat) (m : List Host.Cell) (a n j : Nat)
    (h : j < (Memory.readBytes e m a n).length) :
    (Memory.readBytes e m a n)[j] = Memory.read e m (a + j) := by
  induction n generalizing a j with
  | zero => simp [Memory.readBytes] at h
  | succ n ih =>
    cases j with
    | zero => rfl
    | succ j =>
      simp only [Memory.readBytes, List.getElem_cons_succ]
      rw [ih]
      congr 1
      omega

/-! ## Bits -/

theorem setBit_getLsbD (x : Byte) (i : Nat) (v : Bool) (k : Nat) (hk : k < 8) :
    (setBit x i v).getLsbD k = if k = i then v else x.getLsbD k := by
  unfold setBit
  by_cases h : k = i
  · subst h
    cases v <;> simp [hk]
  · cases v <;> simp [hk, h] <;> omega

@[simp] theorem Memory.bitRead_bitWrite (e : Nat) (m : List Host.Cell) (b : Nat) (v : Bool) (c : Nat) :
    Memory.bitRead e (Memory.bitWrite e m b v) c = if c = b then v else Memory.bitRead e m c := by
  unfold Memory.bitRead Memory.bitWrite
  rw [Memory.read_write]
  by_cases hd : c / 8 = b / 8
  · rw [if_pos hd, setBit_getLsbD _ _ _ _ (by omega)]
    by_cases h : c = b
    · subst h; simp
    · have : ¬ 7 - c % 8 = 7 - b % 8 := by omega
      simp [h, this, hd]
  · have h : ¬ c = b := by rintro rfl; exact hd rfl
    simp [hd, h]

/-- 20_memory R65: the bits of the region read as written, every other bit as before. -/
theorem Memory.bitRead_writeBits (e : Nat) (p : Bits) (m : List Host.Cell) (b c : Nat) :
    Memory.bitRead e (Memory.writeBits e m b p) c =
      if b ≤ c then (p[c - b]?).getD (Memory.bitRead e m c) else Memory.bitRead e m c := by
  induction p generalizing m b with
  | nil => simp [Memory.writeBits]
  | cons v p ih =>
    simp only [Memory.writeBits, ih, Memory.bitRead_bitWrite]
    by_cases h : c = b
    · subst h; simp
    · by_cases h2 : b ≤ c
      · have h3 : c - b = (c - (b + 1)) + 1 := by omega
        have h4 : b + 1 ≤ c := by omega
        simp [h, h2, h3, h4]
      · have h4 : ¬ b + 1 ≤ c := by omega
        simp [h, h2, h4]

/-- A byte that holds no bit of the region written reads as before. -/
theorem Memory.read_writeBits_outside (e : Nat) (p : Bits) (m : List Host.Cell) (b a : Nat)
    (h : ∀ j, j < p.length → (b + j) / 8 ≠ a) :
    Memory.read e (Memory.writeBits e m b p) a = Memory.read e m a := by
  induction p generalizing m b with
  | nil => rfl
  | cons v p ih =>
    rw [Memory.writeBits, ih]
    · have h0 := h 0 (by simp)
      simp only [Memory.bitWrite, Memory.read_write]
      rw [if_neg (by simpa [eq_comm] using h0)]
    · intro j hj
      have := h (j + 1) (by simpa using hj)
      rwa [show b + (j + 1) = b + 1 + j by omega] at this

@[simp] theorem Memory.readBits_length (e : Nat) (m : List Host.Cell) (b n : Nat) :
    (Memory.readBits e m b n).length = n := by
  induction n generalizing b with
  | zero => rfl
  | succ n ih => simp [Memory.readBits, ih]

theorem Memory.readBits_getElem (e : Nat) (m : List Host.Cell) (b n j : Nat)
    (h : j < (Memory.readBits e m b n).length) :
    (Memory.readBits e m b n)[j] = Memory.bitRead e m (b + j) := by
  induction n generalizing b j with
  | zero => simp [Memory.readBits] at h
  | succ n ih =>
    cases j with
    | zero => rfl
    | succ j =>
      simp only [Memory.readBits, List.getElem_cons_succ]
      rw [ih]
      congr 1
      omega

/-- Reading back the bits just written gives them. -/
theorem Memory.readBits_writeBits (e : Nat) (m : List Host.Cell) (b : Nat) (p : Bits) :
    Memory.readBits e (Memory.writeBits e m b p) b p.length = p := by
  apply List.ext_getElem
  · simp
  · intro j h1 h2
    rw [Memory.readBits_getElem, Memory.bitRead_writeBits]
    simp [h2]

/-! ## The canonical form -/

theorem Memory.wf_iff (m : List Host.Cell) :
    Memory.wf m = true ↔ (m.map (fun c => c.1)).Pairwise (fun a b => a < b) := by simp [Memory.wf]

theorem Memory.within_iff (n : Nat) (m : List Host.Cell) :
    Memory.within n m = true ↔ ∀ c ∈ m, c.1 < n := by simp [Memory.within]

theorem Memory.mem_write (m : List Host.Cell) (a : Nat) (v : Byte) (c : Host.Cell)
    (h : c ∈ Memory.write m a v) : c = (a, v) ∨ c ∈ m := by
  induction m with
  | nil => simpa [Memory.write] using h
  | cons d m ih =>
    unfold Memory.write at h
    split_ifs at h with h1 h2
    · rcases List.mem_cons.1 h with rfl | h
      · simp
      · rcases ih h with rfl | h <;> simp_all
    · rcases List.mem_cons.1 h with rfl | h <;> simp_all
    · rcases List.mem_cons.1 h with rfl | h <;> simp_all

theorem Memory.wf_write (m : List Host.Cell) (a : Nat) (v : Byte) (h : Memory.wf m = true) :
    Memory.wf (Memory.write m a v) = true := by
  rw [Memory.wf_iff] at *
  induction m with
  | nil => simp [Memory.write]
  | cons c m ih =>
    simp only [List.map_cons, List.pairwise_cons, List.mem_map, forall_exists_index, and_imp,
      forall_apply_eq_imp_iff₂] at h
    unfold Memory.write
    split_ifs with h1 h2
    · simp only [List.map_cons, List.pairwise_cons, List.mem_map, forall_exists_index, and_imp,
        forall_apply_eq_imp_iff₂]
      refine ⟨?_, ih h.2⟩
      intro d hd
      rcases Memory.mem_write m a v d hd with rfl | hd
      · exact h1
      · exact h.1 d hd
    · subst h2
      simpa using h
    · simp only [List.map_cons, List.pairwise_cons, List.mem_cons, List.mem_map, forall_eq_or_imp,
        forall_exists_index, and_imp, forall_apply_eq_imp_iff₂]
      have hc : a < c.1 := by omega
      exact ⟨⟨hc, fun d hd => lt_trans hc (h.1 d hd)⟩, h⟩

theorem Memory.within_write (n : Nat) (m : List Host.Cell) (a : Nat) (v : Byte) (ha : a < n)
    (h : Memory.within n m = true) : Memory.within n (Memory.write m a v) = true := by
  rw [Memory.within_iff] at *
  intro c hc
  rcases Memory.mem_write m a v c hc with rfl | hc
  · exact ha
  · exact h c hc

theorem Memory.wf_writeBytes (m : List Host.Cell) (a : Nat) (vs : List Byte) (h : Memory.wf m = true) :
    Memory.wf (Memory.writeBytes m a vs) = true := by
  induction vs generalizing m a with
  | nil => exact h
  | cons v vs ih => exact ih _ _ (Memory.wf_write m a v h)

theorem Memory.within_writeBytes (n : Nat) (m : List Host.Cell) (a : Nat) (vs : List Byte)
    (ha : a + vs.length ≤ n) (h : Memory.within n m = true) :
    Memory.within n (Memory.writeBytes m a vs) = true := by
  induction vs generalizing m a with
  | nil => exact h
  | cons v vs ih =>
    simp only [List.length_cons] at ha
    exact ih _ _ (by omega) (Memory.within_write n m a v (by omega) h)

theorem Memory.wf_bitWrite (e : Nat) (m : List Host.Cell) (b : Nat) (v : Bool) (h : Memory.wf m = true) :
    Memory.wf (Memory.bitWrite e m b v) = true := Memory.wf_write _ _ _ h

theorem Memory.wf_writeBits (e : Nat) (m : List Host.Cell) (b : Nat) (p : Bits) (h : Memory.wf m = true) :
    Memory.wf (Memory.writeBits e m b p) = true := by
  induction p generalizing m b with
  | nil => exact h
  | cons v p ih => exact ih _ _ (Memory.wf_bitWrite e m b v h)

theorem Memory.within_writeBits (e n : Nat) (m : List Host.Cell) (b : Nat) (p : Bits)
    (hb : b + p.length ≤ 8 * n) (h : Memory.within n m = true) :
    Memory.within n (Memory.writeBits e m b p) = true := by
  induction p generalizing m b with
  | nil => exact h
  | cons v p ih =>
    simp only [List.length_cons] at hb
    exact ih _ _ (by omega) (Memory.within_write n m (b / 8) _ (by omega) h)

end Sys2Proof.Machine
end

