-- ==== Sys2Proof/Laws/State.lean ====
section
/-! SUPPORT. What each named update of the state does to each field, and to the views of the state that an
instruction reads. -/

namespace Sys2Proof.Machine

section Updates

variable (s : State)

/-! ### setQ0 -/

@[simp] theorem State.setQ0_pending (v : Word) : (s.setQ0 v).pending = s.pending := rfl
@[simp] theorem State.setQ0_err (v : Word) : (s.setQ0 v).err = s.err := rfl
@[simp] theorem State.setQ0_errCode (v : Word) : (s.setQ0 v).errCode = s.errCode := rfl
@[simp] theorem State.setQ0_treeValid (v : Word) : (s.setQ0 v).treeValid = s.treeValid := rfl
@[simp] theorem State.setQ0_overrun (v : Word) : (s.setQ0 v).overrun = s.overrun := rfl
@[simp] theorem State.setQ0_errInfo (v : Word) : (s.setQ0 v).errInfo = s.errInfo := rfl
@[simp] theorem State.setQ0_a0 (v : Word) : (s.setQ0 v).a0 = s.a0 := rfl
@[simp] theorem State.setQ0_a1 (v : Word) : (s.setQ0 v).a1 = s.a1 := rfl
@[simp] theorem State.setQ0_a2 (v : Word) : (s.setQ0 v).a2 = s.a2 := rfl
@[simp] theorem State.setQ0_a3 (v : Word) : (s.setQ0 v).a3 = s.a3 := rfl
@[simp] theorem State.setQ0_q0 (v : Word) : (s.setQ0 v).q0 = v := rfl
@[simp] theorem State.setQ0_q1 (v : Word) : (s.setQ0 v).q1 = s.q1 := rfl
@[simp] theorem State.setQ0_q2 (v : Word) : (s.setQ0 v).q2 = s.q2 := rfl
@[simp] theorem State.setQ0_cursor (v : Word) : (s.setQ0 v).cursor = s.cursor := rfl
@[simp] theorem State.setQ0_root (v : Word) : (s.setQ0 v).root = s.root := rfl
@[simp] theorem State.setQ0_nodeCount (v : Word) : (s.setQ0 v).nodeCount = s.nodeCount := rfl
@[simp] theorem State.setQ0_freq (v : Word) : (s.setQ0 v).freq = s.freq := rfl
@[simp] theorem State.setQ0_nodes (v : Word) : (s.setQ0 v).nodes = s.nodes := rfl
@[simp] theorem State.setQ0_pq (v : Word) : (s.setQ0 v).pq = s.pq := rfl
@[simp] theorem State.setQ0_codes (v : Word) : (s.setQ0 v).codes = s.codes := rfl
@[simp] theorem State.setQ0_dmem (v : Word) : (s.setQ0 v).dmem = s.dmem := rfl
@[simp] theorem State.setQ0_dmemTop (v : Word) : (s.setQ0 v).dmemTop = s.dmemTop := rfl
@[simp] theorem State.setQ0_dmemBytes (v : Word) : (s.setQ0 v).dmemBytes = s.dmemBytes := rfl
@[simp] theorem State.setQ0_dmemEpoch (v : Word) : (s.setQ0 v).dmemEpoch = s.dmemEpoch := rfl
@[simp] theorem State.setQ0_storeEpoch (v : Word) : (s.setQ0 v).storeEpoch = s.storeEpoch := rfl
@[simp] theorem State.setQ0_draws (v : Word) : (s.setQ0 v).draws = s.draws := rfl
@[simp] theorem State.setQ0_script (v : Word) : (s.setQ0 v).script = s.script := rfl
@[simp] theorem State.setQ0_seen (v : Word) : (s.setQ0 v).seen = s.seen := rfl
@[simp] theorem State.setQ0_node (v : Word) (i : Nat) : (s.setQ0 v).node i = s.node i := rfl
@[simp] theorem State.setQ0_code (v : Word) (x : Byte) : (s.setQ0 v).code x = s.code x := rfl
@[simp] theorem State.setQ0_args (v : Word) : (s.setQ0 v).args = s.args := rfl
@[simp] theorem State.setQ0_busy (v : Word) : (s.setQ0 v).busy = s.busy := rfl
@[simp] theorem State.setQ0_readByte (v : Word) (a : Nat) : (s.setQ0 v).readByte a = s.readByte a := rfl
@[simp] theorem State.setQ0_readBit (v : Word) (a : Nat) : (s.setQ0 v).readBit a = s.readBit a := rfl

/-! ### setQ1 -/

@[simp] theorem State.setQ1_pending (v : Word) : (s.setQ1 v).pending = s.pending := rfl
@[simp] theorem State.setQ1_err (v : Word) : (s.setQ1 v).err = s.err := rfl
@[simp] theorem State.setQ1_errCode (v : Word) : (s.setQ1 v).errCode = s.errCode := rfl
@[simp] theorem State.setQ1_treeValid (v : Word) : (s.setQ1 v).treeValid = s.treeValid := rfl
@[simp] theorem State.setQ1_overrun (v : Word) : (s.setQ1 v).overrun = s.overrun := rfl
@[simp] theorem State.setQ1_errInfo (v : Word) : (s.setQ1 v).errInfo = s.errInfo := rfl
@[simp] theorem State.setQ1_a0 (v : Word) : (s.setQ1 v).a0 = s.a0 := rfl
@[simp] theorem State.setQ1_a1 (v : Word) : (s.setQ1 v).a1 = s.a1 := rfl
@[simp] theorem State.setQ1_a2 (v : Word) : (s.setQ1 v).a2 = s.a2 := rfl
@[simp] theorem State.setQ1_a3 (v : Word) : (s.setQ1 v).a3 = s.a3 := rfl
@[simp] theorem State.setQ1_q0 (v : Word) : (s.setQ1 v).q0 = s.q0 := rfl
@[simp] theorem State.setQ1_q1 (v : Word) : (s.setQ1 v).q1 = v := rfl
@[simp] theorem State.setQ1_q2 (v : Word) : (s.setQ1 v).q2 = s.q2 := rfl
@[simp] theorem State.setQ1_cursor (v : Word) : (s.setQ1 v).cursor = s.cursor := rfl
@[simp] theorem State.setQ1_root (v : Word) : (s.setQ1 v).root = s.root := rfl
@[simp] theorem State.setQ1_nodeCount (v : Word) : (s.setQ1 v).nodeCount = s.nodeCount := rfl
@[simp] theorem State.setQ1_freq (v : Word) : (s.setQ1 v).freq = s.freq := rfl
@[simp] theorem State.setQ1_nodes (v : Word) : (s.setQ1 v).nodes = s.nodes := rfl
@[simp] theorem State.setQ1_pq (v : Word) : (s.setQ1 v).pq = s.pq := rfl
@[simp] theorem State.setQ1_codes (v : Word) : (s.setQ1 v).codes = s.codes := rfl
@[simp] theorem State.setQ1_dmem (v : Word) : (s.setQ1 v).dmem = s.dmem := rfl
@[simp] theorem State.setQ1_dmemTop (v : Word) : (s.setQ1 v).dmemTop = s.dmemTop := rfl
@[simp] theorem State.setQ1_dmemBytes (v : Word) : (s.setQ1 v).dmemBytes = s.dmemBytes := rfl
@[simp] theorem State.setQ1_dmemEpoch (v : Word) : (s.setQ1 v).dmemEpoch = s.dmemEpoch := rfl
@[simp] theorem State.setQ1_storeEpoch (v : Word) : (s.setQ1 v).storeEpoch = s.storeEpoch := rfl
@[simp] theorem State.setQ1_draws (v : Word) : (s.setQ1 v).draws = s.draws := rfl
@[simp] theorem State.setQ1_script (v : Word) : (s.setQ1 v).script = s.script := rfl
@[simp] theorem State.setQ1_seen (v : Word) : (s.setQ1 v).seen = s.seen := rfl
@[simp] theorem State.setQ1_node (v : Word) (i : Nat) : (s.setQ1 v).node i = s.node i := rfl
@[simp] theorem State.setQ1_code (v : Word) (x : Byte) : (s.setQ1 v).code x = s.code x := rfl
@[simp] theorem State.setQ1_args (v : Word) : (s.setQ1 v).args = s.args := rfl
@[simp] theorem State.setQ1_busy (v : Word) : (s.setQ1 v).busy = s.busy := rfl
@[simp] theorem State.setQ1_readByte (v : Word) (a : Nat) : (s.setQ1 v).readByte a = s.readByte a := rfl
@[simp] theorem State.setQ1_readBit (v : Word) (a : Nat) : (s.setQ1 v).readBit a = s.readBit a := rfl

/-! ### setQ2 -/

@[simp] theorem State.setQ2_pending (v : Word) : (s.setQ2 v).pending = s.pending := rfl
@[simp] theorem State.setQ2_err (v : Word) : (s.setQ2 v).err = s.err := rfl
@[simp] theorem State.setQ2_errCode (v : Word) : (s.setQ2 v).errCode = s.errCode := rfl
@[simp] theorem State.setQ2_treeValid (v : Word) : (s.setQ2 v).treeValid = s.treeValid := rfl
@[simp] theorem State.setQ2_overrun (v : Word) : (s.setQ2 v).overrun = s.overrun := rfl
@[simp] theorem State.setQ2_errInfo (v : Word) : (s.setQ2 v).errInfo = s.errInfo := rfl
@[simp] theorem State.setQ2_a0 (v : Word) : (s.setQ2 v).a0 = s.a0 := rfl
@[simp] theorem State.setQ2_a1 (v : Word) : (s.setQ2 v).a1 = s.a1 := rfl
@[simp] theorem State.setQ2_a2 (v : Word) : (s.setQ2 v).a2 = s.a2 := rfl
@[simp] theorem State.setQ2_a3 (v : Word) : (s.setQ2 v).a3 = s.a3 := rfl
@[simp] theorem State.setQ2_q0 (v : Word) : (s.setQ2 v).q0 = s.q0 := rfl
@[simp] theorem State.setQ2_q1 (v : Word) : (s.setQ2 v).q1 = s.q1 := rfl
@[simp] theorem State.setQ2_q2 (v : Word) : (s.setQ2 v).q2 = v := rfl
@[simp] theorem State.setQ2_cursor (v : Word) : (s.setQ2 v).cursor = s.cursor := rfl
@[simp] theorem State.setQ2_root (v : Word) : (s.setQ2 v).root = s.root := rfl
@[simp] theorem State.setQ2_nodeCount (v : Word) : (s.setQ2 v).nodeCount = s.nodeCount := rfl
@[simp] theorem State.setQ2_freq (v : Word) : (s.setQ2 v).freq = s.freq := rfl
@[simp] theorem State.setQ2_nodes (v : Word) : (s.setQ2 v).nodes = s.nodes := rfl
@[simp] theorem State.setQ2_pq (v : Word) : (s.setQ2 v).pq = s.pq := rfl
@[simp] theorem State.setQ2_codes (v : Word) : (s.setQ2 v).codes = s.codes := rfl
@[simp] theorem State.setQ2_dmem (v : Word) : (s.setQ2 v).dmem = s.dmem := rfl
@[simp] theorem State.setQ2_dmemTop (v : Word) : (s.setQ2 v).dmemTop = s.dmemTop := rfl
@[simp] theorem State.setQ2_dmemBytes (v : Word) : (s.setQ2 v).dmemBytes = s.dmemBytes := rfl
@[simp] theorem State.setQ2_dmemEpoch (v : Word) : (s.setQ2 v).dmemEpoch = s.dmemEpoch := rfl
@[simp] theorem State.setQ2_storeEpoch (v : Word) : (s.setQ2 v).storeEpoch = s.storeEpoch := rfl
@[simp] theorem State.setQ2_draws (v : Word) : (s.setQ2 v).draws = s.draws := rfl
@[simp] theorem State.setQ2_script (v : Word) : (s.setQ2 v).script = s.script := rfl
@[simp] theorem State.setQ2_seen (v : Word) : (s.setQ2 v).seen = s.seen := rfl
@[simp] theorem State.setQ2_node (v : Word) (i : Nat) : (s.setQ2 v).node i = s.node i := rfl
@[simp] theorem State.setQ2_code (v : Word) (x : Byte) : (s.setQ2 v).code x = s.code x := rfl
@[simp] theorem State.setQ2_args (v : Word) : (s.setQ2 v).args = s.args := rfl
@[simp] theorem State.setQ2_busy (v : Word) : (s.setQ2 v).busy = s.busy := rfl
@[simp] theorem State.setQ2_readByte (v : Word) (a : Nat) : (s.setQ2 v).readByte a = s.readByte a := rfl
@[simp] theorem State.setQ2_readBit (v : Word) (a : Nat) : (s.setQ2 v).readBit a = s.readBit a := rfl

/-! ### setFreq -/

@[simp] theorem State.setFreq_pending (f : Vector Word 256) : (s.setFreq f).pending = s.pending := rfl
@[simp] theorem State.setFreq_err (f : Vector Word 256) : (s.setFreq f).err = s.err := rfl
@[simp] theorem State.setFreq_errCode (f : Vector Word 256) : (s.setFreq f).errCode = s.errCode := rfl
@[simp] theorem State.setFreq_treeValid (f : Vector Word 256) : (s.setFreq f).treeValid = s.treeValid := rfl
@[simp] theorem State.setFreq_overrun (f : Vector Word 256) : (s.setFreq f).overrun = s.overrun := rfl
@[simp] theorem State.setFreq_errInfo (f : Vector Word 256) : (s.setFreq f).errInfo = s.errInfo := rfl
@[simp] theorem State.setFreq_a0 (f : Vector Word 256) : (s.setFreq f).a0 = s.a0 := rfl
@[simp] theorem State.setFreq_a1 (f : Vector Word 256) : (s.setFreq f).a1 = s.a1 := rfl
@[simp] theorem State.setFreq_a2 (f : Vector Word 256) : (s.setFreq f).a2 = s.a2 := rfl
@[simp] theorem State.setFreq_a3 (f : Vector Word 256) : (s.setFreq f).a3 = s.a3 := rfl
@[simp] theorem State.setFreq_q0 (f : Vector Word 256) : (s.setFreq f).q0 = s.q0 := rfl
@[simp] theorem State.setFreq_q1 (f : Vector Word 256) : (s.setFreq f).q1 = s.q1 := rfl
@[simp] theorem State.setFreq_q2 (f : Vector Word 256) : (s.setFreq f).q2 = s.q2 := rfl
@[simp] theorem State.setFreq_cursor (f : Vector Word 256) : (s.setFreq f).cursor = s.cursor := rfl
@[simp] theorem State.setFreq_root (f : Vector Word 256) : (s.setFreq f).root = s.root := rfl
@[simp] theorem State.setFreq_nodeCount (f : Vector Word 256) : (s.setFreq f).nodeCount = s.nodeCount := rfl
@[simp] theorem State.setFreq_freq (f : Vector Word 256) : (s.setFreq f).freq = f := rfl
@[simp] theorem State.setFreq_nodes (f : Vector Word 256) : (s.setFreq f).nodes = s.nodes := rfl
@[simp] theorem State.setFreq_pq (f : Vector Word 256) : (s.setFreq f).pq = s.pq := rfl
@[simp] theorem State.setFreq_codes (f : Vector Word 256) : (s.setFreq f).codes = s.codes := rfl
@[simp] theorem State.setFreq_dmem (f : Vector Word 256) : (s.setFreq f).dmem = s.dmem := rfl
@[simp] theorem State.setFreq_dmemTop (f : Vector Word 256) : (s.setFreq f).dmemTop = s.dmemTop := rfl
@[simp] theorem State.setFreq_dmemBytes (f : Vector Word 256) : (s.setFreq f).dmemBytes = s.dmemBytes := rfl
@[simp] theorem State.setFreq_dmemEpoch (f : Vector Word 256) : (s.setFreq f).dmemEpoch = s.dmemEpoch := rfl
@[simp] theorem State.setFreq_storeEpoch (f : Vector Word 256) : (s.setFreq f).storeEpoch = s.storeEpoch := rfl
@[simp] theorem State.setFreq_draws (f : Vector Word 256) : (s.setFreq f).draws = s.draws := rfl
@[simp] theorem State.setFreq_script (f : Vector Word 256) : (s.setFreq f).script = s.script := rfl
@[simp] theorem State.setFreq_seen (f : Vector Word 256) : (s.setFreq f).seen = s.seen := rfl
@[simp] theorem State.setFreq_node (f : Vector Word 256) (i : Nat) : (s.setFreq f).node i = s.node i := rfl
@[simp] theorem State.setFreq_code (f : Vector Word 256) (x : Byte) : (s.setFreq f).code x = s.code x := rfl
@[simp] theorem State.setFreq_args (f : Vector Word 256) : (s.setFreq f).args = s.args := rfl
@[simp] theorem State.setFreq_busy (f : Vector Word 256) : (s.setFreq f).busy = s.busy := rfl
@[simp] theorem State.setFreq_readByte (f : Vector Word 256) (a : Nat) : (s.setFreq f).readByte a = s.readByte a := rfl
@[simp] theorem State.setFreq_readBit (f : Vector Word 256) (a : Nat) : (s.setFreq f).readBit a = s.readBit a := rfl

/-! ### setCursor -/

@[simp] theorem State.setCursor_pending (c : NodeIndex) : (s.setCursor c).pending = s.pending := rfl
@[simp] theorem State.setCursor_err (c : NodeIndex) : (s.setCursor c).err = s.err := rfl
@[simp] theorem State.setCursor_errCode (c : NodeIndex) : (s.setCursor c).errCode = s.errCode := rfl
@[simp] theorem State.setCursor_treeValid (c : NodeIndex) : (s.setCursor c).treeValid = s.treeValid := rfl
@[simp] theorem State.setCursor_overrun (c : NodeIndex) : (s.setCursor c).overrun = s.overrun := rfl
@[simp] theorem State.setCursor_errInfo (c : NodeIndex) : (s.setCursor c).errInfo = s.errInfo := rfl
@[simp] theorem State.setCursor_a0 (c : NodeIndex) : (s.setCursor c).a0 = s.a0 := rfl
@[simp] theorem State.setCursor_a1 (c : NodeIndex) : (s.setCursor c).a1 = s.a1 := rfl
@[simp] theorem State.setCursor_a2 (c : NodeIndex) : (s.setCursor c).a2 = s.a2 := rfl
@[simp] theorem State.setCursor_a3 (c : NodeIndex) : (s.setCursor c).a3 = s.a3 := rfl
@[simp] theorem State.setCursor_q0 (c : NodeIndex) : (s.setCursor c).q0 = s.q0 := rfl
@[simp] theorem State.setCursor_q1 (c : NodeIndex) : (s.setCursor c).q1 = s.q1 := rfl
@[simp] theorem State.setCursor_q2 (c : NodeIndex) : (s.setCursor c).q2 = s.q2 := rfl
@[simp] theorem State.setCursor_cursor (c : NodeIndex) : (s.setCursor c).cursor = c := rfl
@[simp] theorem State.setCursor_root (c : NodeIndex) : (s.setCursor c).root = s.root := rfl
@[simp] theorem State.setCursor_nodeCount (c : NodeIndex) : (s.setCursor c).nodeCount = s.nodeCount := rfl
@[simp] theorem State.setCursor_freq (c : NodeIndex) : (s.setCursor c).freq = s.freq := rfl
@[simp] theorem State.setCursor_nodes (c : NodeIndex) : (s.setCursor c).nodes = s.nodes := rfl
@[simp] theorem State.setCursor_pq (c : NodeIndex) : (s.setCursor c).pq = s.pq := rfl
@[simp] theorem State.setCursor_codes (c : NodeIndex) : (s.setCursor c).codes = s.codes := rfl
@[simp] theorem State.setCursor_dmem (c : NodeIndex) : (s.setCursor c).dmem = s.dmem := rfl
@[simp] theorem State.setCursor_dmemTop (c : NodeIndex) : (s.setCursor c).dmemTop = s.dmemTop := rfl
@[simp] theorem State.setCursor_dmemBytes (c : NodeIndex) : (s.setCursor c).dmemBytes = s.dmemBytes := rfl
@[simp] theorem State.setCursor_dmemEpoch (c : NodeIndex) : (s.setCursor c).dmemEpoch = s.dmemEpoch := rfl
@[simp] theorem State.setCursor_storeEpoch (c : NodeIndex) : (s.setCursor c).storeEpoch = s.storeEpoch := rfl
@[simp] theorem State.setCursor_draws (c : NodeIndex) : (s.setCursor c).draws = s.draws := rfl
@[simp] theorem State.setCursor_script (c : NodeIndex) : (s.setCursor c).script = s.script := rfl
@[simp] theorem State.setCursor_seen (c : NodeIndex) : (s.setCursor c).seen = s.seen := rfl
@[simp] theorem State.setCursor_node (c : NodeIndex) (i : Nat) : (s.setCursor c).node i = s.node i := rfl
@[simp] theorem State.setCursor_code (c : NodeIndex) (x : Byte) : (s.setCursor c).code x = s.code x := rfl
@[simp] theorem State.setCursor_args (c : NodeIndex) : (s.setCursor c).args = s.args := rfl
@[simp] theorem State.setCursor_busy (c : NodeIndex) : (s.setCursor c).busy = s.busy := rfl
@[simp] theorem State.setCursor_readByte (c : NodeIndex) (a : Nat) : (s.setCursor c).readByte a = s.readByte a := rfl
@[simp] theorem State.setCursor_readBit (c : NodeIndex) (a : Nat) : (s.setCursor c).readBit a = s.readBit a := rfl

/-! ### setOverrun -/

@[simp] theorem State.setOverrun_pending (v : Bool) : (s.setOverrun v).pending = s.pending := rfl
@[simp] theorem State.setOverrun_err (v : Bool) : (s.setOverrun v).err = s.err := rfl
@[simp] theorem State.setOverrun_errCode (v : Bool) : (s.setOverrun v).errCode = s.errCode := rfl
@[simp] theorem State.setOverrun_treeValid (v : Bool) : (s.setOverrun v).treeValid = s.treeValid := rfl
@[simp] theorem State.setOverrun_overrun (v : Bool) : (s.setOverrun v).overrun = v := rfl
@[simp] theorem State.setOverrun_errInfo (v : Bool) : (s.setOverrun v).errInfo = s.errInfo := rfl
@[simp] theorem State.setOverrun_a0 (v : Bool) : (s.setOverrun v).a0 = s.a0 := rfl
@[simp] theorem State.setOverrun_a1 (v : Bool) : (s.setOverrun v).a1 = s.a1 := rfl
@[simp] theorem State.setOverrun_a2 (v : Bool) : (s.setOverrun v).a2 = s.a2 := rfl
@[simp] theorem State.setOverrun_a3 (v : Bool) : (s.setOverrun v).a3 = s.a3 := rfl
@[simp] theorem State.setOverrun_q0 (v : Bool) : (s.setOverrun v).q0 = s.q0 := rfl
@[simp] theorem State.setOverrun_q1 (v : Bool) : (s.setOverrun v).q1 = s.q1 := rfl
@[simp] theorem State.setOverrun_q2 (v : Bool) : (s.setOverrun v).q2 = s.q2 := rfl
@[simp] theorem State.setOverrun_cursor (v : Bool) : (s.setOverrun v).cursor = s.cursor := rfl
@[simp] theorem State.setOverrun_root (v : Bool) : (s.setOverrun v).root = s.root := rfl
@[simp] theorem State.setOverrun_nodeCount (v : Bool) : (s.setOverrun v).nodeCount = s.nodeCount := rfl
@[simp] theorem State.setOverrun_freq (v : Bool) : (s.setOverrun v).freq = s.freq := rfl
@[simp] theorem State.setOverrun_nodes (v : Bool) : (s.setOverrun v).nodes = s.nodes := rfl
@[simp] theorem State.setOverrun_pq (v : Bool) : (s.setOverrun v).pq = s.pq := rfl
@[simp] theorem State.setOverrun_codes (v : Bool) : (s.setOverrun v).codes = s.codes := rfl
@[simp] theorem State.setOverrun_dmem (v : Bool) : (s.setOverrun v).dmem = s.dmem := rfl
@[simp] theorem State.setOverrun_dmemTop (v : Bool) : (s.setOverrun v).dmemTop = s.dmemTop := rfl
@[simp] theorem State.setOverrun_dmemBytes (v : Bool) : (s.setOverrun v).dmemBytes = s.dmemBytes := rfl
@[simp] theorem State.setOverrun_dmemEpoch (v : Bool) : (s.setOverrun v).dmemEpoch = s.dmemEpoch := rfl
@[simp] theorem State.setOverrun_storeEpoch (v : Bool) : (s.setOverrun v).storeEpoch = s.storeEpoch := rfl
@[simp] theorem State.setOverrun_draws (v : Bool) : (s.setOverrun v).draws = s.draws := rfl
@[simp] theorem State.setOverrun_script (v : Bool) : (s.setOverrun v).script = s.script := rfl
@[simp] theorem State.setOverrun_seen (v : Bool) : (s.setOverrun v).seen = s.seen := rfl
@[simp] theorem State.setOverrun_node (v : Bool) (i : Nat) : (s.setOverrun v).node i = s.node i := rfl
@[simp] theorem State.setOverrun_code (v : Bool) (x : Byte) : (s.setOverrun v).code x = s.code x := rfl
@[simp] theorem State.setOverrun_args (v : Bool) : (s.setOverrun v).args = s.args := rfl
@[simp] theorem State.setOverrun_busy (v : Bool) : (s.setOverrun v).busy = s.busy := rfl
@[simp] theorem State.setOverrun_readByte (v : Bool) (a : Nat) : (s.setOverrun v).readByte a = s.readByte a := rfl
@[simp] theorem State.setOverrun_readBit (v : Bool) (a : Nat) : (s.setOverrun v).readBit a = s.readBit a := rfl

/-! ### installTree -/

@[simp] theorem State.installTree_pending (ns : List Node) (r : NodeIndex) : (s.installTree ns r).pending = s.pending := rfl
@[simp] theorem State.installTree_err (ns : List Node) (r : NodeIndex) : (s.installTree ns r).err = s.err := rfl
@[simp] theorem State.installTree_errCode (ns : List Node) (r : NodeIndex) : (s.installTree ns r).errCode = s.errCode := rfl
@[simp] theorem State.installTree_treeValid (ns : List Node) (r : NodeIndex) : (s.installTree ns r).treeValid = true := rfl
@[simp] theorem State.installTree_overrun (ns : List Node) (r : NodeIndex) : (s.installTree ns r).overrun = s.overrun := rfl
@[simp] theorem State.installTree_errInfo (ns : List Node) (r : NodeIndex) : (s.installTree ns r).errInfo = s.errInfo := rfl
@[simp] theorem State.installTree_a0 (ns : List Node) (r : NodeIndex) : (s.installTree ns r).a0 = s.a0 := rfl
@[simp] theorem State.installTree_a1 (ns : List Node) (r : NodeIndex) : (s.installTree ns r).a1 = s.a1 := rfl
@[simp] theorem State.installTree_a2 (ns : List Node) (r : NodeIndex) : (s.installTree ns r).a2 = s.a2 := rfl
@[simp] theorem State.installTree_a3 (ns : List Node) (r : NodeIndex) : (s.installTree ns r).a3 = s.a3 := rfl
@[simp] theorem State.installTree_q0 (ns : List Node) (r : NodeIndex) : (s.installTree ns r).q0 = s.q0 := rfl
@[simp] theorem State.installTree_q1 (ns : List Node) (r : NodeIndex) : (s.installTree ns r).q1 = s.q1 := rfl
@[simp] theorem State.installTree_q2 (ns : List Node) (r : NodeIndex) : (s.installTree ns r).q2 = s.q2 := rfl
@[simp] theorem State.installTree_cursor (ns : List Node) (r : NodeIndex) : (s.installTree ns r).cursor = r := rfl
@[simp] theorem State.installTree_root (ns : List Node) (r : NodeIndex) : (s.installTree ns r).root = r := rfl
@[simp] theorem State.installTree_nodeCount (ns : List Node) (r : NodeIndex) : (s.installTree ns r).nodeCount = BitVec.ofNat 10 ns.length := rfl
@[simp] theorem State.installTree_freq (ns : List Node) (r : NodeIndex) : (s.installTree ns r).freq = s.freq := rfl
@[simp] theorem State.installTree_nodes (ns : List Node) (r : NodeIndex) : (s.installTree ns r).nodes = ns := rfl
@[simp] theorem State.installTree_pq (ns : List Node) (r : NodeIndex) : (s.installTree ns r).pq = [] := rfl
@[simp] theorem State.installTree_codes (ns : List Node) (r : NodeIndex) : (s.installTree ns r).codes = s.codes := rfl
@[simp] theorem State.installTree_dmem (ns : List Node) (r : NodeIndex) : (s.installTree ns r).dmem = s.dmem := rfl
@[simp] theorem State.installTree_dmemTop (ns : List Node) (r : NodeIndex) : (s.installTree ns r).dmemTop = s.dmemTop := rfl
@[simp] theorem State.installTree_dmemBytes (ns : List Node) (r : NodeIndex) : (s.installTree ns r).dmemBytes = s.dmemBytes := rfl
@[simp] theorem State.installTree_dmemEpoch (ns : List Node) (r : NodeIndex) : (s.installTree ns r).dmemEpoch = s.dmemEpoch := rfl
@[simp] theorem State.installTree_storeEpoch (ns : List Node) (r : NodeIndex) : (s.installTree ns r).storeEpoch = s.storeEpoch := rfl
@[simp] theorem State.installTree_draws (ns : List Node) (r : NodeIndex) : (s.installTree ns r).draws = s.draws := rfl
@[simp] theorem State.installTree_script (ns : List Node) (r : NodeIndex) : (s.installTree ns r).script = s.script := rfl
@[simp] theorem State.installTree_seen (ns : List Node) (r : NodeIndex) : (s.installTree ns r).seen = s.seen := rfl
@[simp] theorem State.installTree_code (ns : List Node) (r : NodeIndex) (x : Byte) : (s.installTree ns r).code x = s.code x := rfl
@[simp] theorem State.installTree_args (ns : List Node) (r : NodeIndex) : (s.installTree ns r).args = s.args := rfl
@[simp] theorem State.installTree_busy (ns : List Node) (r : NodeIndex) : (s.installTree ns r).busy = s.busy := rfl
@[simp] theorem State.installTree_readByte (ns : List Node) (r : NodeIndex) (a : Nat) : (s.installTree ns r).readByte a = s.readByte a := rfl
@[simp] theorem State.installTree_readBit (ns : List Node) (r : NodeIndex) (a : Nat) : (s.installTree ns r).readBit a = s.readBit a := rfl

/-! ### setCodes -/

@[simp] theorem State.setCodes_pending (t : Vector Bits 256) : (s.setCodes t).pending = s.pending := rfl
@[simp] theorem State.setCodes_err (t : Vector Bits 256) : (s.setCodes t).err = s.err := rfl
@[simp] theorem State.setCodes_errCode (t : Vector Bits 256) : (s.setCodes t).errCode = s.errCode := rfl
@[simp] theorem State.setCodes_treeValid (t : Vector Bits 256) : (s.setCodes t).treeValid = s.treeValid := rfl
@[simp] theorem State.setCodes_overrun (t : Vector Bits 256) : (s.setCodes t).overrun = s.overrun := rfl
@[simp] theorem State.setCodes_errInfo (t : Vector Bits 256) : (s.setCodes t).errInfo = s.errInfo := rfl
@[simp] theorem State.setCodes_a0 (t : Vector Bits 256) : (s.setCodes t).a0 = s.a0 := rfl
@[simp] theorem State.setCodes_a1 (t : Vector Bits 256) : (s.setCodes t).a1 = s.a1 := rfl
@[simp] theorem State.setCodes_a2 (t : Vector Bits 256) : (s.setCodes t).a2 = s.a2 := rfl
@[simp] theorem State.setCodes_a3 (t : Vector Bits 256) : (s.setCodes t).a3 = s.a3 := rfl
@[simp] theorem State.setCodes_q0 (t : Vector Bits 256) : (s.setCodes t).q0 = s.q0 := rfl
@[simp] theorem State.setCodes_q1 (t : Vector Bits 256) : (s.setCodes t).q1 = s.q1 := rfl
@[simp] theorem State.setCodes_q2 (t : Vector Bits 256) : (s.setCodes t).q2 = s.q2 := rfl
@[simp] theorem State.setCodes_cursor (t : Vector Bits 256) : (s.setCodes t).cursor = s.cursor := rfl
@[simp] theorem State.setCodes_root (t : Vector Bits 256) : (s.setCodes t).root = s.root := rfl
@[simp] theorem State.setCodes_nodeCount (t : Vector Bits 256) : (s.setCodes t).nodeCount = s.nodeCount := rfl
@[simp] theorem State.setCodes_freq (t : Vector Bits 256) : (s.setCodes t).freq = s.freq := rfl
@[simp] theorem State.setCodes_nodes (t : Vector Bits 256) : (s.setCodes t).nodes = s.nodes := rfl
@[simp] theorem State.setCodes_pq (t : Vector Bits 256) : (s.setCodes t).pq = s.pq := rfl
@[simp] theorem State.setCodes_codes (t : Vector Bits 256) : (s.setCodes t).codes = some t := rfl
@[simp] theorem State.setCodes_dmem (t : Vector Bits 256) : (s.setCodes t).dmem = s.dmem := rfl
@[simp] theorem State.setCodes_dmemTop (t : Vector Bits 256) : (s.setCodes t).dmemTop = s.dmemTop := rfl
@[simp] theorem State.setCodes_dmemBytes (t : Vector Bits 256) : (s.setCodes t).dmemBytes = s.dmemBytes := rfl
@[simp] theorem State.setCodes_dmemEpoch (t : Vector Bits 256) : (s.setCodes t).dmemEpoch = s.dmemEpoch := rfl
@[simp] theorem State.setCodes_storeEpoch (t : Vector Bits 256) : (s.setCodes t).storeEpoch = s.storeEpoch := rfl
@[simp] theorem State.setCodes_draws (t : Vector Bits 256) : (s.setCodes t).draws = s.draws := rfl
@[simp] theorem State.setCodes_script (t : Vector Bits 256) : (s.setCodes t).script = s.script := rfl
@[simp] theorem State.setCodes_seen (t : Vector Bits 256) : (s.setCodes t).seen = s.seen := rfl
@[simp] theorem State.setCodes_node (t : Vector Bits 256) (i : Nat) : (s.setCodes t).node i = s.node i := rfl
@[simp] theorem State.setCodes_args (t : Vector Bits 256) : (s.setCodes t).args = s.args := rfl
@[simp] theorem State.setCodes_busy (t : Vector Bits 256) : (s.setCodes t).busy = s.busy := rfl
@[simp] theorem State.setCodes_readByte (t : Vector Bits 256) (a : Nat) : (s.setCodes t).readByte a = s.readByte a := rfl
@[simp] theorem State.setCodes_readBit (t : Vector Bits 256) (a : Nat) : (s.setCodes t).readBit a = s.readBit a := rfl

/-! ### generateCodes -/

@[simp] theorem State.generateCodes_pending : (s.generateCodes).pending = s.pending := rfl
@[simp] theorem State.generateCodes_err : (s.generateCodes).err = s.err := rfl
@[simp] theorem State.generateCodes_errCode : (s.generateCodes).errCode = s.errCode := rfl
@[simp] theorem State.generateCodes_treeValid : (s.generateCodes).treeValid = s.treeValid := rfl
@[simp] theorem State.generateCodes_overrun : (s.generateCodes).overrun = s.overrun := rfl
@[simp] theorem State.generateCodes_errInfo : (s.generateCodes).errInfo = s.errInfo := rfl
@[simp] theorem State.generateCodes_a0 : (s.generateCodes).a0 = s.a0 := rfl
@[simp] theorem State.generateCodes_a1 : (s.generateCodes).a1 = s.a1 := rfl
@[simp] theorem State.generateCodes_a2 : (s.generateCodes).a2 = s.a2 := rfl
@[simp] theorem State.generateCodes_a3 : (s.generateCodes).a3 = s.a3 := rfl
@[simp] theorem State.generateCodes_q0 : (s.generateCodes).q0 = s.q0 := rfl
@[simp] theorem State.generateCodes_q1 : (s.generateCodes).q1 = s.q1 := rfl
@[simp] theorem State.generateCodes_q2 : (s.generateCodes).q2 = s.q2 := rfl
@[simp] theorem State.generateCodes_cursor : (s.generateCodes).cursor = s.cursor := rfl
@[simp] theorem State.generateCodes_root : (s.generateCodes).root = s.root := rfl
@[simp] theorem State.generateCodes_nodeCount : (s.generateCodes).nodeCount = s.nodeCount := rfl
@[simp] theorem State.generateCodes_freq : (s.generateCodes).freq = s.freq := rfl
@[simp] theorem State.generateCodes_nodes : (s.generateCodes).nodes = s.nodes := rfl
@[simp] theorem State.generateCodes_pq : (s.generateCodes).pq = s.pq := rfl
@[simp] theorem State.generateCodes_codes : (s.generateCodes).codes = some (codeGen s.node s.root) := rfl
@[simp] theorem State.generateCodes_dmem : (s.generateCodes).dmem = s.dmem := rfl
@[simp] theorem State.generateCodes_dmemTop : (s.generateCodes).dmemTop = s.dmemTop := rfl
@[simp] theorem State.generateCodes_dmemBytes : (s.generateCodes).dmemBytes = s.dmemBytes := rfl
@[simp] theorem State.generateCodes_dmemEpoch : (s.generateCodes).dmemEpoch = s.dmemEpoch := rfl
@[simp] theorem State.generateCodes_storeEpoch : (s.generateCodes).storeEpoch = s.storeEpoch := rfl
@[simp] theorem State.generateCodes_draws : (s.generateCodes).draws = s.draws := rfl
@[simp] theorem State.generateCodes_script : (s.generateCodes).script = s.script := rfl
@[simp] theorem State.generateCodes_seen : (s.generateCodes).seen = s.seen := rfl
@[simp] theorem State.generateCodes_node (i : Nat) : (s.generateCodes).node i = s.node i := rfl
@[simp] theorem State.generateCodes_args : (s.generateCodes).args = s.args := rfl
@[simp] theorem State.generateCodes_busy : (s.generateCodes).busy = s.busy := rfl
@[simp] theorem State.generateCodes_readByte (a : Nat) : (s.generateCodes).readByte a = s.readByte a := rfl
@[simp] theorem State.generateCodes_readBit (a : Nat) : (s.generateCodes).readBit a = s.readBit a := rfl

/-! ### withBuiltTree -/

@[simp] theorem State.withBuiltTree_pending : (s.withBuiltTree).pending = s.pending := rfl
@[simp] theorem State.withBuiltTree_err : (s.withBuiltTree).err = s.err := rfl
@[simp] theorem State.withBuiltTree_errCode : (s.withBuiltTree).errCode = s.errCode := rfl
@[simp] theorem State.withBuiltTree_treeValid : (s.withBuiltTree).treeValid = true := rfl
@[simp] theorem State.withBuiltTree_overrun : (s.withBuiltTree).overrun = s.overrun := rfl
@[simp] theorem State.withBuiltTree_errInfo : (s.withBuiltTree).errInfo = s.errInfo := rfl
@[simp] theorem State.withBuiltTree_a0 : (s.withBuiltTree).a0 = s.a0 := rfl
@[simp] theorem State.withBuiltTree_a1 : (s.withBuiltTree).a1 = s.a1 := rfl
@[simp] theorem State.withBuiltTree_a2 : (s.withBuiltTree).a2 = s.a2 := rfl
@[simp] theorem State.withBuiltTree_a3 : (s.withBuiltTree).a3 = s.a3 := rfl
@[simp] theorem State.withBuiltTree_q0 : (s.withBuiltTree).q0 = s.q0 := rfl
@[simp] theorem State.withBuiltTree_q1 : (s.withBuiltTree).q1 = s.q1 := rfl
@[simp] theorem State.withBuiltTree_q2 : (s.withBuiltTree).q2 = s.q2 := rfl
@[simp] theorem State.withBuiltTree_cursor : (s.withBuiltTree).cursor = (buildTree s.freq).root := rfl
@[simp] theorem State.withBuiltTree_root : (s.withBuiltTree).root = (buildTree s.freq).root := rfl
@[simp] theorem State.withBuiltTree_nodeCount : (s.withBuiltTree).nodeCount = BitVec.ofNat 10 (buildTree s.freq).nodes.length := rfl
@[simp] theorem State.withBuiltTree_freq : (s.withBuiltTree).freq = s.freq := rfl
@[simp] theorem State.withBuiltTree_nodes : (s.withBuiltTree).nodes = (buildTree s.freq).nodes := rfl
@[simp] theorem State.withBuiltTree_pq : (s.withBuiltTree).pq = [] := rfl
@[simp] theorem State.withBuiltTree_codes : (s.withBuiltTree).codes = some (codeGen s.withBuiltTree.node s.withBuiltTree.root) := rfl
@[simp] theorem State.withBuiltTree_dmem : (s.withBuiltTree).dmem = s.dmem := rfl
@[simp] theorem State.withBuiltTree_dmemTop : (s.withBuiltTree).dmemTop = s.dmemTop := rfl
@[simp] theorem State.withBuiltTree_dmemBytes : (s.withBuiltTree).dmemBytes = s.dmemBytes := rfl
@[simp] theorem State.withBuiltTree_dmemEpoch : (s.withBuiltTree).dmemEpoch = s.dmemEpoch := rfl
@[simp] theorem State.withBuiltTree_storeEpoch : (s.withBuiltTree).storeEpoch = s.storeEpoch := rfl
@[simp] theorem State.withBuiltTree_draws : (s.withBuiltTree).draws = s.draws := rfl
@[simp] theorem State.withBuiltTree_script : (s.withBuiltTree).script = s.script := rfl
@[simp] theorem State.withBuiltTree_seen : (s.withBuiltTree).seen = s.seen := rfl
@[simp] theorem State.withBuiltTree_args : (s.withBuiltTree).args = s.args := rfl
@[simp] theorem State.withBuiltTree_busy : (s.withBuiltTree).busy = s.busy := rfl
@[simp] theorem State.withBuiltTree_readByte (a : Nat) : (s.withBuiltTree).readByte a = s.readByte a := rfl
@[simp] theorem State.withBuiltTree_readBit (a : Nat) : (s.withBuiltTree).readBit a = s.readBit a := rfl

/-! ### reportBuild -/

@[simp] theorem State.reportBuild_pending (n : Nat) (w : Weight) : (s.reportBuild n w).pending = s.pending := rfl
@[simp] theorem State.reportBuild_err (n : Nat) (w : Weight) : (s.reportBuild n w).err = s.err := rfl
@[simp] theorem State.reportBuild_errCode (n : Nat) (w : Weight) : (s.reportBuild n w).errCode = s.errCode := rfl
@[simp] theorem State.reportBuild_treeValid (n : Nat) (w : Weight) : (s.reportBuild n w).treeValid = s.treeValid := rfl
@[simp] theorem State.reportBuild_overrun (n : Nat) (w : Weight) : (s.reportBuild n w).overrun = s.overrun := rfl
@[simp] theorem State.reportBuild_errInfo (n : Nat) (w : Weight) : (s.reportBuild n w).errInfo = s.errInfo := rfl
@[simp] theorem State.reportBuild_a0 (n : Nat) (w : Weight) : (s.reportBuild n w).a0 = s.a0 := rfl
@[simp] theorem State.reportBuild_a1 (n : Nat) (w : Weight) : (s.reportBuild n w).a1 = s.a1 := rfl
@[simp] theorem State.reportBuild_a2 (n : Nat) (w : Weight) : (s.reportBuild n w).a2 = s.a2 := rfl
@[simp] theorem State.reportBuild_a3 (n : Nat) (w : Weight) : (s.reportBuild n w).a3 = s.a3 := rfl
@[simp] theorem State.reportBuild_q0 (n : Nat) (w : Weight) : (s.reportBuild n w).q0 = BitVec.ofNat 32 n := rfl
@[simp] theorem State.reportBuild_q1 (n : Nat) (w : Weight) : (s.reportBuild n w).q1 = w.extractLsb' 0 32 := rfl
@[simp] theorem State.reportBuild_q2 (n : Nat) (w : Weight) : (s.reportBuild n w).q2 = (w.extractLsb' 32 8).setWidth 32 := rfl
@[simp] theorem State.reportBuild_cursor (n : Nat) (w : Weight) : (s.reportBuild n w).cursor = s.cursor := rfl
@[simp] theorem State.reportBuild_root (n : Nat) (w : Weight) : (s.reportBuild n w).root = s.root := rfl
@[simp] theorem State.reportBuild_nodeCount (n : Nat) (w : Weight) : (s.reportBuild n w).nodeCount = s.nodeCount := rfl
@[simp] theorem State.reportBuild_freq (n : Nat) (w : Weight) : (s.reportBuild n w).freq = s.freq := rfl
@[simp] theorem State.reportBuild_nodes (n : Nat) (w : Weight) : (s.reportBuild n w).nodes = s.nodes := rfl
@[simp] theorem State.reportBuild_pq (n : Nat) (w : Weight) : (s.reportBuild n w).pq = s.pq := rfl
@[simp] theorem State.reportBuild_codes (n : Nat) (w : Weight) : (s.reportBuild n w).codes = s.codes := rfl
@[simp] theorem State.reportBuild_dmem (n : Nat) (w : Weight) : (s.reportBuild n w).dmem = s.dmem := rfl
@[simp] theorem State.reportBuild_dmemTop (n : Nat) (w : Weight) : (s.reportBuild n w).dmemTop = s.dmemTop := rfl
@[simp] theorem State.reportBuild_dmemBytes (n : Nat) (w : Weight) : (s.reportBuild n w).dmemBytes = s.dmemBytes := rfl
@[simp] theorem State.reportBuild_dmemEpoch (n : Nat) (w : Weight) : (s.reportBuild n w).dmemEpoch = s.dmemEpoch := rfl
@[simp] theorem State.reportBuild_storeEpoch (n : Nat) (w : Weight) : (s.reportBuild n w).storeEpoch = s.storeEpoch := rfl
@[simp] theorem State.reportBuild_draws (n : Nat) (w : Weight) : (s.reportBuild n w).draws = s.draws := rfl
@[simp] theorem State.reportBuild_script (n : Nat) (w : Weight) : (s.reportBuild n w).script = s.script := rfl
@[simp] theorem State.reportBuild_seen (n : Nat) (w : Weight) : (s.reportBuild n w).seen = s.seen := rfl
@[simp] theorem State.reportBuild_node (n : Nat) (w : Weight) (i : Nat) : (s.reportBuild n w).node i = s.node i := rfl
@[simp] theorem State.reportBuild_code (n : Nat) (w : Weight) (x : Byte) : (s.reportBuild n w).code x = s.code x := rfl
@[simp] theorem State.reportBuild_args (n : Nat) (w : Weight) : (s.reportBuild n w).args = s.args := rfl
@[simp] theorem State.reportBuild_busy (n : Nat) (w : Weight) : (s.reportBuild n w).busy = s.busy := rfl
@[simp] theorem State.reportBuild_readByte (n : Nat) (w : Weight) (a : Nat) : (s.reportBuild n w).readByte a = s.readByte a := rfl
@[simp] theorem State.reportBuild_readBit (n : Nat) (w : Weight) (a : Nat) : (s.reportBuild n w).readBit a = s.readBit a := rfl

/-! ### clearBlock -/

@[simp] theorem State.clearBlock_pending : (s.clearBlock).pending = s.pending := rfl
@[simp] theorem State.clearBlock_err : (s.clearBlock).err = s.err := rfl
@[simp] theorem State.clearBlock_errCode : (s.clearBlock).errCode = s.errCode := rfl
@[simp] theorem State.clearBlock_treeValid : (s.clearBlock).treeValid = false := rfl
@[simp] theorem State.clearBlock_overrun : (s.clearBlock).overrun = false := rfl
@[simp] theorem State.clearBlock_errInfo : (s.clearBlock).errInfo = 0 := rfl
@[simp] theorem State.clearBlock_a0 : (s.clearBlock).a0 = s.a0 := rfl
@[simp] theorem State.clearBlock_a1 : (s.clearBlock).a1 = s.a1 := rfl
@[simp] theorem State.clearBlock_a2 : (s.clearBlock).a2 = s.a2 := rfl
@[simp] theorem State.clearBlock_a3 : (s.clearBlock).a3 = s.a3 := rfl
@[simp] theorem State.clearBlock_q0 : (s.clearBlock).q0 = 0 := rfl
@[simp] theorem State.clearBlock_q1 : (s.clearBlock).q1 = 0 := rfl
@[simp] theorem State.clearBlock_q2 : (s.clearBlock).q2 = 0 := rfl
@[simp] theorem State.clearBlock_cursor : (s.clearBlock).cursor = 0 := rfl
@[simp] theorem State.clearBlock_root : (s.clearBlock).root = 0 := rfl
@[simp] theorem State.clearBlock_nodeCount : (s.clearBlock).nodeCount = 0 := rfl
@[simp] theorem State.clearBlock_freq : (s.clearBlock).freq = freqEmpty := rfl
@[simp] theorem State.clearBlock_nodes : (s.clearBlock).nodes = [] := rfl
@[simp] theorem State.clearBlock_pq : (s.clearBlock).pq = [] := rfl
@[simp] theorem State.clearBlock_codes : (s.clearBlock).codes = none := rfl
@[simp] theorem State.clearBlock_dmem : (s.clearBlock).dmem = s.dmem := rfl
@[simp] theorem State.clearBlock_dmemTop : (s.clearBlock).dmemTop = s.dmemTop := rfl
@[simp] theorem State.clearBlock_dmemBytes : (s.clearBlock).dmemBytes = s.dmemBytes := rfl
@[simp] theorem State.clearBlock_dmemEpoch : (s.clearBlock).dmemEpoch = s.dmemEpoch := rfl
@[simp] theorem State.clearBlock_storeEpoch : (s.clearBlock).storeEpoch = s.storeEpoch + 1 := rfl
@[simp] theorem State.clearBlock_draws : (s.clearBlock).draws = s.draws := rfl
@[simp] theorem State.clearBlock_script : (s.clearBlock).script = s.script := rfl
@[simp] theorem State.clearBlock_seen : (s.clearBlock).seen = s.seen := rfl
@[simp] theorem State.clearBlock_args : (s.clearBlock).args = s.args := rfl
@[simp] theorem State.clearBlock_busy : (s.clearBlock).busy = s.busy := rfl
@[simp] theorem State.clearBlock_readByte (a : Nat) : (s.clearBlock).readByte a = s.readByte a := rfl
@[simp] theorem State.clearBlock_readBit (a : Nat) : (s.clearBlock).readBit a = s.readBit a := rfl

/-! ### issue -/

@[simp] theorem State.issue_pending (w : Word) : (s.issue w).pending = some ⟨w, s.argRegs⟩ := rfl
@[simp] theorem State.issue_err (w : Word) : (s.issue w).err = false := rfl
@[simp] theorem State.issue_errCode (w : Word) : (s.issue w).errCode = 0 := rfl
@[simp] theorem State.issue_treeValid (w : Word) : (s.issue w).treeValid = s.treeValid := rfl
@[simp] theorem State.issue_overrun (w : Word) : (s.issue w).overrun = s.overrun := rfl
@[simp] theorem State.issue_errInfo (w : Word) : (s.issue w).errInfo = 0 := rfl
@[simp] theorem State.issue_a0 (w : Word) : (s.issue w).a0 = s.a0 := rfl
@[simp] theorem State.issue_a1 (w : Word) : (s.issue w).a1 = s.a1 := rfl
@[simp] theorem State.issue_a2 (w : Word) : (s.issue w).a2 = s.a2 := rfl
@[simp] theorem State.issue_a3 (w : Word) : (s.issue w).a3 = s.a3 := rfl
@[simp] theorem State.issue_q0 (w : Word) : (s.issue w).q0 = s.q0 := rfl
@[simp] theorem State.issue_q1 (w : Word) : (s.issue w).q1 = s.q1 := rfl
@[simp] theorem State.issue_q2 (w : Word) : (s.issue w).q2 = s.q2 := rfl
@[simp] theorem State.issue_cursor (w : Word) : (s.issue w).cursor = s.cursor := rfl
@[simp] theorem State.issue_root (w : Word) : (s.issue w).root = s.root := rfl
@[simp] theorem State.issue_nodeCount (w : Word) : (s.issue w).nodeCount = s.nodeCount := rfl
@[simp] theorem State.issue_freq (w : Word) : (s.issue w).freq = s.freq := rfl
@[simp] theorem State.issue_nodes (w : Word) : (s.issue w).nodes = s.nodes := rfl
@[simp] theorem State.issue_pq (w : Word) : (s.issue w).pq = s.pq := rfl
@[simp] theorem State.issue_codes (w : Word) : (s.issue w).codes = s.codes := rfl
@[simp] theorem State.issue_dmem (w : Word) : (s.issue w).dmem = s.dmem := rfl
@[simp] theorem State.issue_dmemTop (w : Word) : (s.issue w).dmemTop = s.dmemTop := rfl
@[simp] theorem State.issue_dmemBytes (w : Word) : (s.issue w).dmemBytes = s.dmemBytes := rfl
@[simp] theorem State.issue_dmemEpoch (w : Word) : (s.issue w).dmemEpoch = s.dmemEpoch := rfl
@[simp] theorem State.issue_storeEpoch (w : Word) : (s.issue w).storeEpoch = s.storeEpoch := rfl
@[simp] theorem State.issue_draws (w : Word) : (s.issue w).draws = s.draws := rfl
@[simp] theorem State.issue_script (w : Word) : (s.issue w).script = s.script := rfl
@[simp] theorem State.issue_seen (w : Word) : (s.issue w).seen = s.seen := rfl
@[simp] theorem State.issue_node (w : Word) (i : Nat) : (s.issue w).node i = s.node i := rfl
@[simp] theorem State.issue_code (w : Word) (x : Byte) : (s.issue w).code x = s.code x := rfl
@[simp] theorem State.issue_readByte (w : Word) (a : Nat) : (s.issue w).readByte a = s.readByte a := rfl
@[simp] theorem State.issue_readBit (w : Word) (a : Nat) : (s.issue w).readBit a = s.readBit a := rfl

/-! ### complete -/

@[simp] theorem State.complete_pending : (s.complete).pending = none := rfl
@[simp] theorem State.complete_err : (s.complete).err = false := rfl
@[simp] theorem State.complete_errCode : (s.complete).errCode = 0 := rfl
@[simp] theorem State.complete_treeValid : (s.complete).treeValid = s.treeValid := rfl
@[simp] theorem State.complete_overrun : (s.complete).overrun = s.overrun := rfl
@[simp] theorem State.complete_errInfo : (s.complete).errInfo = 0 := rfl
@[simp] theorem State.complete_a0 : (s.complete).a0 = s.a0 := rfl
@[simp] theorem State.complete_a1 : (s.complete).a1 = s.a1 := rfl
@[simp] theorem State.complete_a2 : (s.complete).a2 = s.a2 := rfl
@[simp] theorem State.complete_a3 : (s.complete).a3 = s.a3 := rfl
@[simp] theorem State.complete_q0 : (s.complete).q0 = s.q0 := rfl
@[simp] theorem State.complete_q1 : (s.complete).q1 = s.q1 := rfl
@[simp] theorem State.complete_q2 : (s.complete).q2 = s.q2 := rfl
@[simp] theorem State.complete_cursor : (s.complete).cursor = s.cursor := rfl
@[simp] theorem State.complete_root : (s.complete).root = s.root := rfl
@[simp] theorem State.complete_nodeCount : (s.complete).nodeCount = s.nodeCount := rfl
@[simp] theorem State.complete_freq : (s.complete).freq = s.freq := rfl
@[simp] theorem State.complete_nodes : (s.complete).nodes = s.nodes := rfl
@[simp] theorem State.complete_pq : (s.complete).pq = s.pq := rfl
@[simp] theorem State.complete_codes : (s.complete).codes = s.codes := rfl
@[simp] theorem State.complete_dmem : (s.complete).dmem = s.dmem := rfl
@[simp] theorem State.complete_dmemTop : (s.complete).dmemTop = s.dmemTop := rfl
@[simp] theorem State.complete_dmemBytes : (s.complete).dmemBytes = s.dmemBytes := rfl
@[simp] theorem State.complete_dmemEpoch : (s.complete).dmemEpoch = s.dmemEpoch := rfl
@[simp] theorem State.complete_storeEpoch : (s.complete).storeEpoch = s.storeEpoch := rfl
@[simp] theorem State.complete_draws : (s.complete).draws = s.draws := rfl
@[simp] theorem State.complete_script : (s.complete).script = s.script := rfl
@[simp] theorem State.complete_seen : (s.complete).seen = s.seen := rfl
@[simp] theorem State.complete_node (i : Nat) : (s.complete).node i = s.node i := rfl
@[simp] theorem State.complete_code (x : Byte) : (s.complete).code x = s.code x := rfl
@[simp] theorem State.complete_readByte (a : Nat) : (s.complete).readByte a = s.readByte a := rfl
@[simp] theorem State.complete_readBit (a : Nat) : (s.complete).readBit a = s.readBit a := rfl

/-! ### raise -/

@[simp] theorem State.raise_pending (e : CmdError) : (s.raise e).pending = none := rfl
@[simp] theorem State.raise_err (e : CmdError) : (s.raise e).err = true := rfl
@[simp] theorem State.raise_errCode (e : CmdError) : (s.raise e).errCode = e.code := rfl
@[simp] theorem State.raise_treeValid (e : CmdError) : (s.raise e).treeValid = s.treeValid := rfl
@[simp] theorem State.raise_overrun (e : CmdError) : (s.raise e).overrun = s.overrun := rfl
@[simp] theorem State.raise_errInfo (e : CmdError) : (s.raise e).errInfo = e.info := rfl
@[simp] theorem State.raise_a0 (e : CmdError) : (s.raise e).a0 = s.a0 := rfl
@[simp] theorem State.raise_a1 (e : CmdError) : (s.raise e).a1 = s.a1 := rfl
@[simp] theorem State.raise_a2 (e : CmdError) : (s.raise e).a2 = s.a2 := rfl
@[simp] theorem State.raise_a3 (e : CmdError) : (s.raise e).a3 = s.a3 := rfl
@[simp] theorem State.raise_q0 (e : CmdError) : (s.raise e).q0 = s.q0 := rfl
@[simp] theorem State.raise_q1 (e : CmdError) : (s.raise e).q1 = s.q1 := rfl
@[simp] theorem State.raise_q2 (e : CmdError) : (s.raise e).q2 = s.q2 := rfl
@[simp] theorem State.raise_cursor (e : CmdError) : (s.raise e).cursor = s.cursor := rfl
@[simp] theorem State.raise_root (e : CmdError) : (s.raise e).root = s.root := rfl
@[simp] theorem State.raise_nodeCount (e : CmdError) : (s.raise e).nodeCount = s.nodeCount := rfl
@[simp] theorem State.raise_freq (e : CmdError) : (s.raise e).freq = s.freq := rfl
@[simp] theorem State.raise_nodes (e : CmdError) : (s.raise e).nodes = s.nodes := rfl
@[simp] theorem State.raise_pq (e : CmdError) : (s.raise e).pq = s.pq := rfl
@[simp] theorem State.raise_codes (e : CmdError) : (s.raise e).codes = s.codes := rfl
@[simp] theorem State.raise_dmem (e : CmdError) : (s.raise e).dmem = s.dmem := rfl
@[simp] theorem State.raise_dmemTop (e : CmdError) : (s.raise e).dmemTop = s.dmemTop := rfl
@[simp] theorem State.raise_dmemBytes (e : CmdError) : (s.raise e).dmemBytes = s.dmemBytes := rfl
@[simp] theorem State.raise_dmemEpoch (e : CmdError) : (s.raise e).dmemEpoch = s.dmemEpoch := rfl
@[simp] theorem State.raise_storeEpoch (e : CmdError) : (s.raise e).storeEpoch = s.storeEpoch := rfl
@[simp] theorem State.raise_draws (e : CmdError) : (s.raise e).draws = s.draws := rfl
@[simp] theorem State.raise_script (e : CmdError) : (s.raise e).script = s.script := rfl
@[simp] theorem State.raise_seen (e : CmdError) : (s.raise e).seen = s.seen := rfl
@[simp] theorem State.raise_node (e : CmdError) (i : Nat) : (s.raise e).node i = s.node i := rfl
@[simp] theorem State.raise_code (e : CmdError) (x : Byte) : (s.raise e).code x = s.code x := rfl
@[simp] theorem State.raise_readByte (e : CmdError) (a : Nat) : (s.raise e).readByte a = s.readByte a := rfl
@[simp] theorem State.raise_readBit (e : CmdError) (a : Nat) : (s.raise e).readBit a = s.readBit a := rfl

/-! ### writeBits -/

@[simp] theorem State.writeBits_pending (b : Nat) (p : Bits) : (s.writeBits b p).pending = s.pending := rfl
@[simp] theorem State.writeBits_err (b : Nat) (p : Bits) : (s.writeBits b p).err = s.err := rfl
@[simp] theorem State.writeBits_errCode (b : Nat) (p : Bits) : (s.writeBits b p).errCode = s.errCode := rfl
@[simp] theorem State.writeBits_treeValid (b : Nat) (p : Bits) : (s.writeBits b p).treeValid = s.treeValid := rfl
@[simp] theorem State.writeBits_overrun (b : Nat) (p : Bits) : (s.writeBits b p).overrun = s.overrun := rfl
@[simp] theorem State.writeBits_errInfo (b : Nat) (p : Bits) : (s.writeBits b p).errInfo = s.errInfo := rfl
@[simp] theorem State.writeBits_a0 (b : Nat) (p : Bits) : (s.writeBits b p).a0 = s.a0 := rfl
@[simp] theorem State.writeBits_a1 (b : Nat) (p : Bits) : (s.writeBits b p).a1 = s.a1 := rfl
@[simp] theorem State.writeBits_a2 (b : Nat) (p : Bits) : (s.writeBits b p).a2 = s.a2 := rfl
@[simp] theorem State.writeBits_a3 (b : Nat) (p : Bits) : (s.writeBits b p).a3 = s.a3 := rfl
@[simp] theorem State.writeBits_q0 (b : Nat) (p : Bits) : (s.writeBits b p).q0 = s.q0 := rfl
@[simp] theorem State.writeBits_q1 (b : Nat) (p : Bits) : (s.writeBits b p).q1 = s.q1 := rfl
@[simp] theorem State.writeBits_q2 (b : Nat) (p : Bits) : (s.writeBits b p).q2 = s.q2 := rfl
@[simp] theorem State.writeBits_cursor (b : Nat) (p : Bits) : (s.writeBits b p).cursor = s.cursor := rfl
@[simp] theorem State.writeBits_root (b : Nat) (p : Bits) : (s.writeBits b p).root = s.root := rfl
@[simp] theorem State.writeBits_nodeCount (b : Nat) (p : Bits) : (s.writeBits b p).nodeCount = s.nodeCount := rfl
@[simp] theorem State.writeBits_freq (b : Nat) (p : Bits) : (s.writeBits b p).freq = s.freq := rfl
@[simp] theorem State.writeBits_nodes (b : Nat) (p : Bits) : (s.writeBits b p).nodes = s.nodes := rfl
@[simp] theorem State.writeBits_pq (b : Nat) (p : Bits) : (s.writeBits b p).pq = s.pq := rfl
@[simp] theorem State.writeBits_codes (b : Nat) (p : Bits) : (s.writeBits b p).codes = s.codes := rfl
@[simp] theorem State.writeBits_dmem (b : Nat) (p : Bits) : (s.writeBits b p).dmem = Memory.writeBits s.dmemEpoch s.dmem b p := rfl
@[simp] theorem State.writeBits_dmemTop (b : Nat) (p : Bits) : (s.writeBits b p).dmemTop = s.dmemTop := rfl
@[simp] theorem State.writeBits_dmemBytes (b : Nat) (p : Bits) : (s.writeBits b p).dmemBytes = s.dmemBytes := rfl
@[simp] theorem State.writeBits_dmemEpoch (b : Nat) (p : Bits) : (s.writeBits b p).dmemEpoch = s.dmemEpoch := rfl
@[simp] theorem State.writeBits_storeEpoch (b : Nat) (p : Bits) : (s.writeBits b p).storeEpoch = s.storeEpoch := rfl
@[simp] theorem State.writeBits_draws (b : Nat) (p : Bits) : (s.writeBits b p).draws = s.draws := rfl
@[simp] theorem State.writeBits_script (b : Nat) (p : Bits) : (s.writeBits b p).script = s.script := rfl
@[simp] theorem State.writeBits_seen (b : Nat) (p : Bits) : (s.writeBits b p).seen = s.seen := rfl
@[simp] theorem State.writeBits_node (b : Nat) (p : Bits) (i : Nat) : (s.writeBits b p).node i = s.node i := rfl
@[simp] theorem State.writeBits_code (b : Nat) (p : Bits) (x : Byte) : (s.writeBits b p).code x = s.code x := rfl
@[simp] theorem State.writeBits_args (b : Nat) (p : Bits) : (s.writeBits b p).args = s.args := rfl
@[simp] theorem State.writeBits_busy (b : Nat) (p : Bits) : (s.writeBits b p).busy = s.busy := rfl

/-! ### writeBytes -/

@[simp] theorem State.writeBytes_pending (a : Nat) (vs : List Byte) : (s.writeBytes a vs).pending = s.pending := rfl
@[simp] theorem State.writeBytes_err (a : Nat) (vs : List Byte) : (s.writeBytes a vs).err = s.err := rfl
@[simp] theorem State.writeBytes_errCode (a : Nat) (vs : List Byte) : (s.writeBytes a vs).errCode = s.errCode := rfl
@[simp] theorem State.writeBytes_treeValid (a : Nat) (vs : List Byte) : (s.writeBytes a vs).treeValid = s.treeValid := rfl
@[simp] theorem State.writeBytes_overrun (a : Nat) (vs : List Byte) : (s.writeBytes a vs).overrun = s.overrun := rfl
@[simp] theorem State.writeBytes_errInfo (a : Nat) (vs : List Byte) : (s.writeBytes a vs).errInfo = s.errInfo := rfl
@[simp] theorem State.writeBytes_a0 (a : Nat) (vs : List Byte) : (s.writeBytes a vs).a0 = s.a0 := rfl
@[simp] theorem State.writeBytes_a1 (a : Nat) (vs : List Byte) : (s.writeBytes a vs).a1 = s.a1 := rfl
@[simp] theorem State.writeBytes_a2 (a : Nat) (vs : List Byte) : (s.writeBytes a vs).a2 = s.a2 := rfl
@[simp] theorem State.writeBytes_a3 (a : Nat) (vs : List Byte) : (s.writeBytes a vs).a3 = s.a3 := rfl
@[simp] theorem State.writeBytes_q0 (a : Nat) (vs : List Byte) : (s.writeBytes a vs).q0 = s.q0 := rfl
@[simp] theorem State.writeBytes_q1 (a : Nat) (vs : List Byte) : (s.writeBytes a vs).q1 = s.q1 := rfl
@[simp] theorem State.writeBytes_q2 (a : Nat) (vs : List Byte) : (s.writeBytes a vs).q2 = s.q2 := rfl
@[simp] theorem State.writeBytes_cursor (a : Nat) (vs : List Byte) : (s.writeBytes a vs).cursor = s.cursor := rfl
@[simp] theorem State.writeBytes_root (a : Nat) (vs : List Byte) : (s.writeBytes a vs).root = s.root := rfl
@[simp] theorem State.writeBytes_nodeCount (a : Nat) (vs : List Byte) : (s.writeBytes a vs).nodeCount = s.nodeCount := rfl
@[simp] theorem State.writeBytes_freq (a : Nat) (vs : List Byte) : (s.writeBytes a vs).freq = s.freq := rfl
@[simp] theorem State.writeBytes_nodes (a : Nat) (vs : List Byte) : (s.writeBytes a vs).nodes = s.nodes := rfl
@[simp] theorem State.writeBytes_pq (a : Nat) (vs : List Byte) : (s.writeBytes a vs).pq = s.pq := rfl
@[simp] theorem State.writeBytes_codes (a : Nat) (vs : List Byte) : (s.writeBytes a vs).codes = s.codes := rfl
@[simp] theorem State.writeBytes_dmem (a : Nat) (vs : List Byte) : (s.writeBytes a vs).dmem = Memory.writeBytes s.dmem a vs := rfl
@[simp] theorem State.writeBytes_dmemTop (a : Nat) (vs : List Byte) : (s.writeBytes a vs).dmemTop = s.dmemTop := rfl
@[simp] theorem State.writeBytes_dmemBytes (a : Nat) (vs : List Byte) : (s.writeBytes a vs).dmemBytes = s.dmemBytes := rfl
@[simp] theorem State.writeBytes_dmemEpoch (a : Nat) (vs : List Byte) : (s.writeBytes a vs).dmemEpoch = s.dmemEpoch := rfl
@[simp] theorem State.writeBytes_storeEpoch (a : Nat) (vs : List Byte) : (s.writeBytes a vs).storeEpoch = s.storeEpoch := rfl
@[simp] theorem State.writeBytes_draws (a : Nat) (vs : List Byte) : (s.writeBytes a vs).draws = s.draws := rfl
@[simp] theorem State.writeBytes_script (a : Nat) (vs : List Byte) : (s.writeBytes a vs).script = s.script := rfl
@[simp] theorem State.writeBytes_seen (a : Nat) (vs : List Byte) : (s.writeBytes a vs).seen = s.seen := rfl
@[simp] theorem State.writeBytes_node (a : Nat) (vs : List Byte) (i : Nat) : (s.writeBytes a vs).node i = s.node i := rfl
@[simp] theorem State.writeBytes_code (a : Nat) (vs : List Byte) (x : Byte) : (s.writeBytes a vs).code x = s.code x := rfl
@[simp] theorem State.writeBytes_args (a : Nat) (vs : List Byte) : (s.writeBytes a vs).args = s.args := rfl
@[simp] theorem State.writeBytes_busy (a : Nat) (vs : List Byte) : (s.writeBytes a vs).busy = s.busy := rfl

/-! ### hardReset -/

@[simp] theorem State.hardReset_pending : (s.hardReset).pending = none := rfl
@[simp] theorem State.hardReset_err : (s.hardReset).err = false := rfl
@[simp] theorem State.hardReset_errCode : (s.hardReset).errCode = 0 := rfl
@[simp] theorem State.hardReset_treeValid : (s.hardReset).treeValid = false := rfl
@[simp] theorem State.hardReset_overrun : (s.hardReset).overrun = false := rfl
@[simp] theorem State.hardReset_errInfo : (s.hardReset).errInfo = 0 := rfl
@[simp] theorem State.hardReset_a0 : (s.hardReset).a0 = 0 := rfl
@[simp] theorem State.hardReset_a1 : (s.hardReset).a1 = 0 := rfl
@[simp] theorem State.hardReset_a2 : (s.hardReset).a2 = 0 := rfl
@[simp] theorem State.hardReset_a3 : (s.hardReset).a3 = 0 := rfl
@[simp] theorem State.hardReset_q0 : (s.hardReset).q0 = 0 := rfl
@[simp] theorem State.hardReset_q1 : (s.hardReset).q1 = 0 := rfl
@[simp] theorem State.hardReset_q2 : (s.hardReset).q2 = 0 := rfl
@[simp] theorem State.hardReset_cursor : (s.hardReset).cursor = 0 := rfl
@[simp] theorem State.hardReset_root : (s.hardReset).root = 0 := rfl
@[simp] theorem State.hardReset_nodeCount : (s.hardReset).nodeCount = 0 := rfl
@[simp] theorem State.hardReset_freq : (s.hardReset).freq = Vector.replicate 256 0 := rfl
@[simp] theorem State.hardReset_nodes : (s.hardReset).nodes = [] := rfl
@[simp] theorem State.hardReset_pq : (s.hardReset).pq = [] := rfl
@[simp] theorem State.hardReset_codes : (s.hardReset).codes = none := rfl
@[simp] theorem State.hardReset_dmem : (s.hardReset).dmem = [] := rfl
@[simp] theorem State.hardReset_dmemTop : (s.hardReset).dmemTop = s.dmemTop := rfl
@[simp] theorem State.hardReset_dmemBytes : (s.hardReset).dmemBytes = s.dmemBytes := rfl
@[simp] theorem State.hardReset_dmemEpoch : (s.hardReset).dmemEpoch = s.dmemEpoch + 1 := rfl
@[simp] theorem State.hardReset_storeEpoch : (s.hardReset).storeEpoch = s.storeEpoch + 1 := rfl
@[simp] theorem State.hardReset_draws : (s.hardReset).draws = s.draws := rfl
@[simp] theorem State.hardReset_script : (s.hardReset).script = s.script := rfl
@[simp] theorem State.hardReset_seen : (s.hardReset).seen = s.seen := rfl

/-! ### observe -/

@[simp] theorem State.observe_pending (v : Word) : (s.observe v).pending = s.pending := rfl
@[simp] theorem State.observe_err (v : Word) : (s.observe v).err = s.err := rfl
@[simp] theorem State.observe_errCode (v : Word) : (s.observe v).errCode = s.errCode := rfl
@[simp] theorem State.observe_treeValid (v : Word) : (s.observe v).treeValid = s.treeValid := rfl
@[simp] theorem State.observe_overrun (v : Word) : (s.observe v).overrun = s.overrun := rfl
@[simp] theorem State.observe_errInfo (v : Word) : (s.observe v).errInfo = s.errInfo := rfl
@[simp] theorem State.observe_a0 (v : Word) : (s.observe v).a0 = s.a0 := rfl
@[simp] theorem State.observe_a1 (v : Word) : (s.observe v).a1 = s.a1 := rfl
@[simp] theorem State.observe_a2 (v : Word) : (s.observe v).a2 = s.a2 := rfl
@[simp] theorem State.observe_a3 (v : Word) : (s.observe v).a3 = s.a3 := rfl
@[simp] theorem State.observe_q0 (v : Word) : (s.observe v).q0 = s.q0 := rfl
@[simp] theorem State.observe_q1 (v : Word) : (s.observe v).q1 = s.q1 := rfl
@[simp] theorem State.observe_q2 (v : Word) : (s.observe v).q2 = s.q2 := rfl
@[simp] theorem State.observe_cursor (v : Word) : (s.observe v).cursor = s.cursor := rfl
@[simp] theorem State.observe_root (v : Word) : (s.observe v).root = s.root := rfl
@[simp] theorem State.observe_nodeCount (v : Word) : (s.observe v).nodeCount = s.nodeCount := rfl
@[simp] theorem State.observe_freq (v : Word) : (s.observe v).freq = s.freq := rfl
@[simp] theorem State.observe_nodes (v : Word) : (s.observe v).nodes = s.nodes := rfl
@[simp] theorem State.observe_pq (v : Word) : (s.observe v).pq = s.pq := rfl
@[simp] theorem State.observe_codes (v : Word) : (s.observe v).codes = s.codes := rfl
@[simp] theorem State.observe_dmem (v : Word) : (s.observe v).dmem = s.dmem := rfl
@[simp] theorem State.observe_dmemTop (v : Word) : (s.observe v).dmemTop = s.dmemTop := rfl
@[simp] theorem State.observe_dmemBytes (v : Word) : (s.observe v).dmemBytes = s.dmemBytes := rfl
@[simp] theorem State.observe_dmemEpoch (v : Word) : (s.observe v).dmemEpoch = s.dmemEpoch := rfl
@[simp] theorem State.observe_storeEpoch (v : Word) : (s.observe v).storeEpoch = s.storeEpoch := rfl
@[simp] theorem State.observe_draws (v : Word) : (s.observe v).draws = s.draws := rfl
@[simp] theorem State.observe_script (v : Word) : (s.observe v).script = s.script := rfl
@[simp] theorem State.observe_seen (v : Word) : (s.observe v).seen = v :: s.seen := rfl
@[simp] theorem State.observe_node (v : Word) (i : Nat) : (s.observe v).node i = s.node i := rfl
@[simp] theorem State.observe_code (v : Word) (x : Byte) : (s.observe v).code x = s.code x := rfl
@[simp] theorem State.observe_args (v : Word) : (s.observe v).args = s.args := rfl
@[simp] theorem State.observe_busy (v : Word) : (s.observe v).busy = s.busy := rfl
@[simp] theorem State.observe_readByte (v : Word) (a : Nat) : (s.observe v).readByte a = s.readByte a := rfl
@[simp] theorem State.observe_readBit (v : Word) (a : Nat) : (s.observe v).readBit a = s.readBit a := rfl

/-! ### countDraw -/

@[simp] theorem State.countDraw_pending (b : Bool) : (s.countDraw b).pending = s.pending := rfl
@[simp] theorem State.countDraw_err (b : Bool) : (s.countDraw b).err = s.err := rfl
@[simp] theorem State.countDraw_errCode (b : Bool) : (s.countDraw b).errCode = s.errCode := rfl
@[simp] theorem State.countDraw_treeValid (b : Bool) : (s.countDraw b).treeValid = s.treeValid := rfl
@[simp] theorem State.countDraw_overrun (b : Bool) : (s.countDraw b).overrun = s.overrun := rfl
@[simp] theorem State.countDraw_errInfo (b : Bool) : (s.countDraw b).errInfo = s.errInfo := rfl
@[simp] theorem State.countDraw_a0 (b : Bool) : (s.countDraw b).a0 = s.a0 := rfl
@[simp] theorem State.countDraw_a1 (b : Bool) : (s.countDraw b).a1 = s.a1 := rfl
@[simp] theorem State.countDraw_a2 (b : Bool) : (s.countDraw b).a2 = s.a2 := rfl
@[simp] theorem State.countDraw_a3 (b : Bool) : (s.countDraw b).a3 = s.a3 := rfl
@[simp] theorem State.countDraw_q0 (b : Bool) : (s.countDraw b).q0 = s.q0 := rfl
@[simp] theorem State.countDraw_q1 (b : Bool) : (s.countDraw b).q1 = s.q1 := rfl
@[simp] theorem State.countDraw_q2 (b : Bool) : (s.countDraw b).q2 = s.q2 := rfl
@[simp] theorem State.countDraw_cursor (b : Bool) : (s.countDraw b).cursor = s.cursor := rfl
@[simp] theorem State.countDraw_root (b : Bool) : (s.countDraw b).root = s.root := rfl
@[simp] theorem State.countDraw_nodeCount (b : Bool) : (s.countDraw b).nodeCount = s.nodeCount := rfl
@[simp] theorem State.countDraw_freq (b : Bool) : (s.countDraw b).freq = s.freq := rfl
@[simp] theorem State.countDraw_nodes (b : Bool) : (s.countDraw b).nodes = s.nodes := rfl
@[simp] theorem State.countDraw_pq (b : Bool) : (s.countDraw b).pq = s.pq := rfl
@[simp] theorem State.countDraw_codes (b : Bool) : (s.countDraw b).codes = s.codes := rfl
@[simp] theorem State.countDraw_dmem (b : Bool) : (s.countDraw b).dmem = s.dmem := rfl
@[simp] theorem State.countDraw_dmemTop (b : Bool) : (s.countDraw b).dmemTop = s.dmemTop := rfl
@[simp] theorem State.countDraw_dmemBytes (b : Bool) : (s.countDraw b).dmemBytes = s.dmemBytes := rfl
@[simp] theorem State.countDraw_dmemEpoch (b : Bool) : (s.countDraw b).dmemEpoch = s.dmemEpoch := rfl
@[simp] theorem State.countDraw_storeEpoch (b : Bool) : (s.countDraw b).storeEpoch = s.storeEpoch := rfl
@[simp] theorem State.countDraw_draws (b : Bool) : (s.countDraw b).draws = s.draws + b.toNat := rfl
@[simp] theorem State.countDraw_script (b : Bool) : (s.countDraw b).script = s.script := rfl
@[simp] theorem State.countDraw_seen (b : Bool) : (s.countDraw b).seen = s.seen := rfl
@[simp] theorem State.countDraw_node (b : Bool) (i : Nat) : (s.countDraw b).node i = s.node i := rfl
@[simp] theorem State.countDraw_code (b : Bool) (x : Byte) : (s.countDraw b).code x = s.code x := rfl
@[simp] theorem State.countDraw_args (b : Bool) : (s.countDraw b).args = s.args := rfl
@[simp] theorem State.countDraw_busy (b : Bool) : (s.countDraw b).busy = s.busy := rfl
@[simp] theorem State.countDraw_readByte (b : Bool) (a : Nat) : (s.countDraw b).readByte a = s.readByte a := rfl
@[simp] theorem State.countDraw_readBit (b : Bool) (a : Nat) : (s.countDraw b).readBit a = s.readBit a := rfl

/-! ### setScript -/

@[simp] theorem State.setScript_pending (l : List HostLine) : (s.setScript l).pending = s.pending := rfl
@[simp] theorem State.setScript_err (l : List HostLine) : (s.setScript l).err = s.err := rfl
@[simp] theorem State.setScript_errCode (l : List HostLine) : (s.setScript l).errCode = s.errCode := rfl
@[simp] theorem State.setScript_treeValid (l : List HostLine) : (s.setScript l).treeValid = s.treeValid := rfl
@[simp] theorem State.setScript_overrun (l : List HostLine) : (s.setScript l).overrun = s.overrun := rfl
@[simp] theorem State.setScript_errInfo (l : List HostLine) : (s.setScript l).errInfo = s.errInfo := rfl
@[simp] theorem State.setScript_a0 (l : List HostLine) : (s.setScript l).a0 = s.a0 := rfl
@[simp] theorem State.setScript_a1 (l : List HostLine) : (s.setScript l).a1 = s.a1 := rfl
@[simp] theorem State.setScript_a2 (l : List HostLine) : (s.setScript l).a2 = s.a2 := rfl
@[simp] theorem State.setScript_a3 (l : List HostLine) : (s.setScript l).a3 = s.a3 := rfl
@[simp] theorem State.setScript_q0 (l : List HostLine) : (s.setScript l).q0 = s.q0 := rfl
@[simp] theorem State.setScript_q1 (l : List HostLine) : (s.setScript l).q1 = s.q1 := rfl
@[simp] theorem State.setScript_q2 (l : List HostLine) : (s.setScript l).q2 = s.q2 := rfl
@[simp] theorem State.setScript_cursor (l : List HostLine) : (s.setScript l).cursor = s.cursor := rfl
@[simp] theorem State.setScript_root (l : List HostLine) : (s.setScript l).root = s.root := rfl
@[simp] theorem State.setScript_nodeCount (l : List HostLine) : (s.setScript l).nodeCount = s.nodeCount := rfl
@[simp] theorem State.setScript_freq (l : List HostLine) : (s.setScript l).freq = s.freq := rfl
@[simp] theorem State.setScript_nodes (l : List HostLine) : (s.setScript l).nodes = s.nodes := rfl
@[simp] theorem State.setScript_pq (l : List HostLine) : (s.setScript l).pq = s.pq := rfl
@[simp] theorem State.setScript_codes (l : List HostLine) : (s.setScript l).codes = s.codes := rfl
@[simp] theorem State.setScript_dmem (l : List HostLine) : (s.setScript l).dmem = s.dmem := rfl
@[simp] theorem State.setScript_dmemTop (l : List HostLine) : (s.setScript l).dmemTop = s.dmemTop := rfl
@[simp] theorem State.setScript_dmemBytes (l : List HostLine) : (s.setScript l).dmemBytes = s.dmemBytes := rfl
@[simp] theorem State.setScript_dmemEpoch (l : List HostLine) : (s.setScript l).dmemEpoch = s.dmemEpoch := rfl
@[simp] theorem State.setScript_storeEpoch (l : List HostLine) : (s.setScript l).storeEpoch = s.storeEpoch := rfl
@[simp] theorem State.setScript_draws (l : List HostLine) : (s.setScript l).draws = s.draws := rfl
@[simp] theorem State.setScript_script (l : List HostLine) : (s.setScript l).script = l := rfl
@[simp] theorem State.setScript_seen (l : List HostLine) : (s.setScript l).seen = s.seen := rfl
@[simp] theorem State.setScript_node (l : List HostLine) (i : Nat) : (s.setScript l).node i = s.node i := rfl
@[simp] theorem State.setScript_code (l : List HostLine) (x : Byte) : (s.setScript l).code x = s.code x := rfl
@[simp] theorem State.setScript_args (l : List HostLine) : (s.setScript l).args = s.args := rfl
@[simp] theorem State.setScript_busy (l : List HostLine) : (s.setScript l).busy = s.busy := rfl
@[simp] theorem State.setScript_readByte (l : List HostLine) (a : Nat) : (s.setScript l).readByte a = s.readByte a := rfl
@[simp] theorem State.setScript_readBit (l : List HostLine) (a : Nat) : (s.setScript l).readBit a = s.readBit a := rfl

/-! ### resetWith -/

@[simp] theorem State.resetWith_pending (top : Fin Config.dmemBytesMax) :
    (State.resetWith top).pending = none := rfl
@[simp] theorem State.resetWith_err (top : Fin Config.dmemBytesMax) :
    (State.resetWith top).err = false := rfl
@[simp] theorem State.resetWith_treeValid (top : Fin Config.dmemBytesMax) :
    (State.resetWith top).treeValid = false := rfl
@[simp] theorem State.resetWith_overrun (top : Fin Config.dmemBytesMax) :
    (State.resetWith top).overrun = false := rfl
@[simp] theorem State.resetWith_nodes (top : Fin Config.dmemBytesMax) :
    (State.resetWith top).nodes = [] := rfl
@[simp] theorem State.resetWith_pq (top : Fin Config.dmemBytesMax) :
    (State.resetWith top).pq = [] := rfl
@[simp] theorem State.resetWith_codes (top : Fin Config.dmemBytesMax) :
    (State.resetWith top).codes = none := rfl
@[simp] theorem State.resetWith_dmem (top : Fin Config.dmemBytesMax) :
    (State.resetWith top).dmem = [] := rfl
@[simp] theorem State.resetWith_freq (top : Fin Config.dmemBytesMax) :
    (State.resetWith top).freq = Vector.replicate 256 0 := rfl
@[simp] theorem State.resetWith_errCode (top : Fin Config.dmemBytesMax) :
    (State.resetWith top).errCode = 0 := rfl
@[simp] theorem State.resetWith_errInfo (top : Fin Config.dmemBytesMax) :
    (State.resetWith top).errInfo = 0 := rfl
@[simp] theorem State.resetWith_a0 (top : Fin Config.dmemBytesMax) :
    (State.resetWith top).a0 = 0 := rfl
@[simp] theorem State.resetWith_a1 (top : Fin Config.dmemBytesMax) :
    (State.resetWith top).a1 = 0 := rfl
@[simp] theorem State.resetWith_a2 (top : Fin Config.dmemBytesMax) :
    (State.resetWith top).a2 = 0 := rfl
@[simp] theorem State.resetWith_a3 (top : Fin Config.dmemBytesMax) :
    (State.resetWith top).a3 = 0 := rfl
@[simp] theorem State.resetWith_q0 (top : Fin Config.dmemBytesMax) :
    (State.resetWith top).q0 = 0 := rfl
@[simp] theorem State.resetWith_q1 (top : Fin Config.dmemBytesMax) :
    (State.resetWith top).q1 = 0 := rfl
@[simp] theorem State.resetWith_q2 (top : Fin Config.dmemBytesMax) :
    (State.resetWith top).q2 = 0 := rfl
@[simp] theorem State.resetWith_cursor (top : Fin Config.dmemBytesMax) :
    (State.resetWith top).cursor = 0 := rfl
@[simp] theorem State.resetWith_root (top : Fin Config.dmemBytesMax) :
    (State.resetWith top).root = 0 := rfl
@[simp] theorem State.resetWith_nodeCount (top : Fin Config.dmemBytesMax) :
    (State.resetWith top).nodeCount = 0 := rfl
@[simp] theorem State.resetWith_dmemTop (top : Fin Config.dmemBytesMax) :
    (State.resetWith top).dmemTop = top := rfl
@[simp] theorem State.resetWith_dmemEpoch (top : Fin Config.dmemBytesMax) :
    (State.resetWith top).dmemEpoch = 0 := rfl
@[simp] theorem State.resetWith_storeEpoch (top : Fin Config.dmemBytesMax) :
    (State.resetWith top).storeEpoch = 0 := rfl
@[simp] theorem State.resetWith_draws (top : Fin Config.dmemBytesMax) :
    (State.resetWith top).draws = 0 := rfl
@[simp] theorem State.resetWith_script (top : Fin Config.dmemBytesMax) :
    (State.resetWith top).script = [] := rfl
@[simp] theorem State.resetWith_seen (top : Fin Config.dmemBytesMax) :
    (State.resetWith top).seen = [] := rfl
@[simp] theorem State.resetWith_dmemBytes (top : Fin Config.dmemBytesMax) :
    (State.resetWith top).dmemBytes = top.val + 1 := rfl

/-! ### Views under the updates that touch them -/

@[simp] theorem State.setCodes_code (t : Vector Bits 256) (x : Byte) : (s.setCodes t).code x = t.get x.toFin := rfl
@[simp] theorem State.installTree_node (ns : List Node) (r : NodeIndex) (i : Nat) :
    (s.installTree ns r).node i = (ns[i]?).getD (Config.freeNode s.storeEpoch i) := rfl
@[simp] theorem State.issue_args (w : Word) : (s.issue w).args = s.argRegs := rfl
@[simp] theorem State.issue_busy (w : Word) : (s.issue w).busy = true := rfl
@[simp] theorem State.complete_busy : s.complete.busy = false := rfl
@[simp] theorem State.raise_busy (e : CmdError) : (s.raise e).busy = false := rfl

end Updates

end Sys2Proof.Machine
end

