-- ==== Sys2Proof/Laws/Outcome.lean ====
section
/-! SUPPORT. What an outcome can be: the two endings of a command, and for each command every case it can end
in, so that a claim about a next state need not unfold a meaning. -/

namespace Sys2Proof.Machine

@[simp] theorem succeed_next (s t : State) : succeed s = .next t ↔ t = s.complete := by
  simp [succeed, eq_comm]

@[simp] theorem failWith_next (s t : State) (e : CmdError) : failWith s e = .next t ↔ t = s.raise e := by
  simp [failWith, eq_comm]

/-- Whatever the error, its code is one of 1 to 8 (60_exceptions R301). -/
theorem CmdError.code_range (e : CmdError) : 1 ≤ e.code.toNat ∧ e.code.toNat ≤ 8 := by
  cases e <;> simp [CmdError.code]

/-! ## Steps -/

/-- Everything a host action that gives a next state can have done. -/
theorem hostAct_cases {a : HostAction} {s t : State} (h : hostAct a s = .next t) :
    (∃ width o v, a = .writeReg width o v ∧ t = s.writeWindow o v) ∨
    (∃ v taken, t = (s.observe v).countDraw taken) ∨
    (∃ addr bytes, a = .writeMem addr bytes ∧ s.busy = false ∧ addr.toNat + bytes.length ≤ s.dmemBytes ∧
      t = s.writeBytes addr.toNat bytes) ∨
    (∃ l, (a = .wait ∨ ∃ addr, a = .writeMem addr []) ∧ t = s.setScript l) ∨ (a = .hardReset ∧ t = s.hardReset) := by
  cases a with
  | writeReg width o v =>
    simp only [hostAct] at h
    split at h
    · injection h with h
      exact .inl ⟨_, _, _, rfl, h.symm⟩
    · simp at h
  | readReg width o =>
    simp only [hostAct] at h
    split at h
    · injection h with h
      exact .inr (.inl ⟨_, _, h.symm⟩)
    · simp at h
  | writeMem addr bytes =>
    simp only [hostAct] at h
    split at h
    next he =>
      injection h with h
      exact .inr (.inr (.inr (.inl ⟨s.script, .inr ⟨addr, by rw [List.isEmpty_iff.mp he]⟩, h.symm⟩)))
    next =>
      split at h
      · simp at h
      next hb =>
        split at h
        next hr =>
          injection h with h
          exact .inr (.inr (.inl ⟨_, _, rfl, eq_false_of_ne_true hb, hr, h.symm⟩))
        next => simp at h
  | readMem addr =>
    simp only [hostAct] at h
    split at h
    · simp at h
    · split at h
      · injection h with h
        exact .inr (.inl ⟨_, false, h.symm⟩)
      · simp at h
  | wait =>
    simp only [hostAct] at h
    split at h
    · injection h with h
      exact .inr (.inr (.inr (.inl ⟨_, .inl rfl, h.symm⟩)))
    · injection h with h
      exact .inr (.inr (.inr (.inl ⟨s.script, .inl rfl, h.symm⟩)))
  | hardReset =>
    injection h with h
    exact .inr (.inr (.inr (.inr ⟨rfl, h.symm⟩)))

/-- Everything a host move that gives a next state can have been. -/
theorem hostMove_cases {s t : State} (h : hostMove s = .next t) :
    (s.script = [] ∧ t = s) ∨
    ∃ l rest, s.script = l :: rest ∧ hostAct l.action (s.setScript rest) = .next t := by
  unfold hostMove at h
  split at h
  next hs =>
    injection h with h
    exact .inl ⟨hs, h.symm⟩
  next l rest hs => exact .inr ⟨l, rest, hs, h⟩

/-- Everything a step that gives a next state can have been: the pending command, an illegal word, or a host
move. -/
theorem step_cases {s t : State} (h : step s = .next t) :
    (∃ p i, s.pending = some p ∧ s.hostEarly = false ∧ decode p.word = .ok i ∧ exec i s = .next t) ∨
    (∃ p, s.pending = some p ∧ t = s.raise (.illegalCommand p.word)) ∨
    (s.script = [] ∧ t = s) ∨
    ∃ l rest, s.script = l :: rest ∧ hostAct l.action (s.setScript rest) = .next t := by
  unfold step at h
  split at h
  next hp => exact .inr (.inr (hostMove_cases h))
  next p hp =>
    split at h
    next => exact .inr (.inr (hostMove_cases h))
    next he =>
      split at h
      next i hd => exact .inl ⟨p, i, hp, eq_false_of_ne_true he, hd, h⟩
      next => exact .inr (.inl ⟨p, hp, (failWith_next _ _ _).1 h⟩)

/-- What a register write can do: issue, set `OVERRUN`, write one of `A0..A3`, or nothing. -/
theorem writeWindow_cases (s : State) (o : BitVec 6) (v : Word) :
    s.writeWindow o v = s.issue v ∨ s.writeWindow o v = s.setOverrun true ∨
    ∃ x y z w, s.writeWindow o v = { s with a0 := x, a1 := y, a2 := z, a3 := w } := by
  unfold State.writeWindow State.writeCmd
  split
  · split
    · exact .inr (.inl rfl)
    · exact .inl rfl
  · exact .inr (.inr ⟨v, s.a1, s.a2, s.a3, rfl⟩)
  · exact .inr (.inr ⟨s.a0, v, s.a2, s.a3, rfl⟩)
  · exact .inr (.inr ⟨s.a0, s.a1, v, s.a3, rfl⟩)
  · exact .inr (.inr ⟨s.a0, s.a1, s.a2, v, rfl⟩)
  · exact .inr (.inr ⟨s.a0, s.a1, s.a2, s.a3, rfl⟩)

/-! ## Commands -/

section Cases

variable {s t : State}

theorem execFreqCount_cases (h : execFreqCount s = .next t) :
    (s.byteRegionOk s.args.a0 s.args.a1 = false ∧ t = s.raise (.addressRange 0)) ∨
    (s.byteRegionOk s.args.a0 s.args.a1 = true ∧ ∃ f, t = (((s.setFreq f).setQ0
      (BitVec.ofNat 32 (distinctSymbols f))).setQ1 s.args.a1).complete ∧
      f = countBytes freqEmpty (s.readBytes s.args.a0.toNat s.args.a1.toNat)) := by
  unfold execFreqCount at h
  split at h
  next h1 => exact .inr ⟨h1, _, (succeed_next _ _).1 h, rfl⟩
  next h1 => exact .inl ⟨eq_false_of_ne_true h1, (failWith_next _ _ _).1 h⟩

theorem execTreeBuild_cases (h : execTreeBuild s = .next t) :
    ((presentSymbols s.freq).length = 0 ∧ t = s.raise .emptyInput) ∨
    ((presentSymbols s.freq).length ≠ 0 ∧ t = (s.withBuiltTree.reportBuild (presentSymbols s.freq).length
      (s.withBuiltTree.node s.withBuiltTree.root.toNat).freq).complete) := by
  unfold execTreeBuild at h
  split at h
  next h1 => exact .inl ⟨h1, (failWith_next _ _ _).1 h⟩
  next h1 => exact .inr ⟨h1, (succeed_next _ _).1 h⟩

theorem execNodeRead_cases (h : execNodeRead s = .next t) :
    (∃ e, t = s.raise e) ∨ (s.treeValid = true ∧ ∃ v0 v1 v2, t = (((s.setQ0 v0).setQ1 v1).setQ2 v2).complete) := by
  unfold execNodeRead at h
  split at h
  next => exact .inl ⟨_, (failWith_next _ _ _).1 h⟩
  next h1 =>
    split at h
    next => exact .inl ⟨_, (failWith_next _ _ _).1 h⟩
    next => exact .inr ⟨eq_true_of_ne_false h1, _, _, _, (succeed_next _ _).1 h⟩

theorem execCodeGet_cases {x : Byte} (h : execCodeGet x s = .next t) :
    (∃ e, t = s.raise e) ∨
    (s.treeValid = true ∧ s.bitRegionOk s.args.a0 s.args.a1 = true ∧ s.codeLen x ≤ s.args.a1.toNat ∧
      ∃ v0 v1, t = (((s.writeBits s.args.a0.toNat (s.code x)).setQ0 v0).setQ1 v1).complete) := by
  unfold execCodeGet at h
  split at h
  next => exact .inl ⟨_, (failWith_next _ _ _).1 h⟩
  next h1 =>
    split at h
    next => exact .inl ⟨_, (failWith_next _ _ _).1 h⟩
    next h2 =>
      split at h
      next => exact .inl ⟨_, (failWith_next _ _ _).1 h⟩
      next h3 =>
        exact .inr ⟨eq_true_of_ne_false h1, eq_true_of_ne_false h2, Nat.le_of_not_lt h3, _, _,
          (succeed_next _ _).1 h⟩

theorem execEncode_cases (h : execEncode s = .next t) :
    (∃ v e, t = (s.setQ1 v).raise e ∧ (v = s.q1 ∨ e.code = 2)) ∨
    (s.treeValid = true ∧ s.bitRegionOk s.args.a2 s.args.a3 = true ∧
      ∃ p v0 v1, p.length ≤ s.args.a3.toNat ∧
        t = (((s.writeBits s.args.a2.toNat p).setQ0 v0).setQ1 v1).complete) := by
  unfold execEncode at h
  split at h
  next => exact .inl ⟨s.q1, _, (failWith_next _ _ _).1 h, .inl rfl⟩
  next h1 =>
    split at h
    next => exact .inl ⟨s.q1, _, (failWith_next _ _ _).1 h, .inl rfl⟩
    next =>
      split at h
      next => exact .inl ⟨s.q1, _, (failWith_next _ _ _).1 h, .inl rfl⟩
      next h2 =>
        split at h
        next => simp at h
        next =>
          dsimp only at h
          split at h
          next => exact .inl ⟨_, _, (failWith_next _ _ _).1 h, .inr rfl⟩
          next =>
            split at h
            next => exact .inl ⟨s.q1, _, (failWith_next _ _ _).1 h, .inl rfl⟩
            next h3 =>
              exact .inr ⟨eq_true_of_ne_false h1, eq_true_of_ne_false h2, _, _, _, Nat.le_of_not_lt h3,
                (succeed_next _ _).1 h⟩

theorem execDecReset_cases (h : execDecReset s = .next t) :
    (∃ e, t = s.raise e) ∨ (s.treeValid = true ∧ t = (s.setCursor s.root).complete) := by
  unfold execDecReset at h
  split at h
  next => exact .inl ⟨_, (failWith_next _ _ _).1 h⟩
  next h1 => exact .inr ⟨eq_true_of_ne_false h1, (succeed_next _ _).1 h⟩

theorem execDecStep_cases {v : Byte} (h : execDecStep v s = .next t) :
    (∃ e, t = s.raise e) ∨
    (s.treeValid = true ∧ v.toNat ≤ 1 ∧ t = ((s.setCursor (walk1 s.node s.root s.cursor (v == 1)).2).setQ0
      (emission (walk1 s.node s.root s.cursor (v == 1)).1)).complete) := by
  unfold execDecStep at h
  split at h
  next => exact .inl ⟨_, (failWith_next _ _ _).1 h⟩
  next h1 =>
    split at h
    next => exact .inl ⟨_, (failWith_next _ _ _).1 h⟩
    next h2 => exact .inr ⟨eq_true_of_ne_false h1, Nat.le_of_not_lt h2, (succeed_next _ _).1 h⟩

theorem execDecBulk_cases (h : execDecBulk s = .next t) :
    (∃ e, t = s.raise e) ∨
    (s.treeValid = true ∧ s.byteRegionOk s.args.a2 s.args.a3 = true ∧
      ∃ r v0 v1 v2, r = walkBits s.node s.root s.root (s.readBits s.args.a0.toNat s.args.a1.toNat) ∧
        r.1.length ≤ s.args.a3.toNat ∧
        t = (((((s.writeBytes s.args.a2.toNat r.1).setCursor r.2).setQ0 v0).setQ1 v1).setQ2 v2).complete) := by
  unfold execDecBulk at h
  split at h
  next => exact .inl ⟨_, (failWith_next _ _ _).1 h⟩
  next h1 =>
    split at h
    next => exact .inl ⟨_, (failWith_next _ _ _).1 h⟩
    next =>
      split at h
      next => exact .inl ⟨_, (failWith_next _ _ _).1 h⟩
      next h2 =>
        split at h
        next => simp at h
        next =>
          dsimp only at h
          split at h
          next => exact .inl ⟨_, (failWith_next _ _ _).1 h⟩
          next h3 =>
            exact .inr ⟨eq_true_of_ne_false h1, eq_true_of_ne_false h2, _, _, _, _, rfl, Nat.le_of_not_lt h3,
              (succeed_next _ _).1 h⟩

theorem execTreeSer_cases (h : execTreeSer s = .next t) :
    (∃ e, t = s.raise e) ∨
    (s.treeValid = true ∧ s.bitRegionOk s.args.a0 s.args.a1 = true ∧ s.serialized.length ≤ s.args.a1.toNat ∧
      ∃ v0 v1, t = (((s.writeBits s.args.a0.toNat s.serialized).setQ0 v0).setQ1 v1).complete) := by
  unfold execTreeSer at h
  split at h
  next => exact .inl ⟨_, (failWith_next _ _ _).1 h⟩
  next h1 =>
    split at h
    next => exact .inl ⟨_, (failWith_next _ _ _).1 h⟩
    next h2 =>
      split at h
      next => exact .inl ⟨_, (failWith_next _ _ _).1 h⟩
      next h3 =>
        exact .inr ⟨eq_true_of_ne_false h1, eq_true_of_ne_false h2, Nat.le_of_not_lt h3, _, _,
          (succeed_next _ _).1 h⟩

theorem execTreeDeser_cases (h : execTreeDeser s = .next t) :
    (∃ e, t = s.raise e) ∨
    (s.bitRegionOk s.args.a0 s.args.a1 = true ∧ ∃ i p,
      parseTree (fun j => s.readBit (s.args.a0.toNat + j)) s.args.a1.toNat (Config.nNodes + 1) parseStart =
        .ok (i, p) ∧
      t = (((s.installTree p.fresh 0).generateCodes.setQ0 (BitVec.ofNat 32 p.pos)).setQ1
        (BitVec.ofNat 32 p.seen.length)).complete) := by
  unfold execTreeDeser at h
  split at h
  next => exact .inl ⟨_, (failWith_next _ _ _).1 h⟩
  next h1 =>
    split at h
    next => exact .inl ⟨_, (failWith_next _ _ _).1 h⟩
    next h2 => exact .inr ⟨eq_true_of_ne_false h1, _, _, h2, (succeed_next _ _).1 h⟩

end Cases

end Sys2Proof.Machine
end

