-- ==== Sys2Proof/Laws/Source.lean ====
section
/-! SUPPORT. The bytes a command reads: a region as the list of its reads, the histogram of a list
(41_tree_builder R153), and ENCODE's first pass and output length (43_encoder R221). -/

namespace Sys2Proof.Machine

theorem Memory.readBytes_eq (e : Nat) (m : List Host.Cell) (a n : Nat) :
    Memory.readBytes e m a n = (List.range n).map (fun j => Memory.read e m (a + j)) := by
  apply List.ext_getElem
  · simp
  · intro i h1 h2
    rw [Memory.readBytes_getElem]
    simp

theorem Memory.readBits_eq (e : Nat) (m : List Host.Cell) (b n : Nat) :
    Memory.readBits e m b n = (List.range n).map (fun j => Memory.bitRead e m (b + j)) := by
  apply List.ext_getElem
  · simp
  · intro i h1 h2
    rw [Memory.readBits_getElem]
    simp

/-- Each count of the histogram grows by the number of times its byte value occurs, while no count wraps. -/
theorem countBytes_toNat (f : Vector Word 256) (bs : List Byte) (x : Byte)
    (h : (freqAt f x).toNat + bs.length < 2 ^ 32) :
    (freqAt (countBytes f bs) x).toNat = (freqAt f x).toNat + bs.countP (· == x) := by
  induction bs generalizing f with
  | nil => simp [countBytes]
  | cons b bs ih =>
    simp only [countBytes, List.foldl_cons, List.length_cons] at *
    rw [ih]
    · rw [freqAt_freqSetAt, List.countP_cons]
      by_cases hb : x = b
      · subst hb
        simp [BitVec.toNat_add]
        omega
      · simp [hb, Ne.symm hb]
    · rw [freqAt_freqSetAt]
      split_ifs with hb
      · subst hb
        rw [BitVec.toNat_add]
        simp
        omega
      · omega

theorem firstUncoded_eq (s : State) (xs : List Byte) (j : Nat) :
    firstUncoded s j xs = (xs.find? (fun x => s.codeLen x == 0)).map
      (fun x => (j + xs.findIdx (fun x => s.codeLen x == 0), x)) := by
  induction xs generalizing j with
  | nil => rfl
  | cons x xs ih =>
    unfold firstUncoded
    rw [ih, List.find?_cons, List.findIdx_cons]
    by_cases h : s.codeLen x = 0
    · simp [h]
    · have hb : (s.codeLen x == 0) = false := by simp [h]
      simp only [hb, if_neg h, cond_false]
      congr 1
      ext1 a
      congr 1
      omega

theorem encodeBytes_length (s : State) (xs : List Byte) : (encodeBytes s xs).length = totalCodeBits s xs := by
  unfold encodeBytes totalCodeBits
  simp only [List.length_flatMap]
  rfl

theorem encodeBytes_eq (s : State) (xs : List Byte) : encodeBytes s xs = (xs.map s.code).flatten := by
  unfold encodeBytes
  rw [List.flatMap_def]

end Sys2Proof.Machine
end

