-- ==== Sys2Proof/Laws/Parse.lean ====
section
/-! SUPPORT. The parser of 45_tree_serdes R275 says once what it can do: it succeeds exactly on the encoding of a
tree with new symbols and room in the store, and it lays the tree out in pre-order (R278). -/

namespace Sys2Proof.Machine

/-! ## The pre-order layout (45_tree_serdes R278) -/

/-- The number of nodes. -/
def HTree.size : HTree → Nat
  | .leaf _ => 1
  | .node l r => l.size + r.size + 1

theorem HTree.size_eq (t : HTree) : t.size + 1 = 2 * t.leaves := by
  induction t with
  | leaf x => rfl
  | node l r ihl ihr => simp only [HTree.size, HTree.leaves_node]; omega

theorem HTree.depth_lt_size (t : HTree) : t.depth < t.size := by
  induction t with
  | leaf x => simp [HTree.depth, HTree.size]
  | node l r ihl ihr => simp only [HTree.depth, HTree.size]; omega

/-- The store entries TREE_DESER gives a tree, its root at index `k`. -/
def HTree.layout : Nat → HTree → List Node
  | _, .leaf x => [Node.leaf x 0]
  | k, .node l r =>
    Node.internal (BitVec.ofNat 9 (k + 1)) (BitVec.ofNat 9 (k + 1 + l.size)) 0 ::
      (HTree.layout (k + 1) l ++ HTree.layout (k + 1 + l.size) r)

@[simp] theorem HTree.layout_length (k : Nat) (t : HTree) : (HTree.layout k t).length = t.size := by
  induction t generalizing k with
  | leaf x => rfl
  | node l r ihl ihr =>
    simp only [HTree.layout, HTree.size, List.length_cons, List.length_append, ihl, ihr]

/-- Weights are 0 after TREE_DESER. -/
theorem HTree.layout_freq (k : Nat) (t : HTree) (n : Node) (h : n ∈ HTree.layout k t) : n.freq = 0 := by
  induction t generalizing k with
  | leaf x =>
    obtain rfl := List.mem_singleton.1 h
    rfl
  | node l r ihl ihr =>
    rcases List.mem_cons.1 h with rfl | h
    · rfl
    · rcases List.mem_append.1 h with h | h
      · exact ihl _ h
      · exact ihr _ h

/-- The indices of a tree laid out from `k` on. -/
def HTree.indices (k : Nat) (t : HTree) : List NodeIndex := (List.range t.size).map (fun j => BitVec.ofNat 9 (k + j))

theorem HTree.indices_node (k : Nat) (l r : HTree) :
    HTree.indices k (.node l r) =
      BitVec.ofNat 9 k :: (HTree.indices (k + 1) l ++ HTree.indices (k + 1 + l.size) r) := by
  show (List.range (l.size + r.size + 1)).map (fun j => BitVec.ofNat 9 (k + j)) = _
  unfold HTree.indices
  rw [List.range_succ_eq_map, List.map_cons, List.range_add, List.map_append]
  simp only [List.map_map, List.map_append, Nat.add_zero]
  congr 2
  · apply List.map_congr_left
    intro j _
    simp only [Function.comp_apply]
    congr 1
    omega
  · apply List.map_congr_left
    intro j _
    simp only [Function.comp_apply]
    congr 1
    omega

/-- A store that holds the layout represents the tree. -/
theorem HTree.layout_represents (nd : Nat → Node) (k : Nat) (t : HTree) (hk : k + t.size ≤ 512)
    (h : ∀ j, (hj : j < t.size) → nd (k + j) = (HTree.layout k t)[j]'(by simpa using hj)) :
    Represents nd (BitVec.ofNat 9 k) t (HTree.indices k t) := by
  induction t generalizing k with
  | leaf x =>
    have h0 := h 0 (by simp [HTree.size])
    simp only [HTree.size] at hk
    have hi : (BitVec.ofNat 9 k).toNat = k := by rw [BitVec.toNat_ofNat]; exact Nat.mod_eq_of_lt (by omega)
    refine .leaf _ x ?_ ?_ <;> rw [hi] <;> simpa [HTree.layout, Node.leaf] using congrArg _ h0
  | node l r ihl ihr =>
    simp only [HTree.size] at hk
    have hi : ∀ m, m < 512 → (BitVec.ofNat 9 m).toNat = m := by
      intro m hm
      rw [BitVec.toNat_ofNat]
      exact Nat.mod_eq_of_lt (by omega)
    have h0 : nd k = Node.internal (BitVec.ofNat 9 (k + 1)) (BitVec.ofNat 9 (k + 1 + l.size)) 0 := by
      simpa [HTree.layout] using h 0 (by simp [HTree.size])
    rw [HTree.indices_node]
    have hk' := hi k (by omega)
    refine .node _ l r _ _ ?_ ?_ ?_
    · rw [hk', h0]
      rfl
    · rw [hk', h0]
      refine ihl (k + 1) (by omega) ?_
      intro j hj
      have := h (j + 1) (by simp only [HTree.size]; omega)
      rw [show k + 1 + j = k + (j + 1) by omega, this]
      simp [HTree.layout, hj]
    · rw [hk', h0]
      refine ihr (k + 1 + l.size) (by omega) ?_
      intro j hj
      have := h (l.size + j + 1) (by simp only [HTree.size]; omega)
      rw [show k + 1 + l.size + j = k + (l.size + j + 1) by omega, this]
      simp [HTree.layout, List.getElem_append_right]

/-! ## The parser -/

/-- The parse state after a tree. -/
def ParseState.after (ps : ParseState) (t : HTree) : ParseState :=
  { pos := ps.pos + t.bits.length, fresh := ps.fresh ++ HTree.layout ps.fresh.length t,
    seen := t.symbols.reverse ++ ps.seen }

/-- The tree's encoding stands at the parse position, inside the region, and its nodes fit in the store. -/
def Parsable (bit : Nat → Bool) (len : Nat) (ps : ParseState) (t : HTree) : Prop :=
  ps.pos + t.bits.length ≤ len ∧ (∀ j, (hj : j < t.bits.length) → bit (ps.pos + j) = t.bits[j]) ∧
  ps.fresh.length + t.size ≤ Config.nNodes ∧ t.symbols.Nodup ∧ ∀ x ∈ t.symbols, x ∉ ps.seen

/-- The two parts of an internal node's encoding, seen from the parse. -/
theorem parsable_node (bit : Nat → Bool) (len : Nat) (ps : ParseState) (l r : HTree) :
    Parsable bit len ps (.node l r) ↔
      ps.pos < len ∧ bit ps.pos = false ∧ ps.fresh.length < Config.nNodes ∧
      Parsable bit len { ps with pos := ps.pos + 1, fresh := ps.fresh ++ [Node.internal 0 0 0] } l ∧
      Parsable bit len (ParseState.after
        { ps with pos := ps.pos + 1, fresh := ps.fresh ++ [Node.internal 0 0 0] } l) r := by
  unfold Parsable ParseState.after
  simp only [HTree.bits, HTree.symbols, HTree.size, List.length_cons, List.length_append, List.length_nil,
    HTree.layout_length, List.mem_append, List.nodup_append, List.mem_reverse]
  constructor
  · rintro ⟨h1, h2, h3, ⟨h4, h5, h6⟩, h7⟩
    refine ⟨by omega, ?_, by omega, ⟨by omega, ?_, by omega, h4, fun x hx => h7 x (.inl hx)⟩,
      ⟨by omega, ?_, by omega, h5, ?_⟩⟩
    · simpa using h2 0 (by omega)
    · intro j hj
      have := h2 (j + 1) (by omega)
      rw [show ps.pos + 1 + j = ps.pos + (j + 1) by omega, this]
      simp [hj]
    · intro j hj
      have := h2 (l.bits.length + j + 1) (by omega)
      rw [show ps.pos + 1 + l.bits.length + j = ps.pos + (l.bits.length + j + 1) by omega, this]
      simp [List.getElem_append_right]
    · intro x hx hh
      rcases hh with hh | hh
      · exact h6 x hh x hx rfl
      · exact h7 x (.inr hx) hh
  · rintro ⟨h1, h2, h3, ⟨h4, h5, h6, h7, h8⟩, ⟨h9, h10, h11, h12, h13⟩⟩
    refine ⟨by omega, ?_, by omega, ⟨h7, h12, ?_⟩, ?_⟩
    · intro j hj
      cases j with
      | zero => simpa using h2
      | succ j =>
        by_cases hl : j < l.bits.length
        · have := h5 j hl
          rw [show ps.pos + (j + 1) = ps.pos + 1 + j by omega, this]
          simp [hl]
        · have := h10 (j - l.bits.length) (by omega)
          rw [show ps.pos + (j + 1) = ps.pos + 1 + l.bits.length + (j - l.bits.length) by omega, this]
          simp [List.getElem_append_right (Nat.le_of_not_lt hl)]
    · rintro x hx y hy rfl
      exact h13 x hy (.inl hx)
    · intro x hx hs
      rcases hx with hx | hx
      · exact h8 x hx hs
      · exact h13 x hx (.inr hs)

/-- The eight bits the parser reads after a leaf's 1. -/
theorem parsable_leaf (bit : Nat → Bool) (len : Nat) (ps : ParseState) (x : Byte) :
    Parsable bit len ps (.leaf x) ↔
      ps.pos + 1 + 8 ≤ len ∧ bit ps.pos = true ∧ ps.fresh.length < Config.nNodes ∧ x ∉ ps.seen ∧
      BitVec.ofNat 8 (bitsVal ((List.range 8).map (fun j => bit (ps.pos + 1 + j)))) = x := by
  unfold Parsable
  simp only [HTree.bits, HTree.symbols, HTree.size, List.length_cons, bin8_length, List.mem_singleton,
    List.nodup_singleton, forall_eq]
  constructor
  · rintro ⟨h1, h2, h3, -, h5⟩
    refine ⟨by omega, by simpa using h2 0 (by omega), by omega, h5, ?_⟩
    have : (List.range 8).map (fun j => bit (ps.pos + 1 + j)) = bin8 x := by
      apply List.ext_getElem
      · simp
      · intro j h1 h2'
        have hj : j < 8 := by simpa using h1
        have := h2 (j + 1) (by omega)
        rw [List.getElem_map, List.getElem_range, show ps.pos + 1 + j = ps.pos + (j + 1) by omega, this]
        simp
    rw [this, ofNat_bitsVal_bin8]
  · rintro ⟨h1, h2, h3, h4, h5⟩
    refine ⟨by omega, ?_, by omega, trivial, h4⟩
    have hb : bin8 x = (List.range 8).map (fun j => bit (ps.pos + 1 + j)) := by
      rw [← h5, bin8_ofNat_bitsVal _ (by simp)]
    intro j hj
    cases j with
    | zero => simpa using h2
    | succ j =>
      have : ps.pos + (j + 1) = ps.pos + 1 + j := by omega
      rw [this]
      simp [hb]

/-- The parser accepts the encoding of a tree with new symbols, whatever follows it. -/
theorem parseTree_complete (bit : Nat → Bool) (len : Nat) (t : HTree) (fuel : Nat) (ps : ParseState)
    (hf : t.depth < fuel) (h : Parsable bit len ps t) :
    parseTree bit len fuel ps = .ok (BitVec.ofNat 9 ps.fresh.length, ps.after t) := by
  induction t generalizing fuel ps with
  | leaf x =>
    obtain ⟨k, rfl⟩ : ∃ k, fuel = k + 1 := ⟨fuel - 1, by omega⟩
    obtain ⟨h1, h2, h3, h4, h5⟩ := (parsable_leaf bit len ps x).1 h
    unfold parseTree
    rw [if_neg (by omega), if_neg (by omega)]
    dsimp only
    rw [if_pos h2, if_neg (by omega), h5, if_neg h4]
    simp [ParseState.after, HTree.bits, HTree.layout, HTree.symbols]
  | node l r ihl ihr =>
    obtain ⟨k, rfl⟩ : ∃ k, fuel = k + 1 := ⟨fuel - 1, by omega⟩
    obtain ⟨h1, h2, h3, h4, h5⟩ := (parsable_node bit len ps l r).1 h
    simp only [HTree.depth] at hf
    unfold parseTree
    rw [if_neg (by omega), if_neg (by omega)]
    dsimp only
    rw [if_neg (by simp [h2]), ihl k _ (by omega) h4]
    dsimp only
    rw [ihr k _ (by omega) h5]
    simp [ParseState.after, HTree.bits, HTree.layout, HTree.symbols, Nat.add_assoc, Nat.add_comm]

/-- What the parser accepts is the encoding of a tree with new symbols. -/
theorem parseTree_sound (bit : Nat → Bool) (len : Nat) (fuel : Nat) (ps ps' : ParseState) (i : NodeIndex)
    (hp : ps.pos ≤ len) (hl : ps.fresh.length ≤ Config.nNodes)
    (h : parseTree bit len fuel ps = .ok (i, ps')) :
    ∃ t, Parsable bit len ps t ∧ t.depth < fuel ∧ i = BitVec.ofNat 9 ps.fresh.length ∧ ps' = ps.after t := by
  induction fuel generalizing ps ps' i with
  | zero => simp [parseTree] at h
  | succ k ih =>
    have back : ∀ t, Parsable bit len ps t → t.depth < k + 1 →
        ∃ t, Parsable bit len ps t ∧ t.depth < k + 1 ∧ i = BitVec.ofNat 9 ps.fresh.length ∧ ps' = ps.after t := by
      intro t ht hd
      have := parseTree_complete bit len t (k + 1) ps hd ht
      rw [h] at this
      injection this with this
      injection this with h1 h2
      exact ⟨t, ht, hd, h1, h2⟩
    unfold parseTree at h
    by_cases c1 : ps.pos = len
    · simp [c1] at h
    rw [if_neg c1] at h
    by_cases c2 : ps.fresh.length = Config.nNodes
    · simp [c2] at h
    rw [if_neg c2] at h
    dsimp only at h
    by_cases c3 : bit ps.pos = true
    · rw [if_pos c3] at h
      by_cases c4 : len < ps.pos + 1 + 8
      · simp [c4] at h
      rw [if_neg c4] at h
      by_cases c5 : BitVec.ofNat 8 (bitsVal ((List.range 8).map (fun j => bit (ps.pos + 1 + j)))) ∈ ps.seen
      · simp [c5] at h
      exact back (.leaf _) ((parsable_leaf _ _ _ _).2 ⟨by omega, c3, by omega, c5, rfl⟩) (by simp [HTree.depth])
    · rw [if_neg c3] at h
      split at h
      · simp at h
      next l p1 e1 =>
        split at h
        · simp at h
        next r p2 e2 =>
          obtain ⟨tl, hl1, hl2, -, rfl⟩ := ih _ _ _ (by dsimp only; omega) (by simp; omega) e1
          obtain ⟨tr, hr1, hr2, -, rfl⟩ := ih _ _ _ hl1.1 (by
            have := hl1.2.2.1
            simp only [ParseState.after, List.length_append, List.length_singleton, HTree.layout_length] at this ⊢
            omega) e2
          refine back (.node tl tr) ((parsable_node _ _ _ _ _).2 ⟨by omega, by simpa using c3, by omega, hl1, hr1⟩) ?_
          simp only [HTree.depth]
          omega

/-! ## The parser's failures (45_tree_serdes R277) -/

/-- The bits of the region that the parse has not read. -/
def ParseState.rest (bit : Nat → Bool) (len : Nat) (ps : ParseState) : Bits :=
  (List.range (len - ps.pos)).map (fun j => bit (ps.pos + j))

theorem ParseState.rest_nil {bit : Nat → Bool} {len : Nat} {ps : ParseState} (h : ps.pos = len) :
    ps.rest bit len = [] := by simp [ParseState.rest, h]

theorem ParseState.rest_cons {bit : Nat → Bool} {len : Nat} {ps : ParseState} (h : ps.pos < len) :
    ps.rest bit len = bit ps.pos :: (List.range (len - (ps.pos + 1))).map (fun j => bit (ps.pos + 1 + j)) := by
  unfold ParseState.rest
  rw [show len - ps.pos = (len - (ps.pos + 1)) + 1 by omega, List.range_succ_eq_map, List.map_cons,
    List.map_map]
  simp only [Nat.add_zero, List.cons.injEq, true_and]
  exact List.map_congr_left (fun j _ => by simp only [Function.comp_apply]; congr 1; omega)

theorem treeFault_none (room : Nat) (seen : List Byte) (p : Bits) : treeFault room 0 seen p = none := by
  cases room <;> rfl

/-- The recursive parse of one wanted tree finds the fault that reading node by node finds, or leaves the reading
where the next wanted tree begins. The store is full before the fuel runs out. -/
theorem parseTree_fault (bit : Nat → Bool) (len fuel wanted : Nat) (ps : ParseState) (hp : ps.pos ≤ len)
    (hl : ps.fresh.length ≤ Config.nNodes) (hf : Config.nNodes + 1 ≤ fuel + ps.fresh.length) :
    (∀ e, parseTree bit len fuel ps = .error e →
      treeFault (Config.nNodes - ps.fresh.length) (wanted + 1) ps.seen (ps.rest bit len) = some e.cause) ∧
    (∀ i q, parseTree bit len fuel ps = .ok (i, q) →
      q.pos ≤ len ∧ ps.fresh.length < q.fresh.length ∧ q.fresh.length ≤ Config.nNodes ∧
      treeFault (Config.nNodes - ps.fresh.length) (wanted + 1) ps.seen (ps.rest bit len) =
        treeFault (Config.nNodes - q.fresh.length) wanted q.seen (q.rest bit len)) := by
  induction fuel generalizing wanted ps with
  | zero => omega
  | succ fuel ih =>
    unfold parseTree
    by_cases c1 : ps.pos = len
    · simp [c1, ParseState.rest_nil c1, treeFault, ParseError.cause]
    rw [if_neg c1, ParseState.rest_cons (by omega)]
    by_cases c2 : ps.fresh.length = Config.nNodes
    · simp [c2, treeFault, ParseError.cause]
    rw [if_neg c2]
    obtain ⟨room, hroom⟩ : ∃ room, Config.nNodes - ps.fresh.length = room + 1 :=
      ⟨Config.nNodes - ps.fresh.length - 1, by omega⟩
    rw [hroom]
    dsimp only
    cases c3 : bit ps.pos
    · have h1 := ih (wanted + 1) { ps with pos := ps.pos + 1, fresh := ps.fresh ++ [Node.internal 0 0 0] }
        (by dsimp only; omega) (by simp; omega) (by simp; omega)
      have hr1 : Config.nNodes - (ps.fresh ++ [Node.internal 0 0 0]).length = room := by simp; omega
      simp only [hr1] at h1
      simp only [Bool.false_eq_true, if_false, treeFault]
      cases e1 : parseTree bit len fuel
          { ps with pos := ps.pos + 1, fresh := ps.fresh ++ [Node.internal 0 0 0] } with
      | error e => simpa [ParseState.rest] using h1.1 e e1
      | ok r1 =>
        obtain ⟨l, p1⟩ := r1
        obtain ⟨g1, g2, g3, g4⟩ := h1.2 l p1 e1
        have g2' : ps.fresh.length + 1 < p1.fresh.length := by simpa using g2
        have h2 := ih wanted p1 g1 g3 (by omega)
        have g5 : treeFault room (wanted + 2) ps.seen
            ((List.range (len - (ps.pos + 1))).map (fun j => bit (ps.pos + 1 + j))) =
            treeFault (Config.nNodes - p1.fresh.length) (wanted + 1) p1.seen (p1.rest bit len) := g4
        dsimp only
        rw [g5]
        cases e2 : parseTree bit len fuel p1 with
        | error e => simpa using h2.1 e e2
        | ok r2 =>
          obtain ⟨r, p2⟩ := r2
          obtain ⟨k1, k2, k3, k4⟩ := h2.2 r p2 e2
          refine ⟨by simp, ?_⟩
          rintro i q h
          injection h with h
          injection h with _ h
          subst h
          simp only [List.length_set]
          exact ⟨k1, by omega, k3, k4⟩
    · simp only [if_true, treeFault, List.length_map, List.length_range]
      by_cases c4 : len < ps.pos + 1 + 8
      · rw [if_pos c4, if_pos (show len - (ps.pos + 1) < 8 by omega)]
        simp [ParseError.cause]
      rw [if_neg c4, if_neg (show ¬ len - (ps.pos + 1) < 8 by omega)]
      have ht : ((List.range (len - (ps.pos + 1))).map (fun j => bit (ps.pos + 1 + j))).take 8 =
          (List.range 8).map (fun j => bit (ps.pos + 1 + j)) := by
        rw [← List.map_take, List.take_range, Nat.min_eq_left (by omega)]
      have hd : ((List.range (len - (ps.pos + 1))).map (fun j => bit (ps.pos + 1 + j))).drop 8 =
          (List.range (len - (ps.pos + 9))).map (fun j => bit (ps.pos + 9 + j)) := by
        apply List.ext_getElem
        · simp
          omega
        · intro j h1 h2
          simp only [List.getElem_drop, List.getElem_map, List.getElem_range]
          congr 1
          omega
      rw [ht, hd]
      by_cases c5 : BitVec.ofNat 8 (bitsVal ((List.range 8).map (fun j => bit (ps.pos + 1 + j)))) ∈ ps.seen
      · rw [if_pos c5, if_pos c5]
        simp [ParseError.cause]
      · rw [if_neg c5, if_neg c5]
        refine ⟨by simp, ?_⟩
        rintro i q h
        injection h with h
        injection h with _ h
        subst h
        have hr1 : Config.nNodes - (ps.fresh ++ [Node.leaf
          (BitVec.ofNat 8 (bitsVal ((List.range 8).map (fun j => bit (ps.pos + 1 + j))))) 0]).length = room := by
          simp
          omega
        simp only [hr1]
        exact ⟨by omega, by simp, by simp; omega, rfl⟩

/-- Whether TREE_DESER's parse fails, and with which cause, is what its source bits say (45_tree_serdes R277). -/
theorem parseTree_deserFault (s : State) :
    (∀ e, parseTree (fun j => s.readBit (s.args.a0.toNat + j)) s.args.a1.toNat (Config.nNodes + 1) parseStart =
      .error e → deserFault s = some e.cause) ∧
    (∀ r, parseTree (fun j => s.readBit (s.args.a0.toNat + j)) s.args.a1.toNat (Config.nNodes + 1) parseStart =
      .ok r → deserFault s = none) := by
  have hr : parseStart.rest (fun j => s.readBit (s.args.a0.toNat + j)) s.args.a1.toNat =
      s.readBits s.args.a0.toNat s.args.a1.toNat := by
    simp [ParseState.rest, parseStart, State.readBits, Memory.readBits_eq, State.readBit]
  have h := parseTree_fault (fun j => s.readBit (s.args.a0.toNat + j)) s.args.a1.toNat (Config.nNodes + 1) 0
    parseStart (by simp [parseStart]) (by simp [parseStart]) (by simp [parseStart])
  rw [hr] at h
  refine ⟨fun e he => h.1 e he, fun r he => ?_⟩
  exact (h.2 r.1 r.2 he).2.2.2.trans (treeFault_none _ _ _)

/-- Reading the nodes of an unfinished tree, all new, leaves the reading at what follows them. -/
theorem treeFault_tokens (ts : List TreeToken) (room wanted : Nat) (seen : List Byte) (p : Bits)
    (hroom : ts.length ≤ room)
    (hopen : ∀ k, k ≤ ts.length → (ts.take k).countP (fun t => t.sym.isSome) ≤
      wanted + (ts.take k).countP (fun t => t.sym.isNone))
    (hn : (ts.filterMap TreeToken.sym).Nodup) (hs : ∀ x ∈ ts.filterMap TreeToken.sym, x ∉ seen) :
    ∃ w, treeFault room (wanted + 1) seen (ts.flatMap TreeToken.bits ++ p) =
      treeFault (room - ts.length) (w + 1) ((ts.filterMap TreeToken.sym).reverse ++ seen) p := by
  induction ts generalizing room wanted seen with
  | nil => exact ⟨wanted, rfl⟩
  | cons t ts ih =>
    obtain ⟨room, rfl⟩ : ∃ r, room = r + 1 := ⟨room - 1, by simp at hroom; omega⟩
    simp only [List.length_cons, Nat.add_le_add_iff_right] at hroom
    cases t with
    | internal =>
      have hf : (TreeToken.internal :: ts).filterMap TreeToken.sym = ts.filterMap TreeToken.sym := rfl
      rw [hf] at hn hs ⊢
      obtain ⟨w, h⟩ := ih room (wanted + 1) seen hroom (by
        intro k hk
        have := hopen (k + 1) (by simpa using hk)
        simp [TreeToken.sym] at this ⊢
        omega) hn hs
      refine ⟨w, ?_⟩
      rw [List.flatMap_cons, TreeToken.bits]
      simpa [treeFault] using h
    | leaf x =>
      have h1 := hopen 1 (by simp)
      simp [TreeToken.sym] at h1
      obtain ⟨wanted, rfl⟩ : ∃ v, wanted = v + 1 := ⟨wanted - 1, by omega⟩
      simp only [List.filterMap_cons, TreeToken.sym, List.nodup_cons, List.mem_cons, forall_eq_or_imp] at hn hs
      obtain ⟨w, h⟩ := ih room wanted (x :: seen) hroom (by
        intro k hk
        have := hopen (k + 1) (by simpa using hk)
        simp [TreeToken.sym] at this ⊢
        omega) hn.2 (by
          intro y hy
          simp only [List.mem_cons, not_or]
          exact ⟨fun e => hn.1 (e ▸ hy), hs.2 y hy⟩)
      refine ⟨w, ?_⟩
      rw [List.flatMap_cons, TreeToken.bits, List.cons_append, List.cons_append, List.append_assoc, treeFault,
        List.take_left' (by simp), List.drop_left' (by simp), ofNat_bitsVal_bin8, if_neg (by simp), if_neg hs.1, h]
      simp [TreeToken.sym]

/-! ## The store TREE_DESER leaves -/

/-- Pre-order numbering: the left child is the next index, the right child a later one (45_tree_serdes R278). -/
theorem HTree.layout_children (k : Nat) (t : HTree) (hk : k + t.size ≤ 512) (j : Nat) (hj : j < t.size)
    (hn : ((HTree.layout k t)[j]'(by simpa using hj)).isLeaf = false) :
    ((HTree.layout k t)[j]'(by simpa using hj)).left.toNat = k + j + 1 ∧
      k + j < ((HTree.layout k t)[j]'(by simpa using hj)).right.toNat := by
  induction t generalizing k j with
  | leaf x => simp [HTree.layout, Node.leaf] at hn
  | node l r ihl ihr =>
    simp only [HTree.size] at hk hj
    have q1 := r.size_eq
    have q2 := r.leaves_pos
    have q3 := l.size_eq
    have q4 := l.leaves_pos
    cases j with
    | zero =>
      simp only [HTree.layout, List.getElem_cons_zero, Node.internal, BitVec.toNat_ofNat]
      rw [Nat.mod_eq_of_lt (by omega), Nat.mod_eq_of_lt (by omega)]
      omega
    | succ j =>
      simp only [HTree.layout, List.getElem_cons_succ] at hn ⊢
      by_cases hl : j < l.size
      · rw [List.getElem_append_left (by simpa using hl)] at hn ⊢
        have := ihl (k + 1) (by omega) j hl hn
        omega
      · simp only [List.getElem_append_right (show (HTree.layout (k + 1) l).length ≤ j by simpa using hl),
          HTree.layout_length] at hn ⊢
        have := ihr (k + 1 + l.size) (by omega) (j - l.size) (by omega) hn
        omega

/-- A state whose store is a tree's layout, rooted at 0, holds the tree. -/
theorem HTree.layout_holdsTree (u : State) (t : HTree) (hs : t.symbols.Nodup) (hn : u.nodes = HTree.layout 0 t)
    (hr : u.root = 0) (hc : u.nodeCount = BitVec.ofNat 10 t.size) : HoldsTree u t := by
  have hsz := t.size_eq
  have hle := t.leaves_le hs
  have hc' : u.nodeCount.toNat = t.size := by
    rw [hc, BitVec.toNat_ofNat]
    exact Nat.mod_eq_of_lt (by omega)
  refine ⟨by simp [hn, hc'], HTree.indices 0 t, ?_, ?_, ?_, hs⟩
  · rw [hr]
    refine HTree.layout_represents u.node 0 t (by omega) ?_
    intro j hj
    simp [State.node, hn, hj]
  · unfold HTree.indices
    refine List.Nodup.map_on ?_ List.nodup_range
    intro a ha b hb h
    have := congrArg BitVec.toNat h
    simp only [List.mem_range] at ha hb
    simp only [BitVec.toNat_ofNat] at this
    omega
  · intro i
    rw [hc']
    unfold HTree.indices
    simp only [List.mem_map, List.mem_range]
    constructor
    · rintro ⟨a, ha, rfl⟩
      rw [BitVec.toNat_ofNat, Nat.mod_eq_of_lt (by omega)]
      omega
    · intro h
      exact ⟨i.toNat, h, by simp⟩

end Sys2Proof.Machine
end

