-- ==== Sys2Proof/Laws/PerInstr.lean ====
section
/-! SUPPORT. A statement about every command as syntax: its word is legal (30_encoding R105, R106). -/

namespace Sys2Proof.Laws

/-- The word the encoder writes for a command passes the three checks, and its fields are the command's. -/
def EncodeWf.Statement (i : Instr) : Prop :=
  (CmdFields.ofWord (encode i)).wellFormed = true ∧
    CmdFields.ofWord (encode i) = ⟨i.opcode, i.immediate, 0⟩

theorem EncodeWf.of_fields (i : Instr)
    (h : (CmdFields.mk i.opcode i.immediate 0).wellFormed = true) : EncodeWf.Statement i := by
  have hf : CmdFields.ofWord (encode i) = ⟨i.opcode, i.immediate, 0⟩ := by
    rw [CmdFields.ofWord_eq, opcOf_encode, immOf_encode, rsvOf_encode]
  exact ⟨by rw [hf]; exact h, hf⟩

theorem EncodeWf.nop : EncodeWf.Statement .nop := EncodeWf.of_fields _ (by decide)

theorem EncodeWf.softReset : EncodeWf.Statement .softReset := EncodeWf.of_fields _ (by decide)

theorem EncodeWf.ackOverrun : EncodeWf.Statement .ackOverrun := EncodeWf.of_fields _ (by decide)

theorem EncodeWf.freqClear : EncodeWf.Statement .freqClear := EncodeWf.of_fields _ (by decide)

theorem EncodeWf.freqSet (x : Byte) : EncodeWf.Statement (.freqSet x) :=
  EncodeWf.of_fields _ (by simp [CmdFields.wellFormed, CmdFields.opcodeListed, CmdFields.reservedZero,
    CmdFields.immediateLegal, CmdFields.opcodes, Instr.opcode])

theorem EncodeWf.freqGet (x : Byte) : EncodeWf.Statement (.freqGet x) :=
  EncodeWf.of_fields _ (by simp [CmdFields.wellFormed, CmdFields.opcodeListed, CmdFields.reservedZero,
    CmdFields.immediateLegal, CmdFields.opcodes, Instr.opcode])

theorem EncodeWf.freqCount : EncodeWf.Statement .freqCount := EncodeWf.of_fields _ (by decide)

theorem EncodeWf.treeBuild : EncodeWf.Statement .treeBuild := EncodeWf.of_fields _ (by decide)

theorem EncodeWf.nodeRead : EncodeWf.Statement .nodeRead := EncodeWf.of_fields _ (by decide)

theorem EncodeWf.codeGet (x : Byte) : EncodeWf.Statement (.codeGet x) :=
  EncodeWf.of_fields _ (by simp [CmdFields.wellFormed, CmdFields.opcodeListed, CmdFields.reservedZero,
    CmdFields.immediateLegal, CmdFields.opcodes, Instr.opcode])

theorem EncodeWf.encode : EncodeWf.Statement .encode := EncodeWf.of_fields _ (by decide)

theorem EncodeWf.decReset : EncodeWf.Statement .decReset := EncodeWf.of_fields _ (by decide)

theorem EncodeWf.decStep (x : Byte) : EncodeWf.Statement (.decStep x) :=
  EncodeWf.of_fields _ (by simp [CmdFields.wellFormed, CmdFields.opcodeListed, CmdFields.reservedZero,
    CmdFields.immediateLegal, CmdFields.opcodes, Instr.opcode])

theorem EncodeWf.decBulk : EncodeWf.Statement .decBulk := EncodeWf.of_fields _ (by decide)

theorem EncodeWf.treeSer : EncodeWf.Statement .treeSer := EncodeWf.of_fields _ (by decide)

theorem EncodeWf.treeDeser : EncodeWf.Statement .treeDeser := EncodeWf.of_fields _ (by decide)

end Sys2Proof.Laws
end

