-- ==== Sys2Proof/Laws/Regions.lean ====
section
/-! SUPPORT. The region checks as arithmetic, and the overlap test as the spec's prose has it (20_memory R63,
R78). -/

namespace Sys2Proof.Machine

/-- `DMEM_BYTES` is one of the values the spec allows, in every state (00_scope R6). -/
theorem State.dmemBytes_range (s : State) :
    Config.dmemBytesMin ≤ s.dmemBytes ∧ s.dmemBytes ≤ Config.dmemBytesMax := by
  have := s.dmemTop.isLt
  unfold State.dmemBytes Config.dmemBytesMin
  omega

theorem State.byteRegionOk_iff (s : State) (a n : Word) :
    s.byteRegionOk a n = true ↔ a.toNat + n.toNat ≤ s.dmemBytes := by simp [State.byteRegionOk]

theorem State.bitRegionOk_iff (s : State) (b n : Word) :
    s.bitRegionOk b n = true ↔ b.toNat + n.toNat ≤ 8 * s.dmemBytes := by simp [State.bitRegionOk]

/-- The overlap test finds a shared byte exactly when there is one. -/
theorem regionsOverlap_iff (a m b n : Nat) : regionsOverlap a m b n = true ↔ SharesByte a m b n := by
  unfold SharesByte regionsOverlap
  simp only [decide_eq_true_eq]
  constructor
  · rintro ⟨h1, h2, h3, h4⟩
    by_cases h : a ≤ b / 8
    · exact ⟨b / 8, b, by omega, by omega, by omega, by omega, rfl⟩
    · exact ⟨a, 8 * a, by omega, by omega, by omega, by omega, by omega⟩
  · rintro ⟨k, x, h1, h2, h3, h4, h5⟩
    omega

end Sys2Proof.Machine
end

