-- ==== Sys2Proof/Tests/Slice0.lean ====
section
/-! SUPPORT. The model's own tests: the ill-formed words, the words of 30_encoding R103, single commands of
95_test_vectors on states written from its tables, and a witness for the hypotheses of every obligation that
has any. Each expected value is the spec's. -/

namespace Sys2Proof.Tests

open Sys2Proof.Machine

-- One test at a time: evaluated all at once, each would hold a stack of its own.
set_option Elab.async false

/-! ## Command words -/

/-- 30_encoding R106, vectors V-C5, V-C6, V-C7: one ill-formed word for each check. -/
theorem test_ill_formed_words :
    (CmdFields.ofWord 0x00000070#32).opcodeListed = false ∧
    (CmdFields.ofWord 0x00010011#32).reservedZero = false ∧
    (CmdFields.ofWord 0x00000100#32).immediateLegal = false ∧
    [0x00000070#32, 0x00010011#32, 0x00000100#32, 0x00000003#32, 0x000000FF#32].map
      (fun w => (CmdFields.ofWord w).wellFormed) = [false, false, false, false, false] := by decide

/-- The same words, as the decoder rejects them. -/
theorem test_decode_rejects :
    decode 0x00000070#32 = .error .reservedOpcode ∧ decode 0x00010011#32 = .error .reservedField ∧
    decode 0x00000100#32 = .error .strayImmediate ∧ decode 0x00000003#32 = .error .reservedOpcode ∧
    decode 0x000000FF#32 = .error .reservedOpcode := by decide

/-- 30_encoding R100, R103: the control and frequency words, written out as RSV, IMM8, OPC. -/
theorem test_decode_control_frequency :
    decode (0b0000000000000000#16 ++ 0b00000000#8 ++ 0b00000000#8) = .ok .nop ∧
    decode (0b0000000000000000#16 ++ 0b00000000#8 ++ 0b00000001#8) = .ok .softReset ∧
    decode (0b0000000000000000#16 ++ 0b00000000#8 ++ 0b00000010#8) = .ok .ackOverrun ∧
    decode (0b0000000000000000#16 ++ 0b00000000#8 ++ 0b00010000#8) = .ok .freqClear ∧
    decode (0b0000000000000000#16 ++ 0b01001101#8 ++ 0b00010001#8) = .ok (.freqSet 0x4D#8) ∧
    decode (0b0000000000000000#16 ++ 0b11111110#8 ++ 0b00010010#8) = .ok (.freqGet 0xFE#8) ∧
    decode (0b0000000000000000#16 ++ 0b00000000#8 ++ 0b00010011#8) = .ok .freqCount := by decide

/-- 30_encoding R100, R103: the tree, code, encoder, decoder and serializer words. -/
theorem test_decode_tree_and_streams :
    decode (0b0000000000000000#16 ++ 0b00000000#8 ++ 0b00100000#8) = .ok .treeBuild ∧
    decode (0b0000000000000000#16 ++ 0b00000000#8 ++ 0b00100001#8) = .ok .nodeRead ∧
    decode (0b0000000000000000#16 ++ 0b01010000#8 ++ 0b00110000#8) = .ok (.codeGet 0x50#8) ∧
    decode (0b0000000000000000#16 ++ 0b00000000#8 ++ 0b01000000#8) = .ok .encode ∧
    decode (0b0000000000000000#16 ++ 0b00000000#8 ++ 0b01010000#8) = .ok .decReset ∧
    decode (0b0000000000000000#16 ++ 0b00000010#8 ++ 0b01010001#8) = .ok (.decStep 2#8) ∧
    decode (0b0000000000000000#16 ++ 0b00000000#8 ++ 0b01010010#8) = .ok .decBulk ∧
    decode (0b0000000000000000#16 ++ 0b00000000#8 ++ 0b01100000#8) = .ok .treeSer ∧
    decode (0b0000000000000000#16 ++ 0b00000000#8 ++ 0b01100001#8) = .ok .treeDeser := by decide

/-- spec/opcode_table.json, row FREQ_SET: bits 15..8 are the symbol. -/
theorem test_table_word : decodeTableWord 32 0x4111 = some (.freqSet 0x41#8) ∧
    decodeTableWord 32 0x99 = none := by decide

/-! ## States of the spec's tables -/

/-- The state right after a successful step, or the state before where a step stops. -/
def after (s : State) : State :=
  match step s with
  | .next t => t
  | .fault _ | .refused _ => s

/-- A step answers a next state. -/
def goes (s : State) : Bool :=
  match step s with
  | .next _ => true
  | .fault _ | .refused _ => false

theorem step_after {s : State} (h : goes s = true) : step s = .next (after s) := by
  unfold goes at h
  unfold after
  split at h <;> simp_all

/-- `s` with a command word issued and four arguments latched. -/
def latched (s : State) (w a0 a1 a2 a3 : Nat) : State :=
  { s with pending := some ⟨BitVec.ofNat 32 w, ⟨BitVec.ofNat 32 a0, BitVec.ofNat 32 a1, BitVec.ofNat 32 a2,
                                               BitVec.ofNat 32 a3⟩⟩ }

/-- What the host sees of a state: `STATUS`, `Q0..Q2`, `CURSOR`, `ERRINFO`. -/
def view (s : State) : List Nat :=
  [s.statusWord.toNat, s.q0.toNat, s.q1.toNat, s.q2.toNat, s.cursor.toNat, s.errInfo.toNat]

/-- A code table with the codes listed and no other entry. -/
def codesOf (l : List (Byte × Bits)) : Vector Bits 256 :=
  l.foldl (fun t e => t.set e.1.toNat e.2 e.1.isLt) (Vector.replicate 256 [])

/-- A frequency table with the counts listed. -/
def counts (l : List (Byte × Nat)) : Vector Word 256 :=
  l.foldl (fun f e => f.set e.1.toNat (BitVec.ofNat 32 e.2) e.1.isLt) (Vector.replicate 256 0)

/-- DMEM cells from an address on. -/
def cells (a : Nat) (bs : List Nat) : List Host.Cell :=
  (List.range bs.length).zipWith (fun j b => (a + j, BitVec.ofNat 8 b)) bs

/-- The tree of "MISSISSIPPI" as example S1 tabulates it, with some DMEM. -/
def mississippi (m : List Host.Cell) : State :=
  { State.reset with
    freq := counts [(0x49, 4), (0x4D, 1), (0x50, 2), (0x53, 4)]
    nodes := [.leaf 0x49 4, .leaf 0x4D 1, .leaf 0x50 2, .leaf 0x53 4, .internal 1 2 3, .internal 4 0 7,
              .internal 3 5 11]
    root := 6, nodeCount := 7, treeValid := true, cursor := 6
    codes := some (codesOf [(0x53, [false]), (0x49, [true, true]), (0x4D, [true, false, false]),
                            (0x50, [true, false, true])])
    q0 := 4, q1 := 11, dmem := m }

/-- The tree of "ABAB", vector V-B4, with some DMEM. -/
def abab (m : List Host.Cell) : State :=
  { State.reset with
    freq := counts [(0x41, 2), (0x42, 2)]
    nodes := [.leaf 0x41 2, .leaf 0x42 2, .internal 0 1 4]
    root := 2, nodeCount := 3, treeValid := true, cursor := 2
    codes := some (codesOf [(0x41, [false]), (0x42, [true])])
    q0 := 2, q1 := 4, dmem := m }

/-- The degenerate tree {A: 5}, vector V-B2, with some DMEM. -/
def onlyA (m : List Host.Cell) : State :=
  { State.reset with
    freq := counts [(0x41, 5)], nodes := [.leaf 0x41 5], treeValid := true, nodeCount := 1
    codes := some (codesOf [(0x41, [false])]), q0 := 1, q1 := 5, dmem := m }

/-! ## Single commands -/

/-- V-C1: NOP clears the error record. -/
theorem test_nop_clears_the_record :
    view (after (latched { State.reset with err := true, errCode := 1, q0 := 9 } 0x00 0 0 0 0)) =
      [0, 9, 0, 0, 0, 0] := by decide +kernel

/-- V-C5: a word with a stray immediate. -/
theorem test_illegal_word :
    view (after (latched State.reset 0x100 0 0 0 0)) = [0x62, 0, 0, 0, 0, 0x100] := by decide +kernel

/-- V-C2: SOFT_RESET drops the tree and keeps `A0..A3`. -/
theorem test_soft_reset :
    let t := after (latched { mississippi [] with a2 := 7 } 0x01 0 0 0 0)
    view t = [0, 0, 0, 0, 0, 0] ∧ t.root = 0 ∧ t.nodeCount = 0 ∧ freqAt t.freq 0x49 = 0 ∧ t.a2 = 7 := by
  decide +kernel

/-- V-C3 and V-C4: a `CMD` write while busy sets bit 11, ACK_OVERRUN clears it. -/
theorem test_ack_overrun :
    (match hostAct (.writeReg 4 0x00 0) (latched State.reset 0x02 0 0 0 0) with
      | .next t => (t.statusWord.toNat, view (after t))
      | .fault _ | .refused _ => (0, [])) = (0x801, [0, 0, 0, 0, 0, 0]) := by decide +kernel

/-- P3 line 6: FREQ_CLEAR empties the table and leaves the tree. -/
theorem test_freq_clear :
    let t := after (latched (mississippi []) 0x10 0 0 0 0)
    view t = [0x300, 4, 11, 0, 6, 0] ∧ [0x49, 0x4D, 0x50, 0x53].map (freqAt t.freq) = [0, 0, 0, 0] := by
  decide +kernel

/-- V-F3: FREQ_SET 'M' with 0 removes the entry. -/
theorem test_freq_set :
    [0x49, 0x4D, 0x50, 0x53].map (freqAt (after (latched (mississippi []) 0x4D11 0 0 0 0)).freq) =
      [4, 0, 2, 4] := by decide +kernel

/-- V-F2: FREQ_GET of a byte value with and without an entry. -/
theorem test_freq_get :
    (after (latched (mississippi []) 0x5312 0 0 0 0)).q0 = 4 ∧
    (after (latched (mississippi []) 0x4112 0 0 0 0)).q0 = 0 := by decide +kernel

/-- V-F1: the histogram of "MISSISSIPPI". -/
theorem test_freq_count :
    let t := after (latched { State.reset with dmem := cells 0 [0x4D, 0x49, 0x53, 0x53, 0x49, 0x53, 0x53,
      0x49, 0x50, 0x50, 0x49] } 0x13 0 11 0 0)
    view t = [0, 4, 11, 0, 0, 0] ∧
    [0x49, 0x4D, 0x50, 0x53, 0x00].map (freqAt t.freq) = [4, 1, 2, 4, 0] := by decide +kernel

/-- V-F4, V-F5, V-F6: the last byte is admitted, one more is not, and the sum does not wrap. -/
theorem test_freq_count_range :
    view (after (latched State.reset 0x13 65535 2 0 0)) = [0x72, 0, 0, 0, 0, 0] ∧
    view (after (latched State.reset 0x13 0xFFFFFFFF 2 0 0)) = [0x72, 0, 0, 0, 0, 0] ∧
    (after (latched State.reset 0x13 65535 1 0 0)).err = false := by decide +kernel

/-- V-B1: the tree of "MISSISSIPPI", its node store and its codes. -/
theorem test_tree_build :
    let t := after (latched { State.reset with freq := (mississippi []).freq } 0x20 0 0 0 0)
    view t = [0x300, 4, 11, 0, 6, 0] ∧ t.nodes = (mississippi []).nodes ∧ t.root = 6 ∧ t.nodeCount = 7 ∧
    [0x53, 0x49, 0x4D, 0x50, 0x41].map t.code =
      [[false], [true, true], [true, false, false], [true, false, true], []] := by decide +kernel

/-- V-B2 and V-B5: the single leaf; the lower count goes left. -/
theorem test_tree_build_corners :
    view (after (latched { State.reset with freq := counts [(0x41, 5)] } 0x20 0 0 0 0)) =
      [0x700, 1, 5, 0, 0, 0] ∧
    (after (latched { State.reset with freq := counts [(0x41, 2), (0x42, 1)] } 0x20 0 0 0 0)).nodes =
      [.leaf 0x41 2, .leaf 0x42 1, .internal 1 0 3] := by decide +kernel

/-- V-N1, V-N4, V-N6: a leaf, an internal node, and an index that does not exist. -/
theorem test_node_read :
    view (after (latched (mississippi []) 0x21 0 0 0 0)) = [0x300, 0, 0x149, 4, 6, 0] ∧
    view (after (latched (mississippi []) 0x21 5 0 0 0)) = [0x300, 4, 0, 7, 6, 0] ∧
    view (after (latched (mississippi []) 0x21 7 0 0 0)) = [0x372, 4, 11, 0, 6, 0] := by decide +kernel

/-- V-N8: a weight above 32 bits. -/
theorem test_node_read_wide_weight :
    view (after (latched { mississippi [] with
        nodes := List.replicate 92 (.leaf 0 0) ++ [.internal 46 91 7778742048], nodeCount := 93, root := 92,
        cursor := 92 } 0x21 92 0 0 0)) = [0x300, 0x005B002E, 0x01000000, 0xCFA62F20, 92, 0] := by decide +kernel

/-- V-K3: the code of 'M' lands on the top three bits of byte 0x100. -/
theorem test_code_get :
    let t := after (latched (mississippi (cells 0x100 [0x1F])) 0x4D30 0x800 255 0 0)
    view t = [0x300, 3, 4, 0, 6, 0] ∧ t.dmem = cells 0x100 [0x9F] := by decide +kernel

/-- V-K6, V-K7: an absent symbol is no error, a capacity below the code's length is one. -/
theorem test_code_get_corners :
    view (after (latched (mississippi []) 0x4130 0x3000 0 0 0)) = [0x300, 0, 0, 0, 6, 0] ∧
    view (after (latched (mississippi []) 0x4D30 0x3000 2 0 0)) = [0x382, 4, 11, 0, 6, 0] := by decide +kernel

/-- V-E7: "MISS" at a bit address that is no multiple of 8, neighbours kept. -/
theorem test_encode :
    let t := after (latched (mississippi (cells 0 [0x4D, 0x49, 0x53, 0x53] ++ cells 0x400 [0xFF, 0xFF, 0xFF]))
      0x40 0 4 0x2003 64)
    view t = [0x300, 7, 4, 0, 6, 0] ∧
    t.dmem = cells 0 [0x4D, 0x49, 0x53, 0x53] ++ cells 0x400 [0xF3, 0x3F, 0xFF] := by decide +kernel

/-- V-E2: SymbolNotInTable before CapacityExceeded, with the offset in `Q1`. -/
theorem test_encode_absent_symbol :
    view (after (latched (mississippi (cells 0x20 [0x4D, 0x49, 0x53, 0x53, 0x58])) 0x40 0x20 5 0x1000 1)) =
      [0x322, 4, 4, 0, 6, 0x58] := by decide +kernel

/-- V-D6: DEC_RESET from the middle of a code. -/
theorem test_dec_reset :
    view (after (latched { mississippi [] with cursor := 5 } 0x50 0 0 0 0)) = [0x300, 4, 11, 0, 6, 0] := by
  decide +kernel

/-- V-D2, V-D4: an internal child, and a leaf. -/
theorem test_dec_step :
    view (after (latched { mississippi [] with cursor := 5 } 0x51 0 0 0 0)) = [0x100, 0, 11, 0, 4, 0] ∧
    view (after (latched { mississippi [] with cursor := 4 } 0x51 0 0 0 0)) = [0x300, 0x14D, 11, 0, 6, 0] := by
  decide +kernel

/-- V-D3, V-D15: a bit symbol above 1, and the degenerate tree. -/
theorem test_dec_step_corners :
    view (after (latched { mississippi [] with cursor := 4 } 0x251 0 0 0 0)) = [0x132, 4, 11, 0, 4, 2] ∧
    view (after (latched (onlyA []) 0x151 0 0 0 0)) = [0x700, 0x141, 5, 0, 0, 0] := by decide +kernel

/-- V-D10: "MIS" and then one bit of a code. -/
theorem test_dec_bulk_ends_inside_a_code :
    let t := after (latched (mississippi (cells 0x200 [0x9A])) 0x52 0x1000 7 0x300 16)
    view t = [0x100, 3, 7, 1, 5, 0] ∧ t.dmem = cells 0x200 [0x9A] ++ cells 0x300 [0x4D, 0x49, 0x53] := by
  decide +kernel

/-- V-D13, V-D18: a capacity too small, and the degenerate tree. -/
theorem test_dec_bulk_corners :
    view (after (latched (mississippi (cells 0x200 [0x9A])) 0x52 0x1000 6 0x300 2)) =
      [0x382, 4, 11, 0, 6, 2] ∧
    (let t := after (latched (onlyA (cells 0x200 [0x5A])) 0x52 0x1000 8 0x300 8)
     view t = [0x700, 8, 8, 0, 0, 0] ∧
     t.dmem = cells 0x200 [0x5A] ++ cells 0x300 (List.replicate 8 0x41)) := by decide +kernel

/-- V-T1: the serialized tree of "MISSISSIPPI". -/
theorem test_tree_ser :
    let t := after (latched (mississippi (cells 0x100 [0, 0, 0, 0, 0])) 0x60 0x800 512 0 0)
    view t = [0x300, 39, 4, 0, 6, 0] ∧ t.dmem = cells 0x100 [0x54, 0xCA, 0x6D, 0x42, 0x92] := by
  decide +kernel

/-- V-T8: one bit of capacity too few. -/
theorem test_tree_ser_capacity :
    view (after (latched (mississippi []) 0x60 0x800 38 0 0)) = [0x382, 4, 11, 0, 6, 0] := by decide +kernel

/-- V-T9: the tree of "MISSISSIPPI" from its bits, in pre-order. -/
theorem test_tree_deser :
    let t := after (latched { State.reset with dmem := cells 0x100 [0x54, 0xCA, 0x6D, 0x42, 0x92] } 0x61
      0x800 40 0 0)
    view t = [0x300, 39, 4, 0, 0, 0] ∧ t.nodeCount = 7 ∧
    t.nodes = [.internal 1 2 0, .leaf 0x53 0, .internal 3 6 0, .internal 4 5 0, .leaf 0x4D 0, .leaf 0x50 0,
               .leaf 0x49 0] ∧
    [0x53, 0x49, 0x4D, 0x50, 0x41].map t.code =
      [[false], [true, true], [true, false, false], [true, false, true], []] := by decide +kernel

/-- V-T14, V-T19: a leaf value cut short, and a duplicate leaf over a tree that stays. -/
theorem test_tree_deser_corners :
    view (after (latched { State.reset with dmem := cells 0x100 [0xA0] } 0x61 0x800 7 0 0)) =
      [0x52, 0, 0, 0, 0, 1] ∧
    view (after (latched (abab (cells 0x100 [0x50, 0x68, 0x20])) 0x61 0x800 19 0 0)) =
      [0x352, 2, 4, 0, 2, 3] := by decide +kernel

/-! ## Host programs -/

/-- 30_encoding R110, program P2 line 2: the `WR` lines of a `CALL` come in the order a0 to a3, an argument not given has
none, then `ISSUE` and `WAIT`; and V-C3's `ISSUE` while a command is pending. -/
theorem test_call_expansion :
    callLines false .decBulk (some 0x1000) (some 21) (some 0x300) (some 16) =
      [⟨false, .writeReg 4 0x08 0x1000⟩, ⟨false, .writeReg 4 0x0C 21⟩, ⟨false, .writeReg 4 0x10 0x300⟩,
       ⟨false, .writeReg 4 0x14 16⟩, ⟨false, .writeReg 4 0x00 0x52⟩, ⟨false, .wait⟩] ∧
    callLines false (.freqSet 0x41) (some 5) none none none =
      [⟨false, .writeReg 4 0x08 5⟩, ⟨false, .writeReg 4 0x00 0x4111⟩, ⟨false, .wait⟩] ∧
    zeroLine false 0x300 2 = ⟨false, .writeMem 0x300 [0, 0]⟩ ∧
    (after { latched State.reset 0x13 0 0 0 0 with script := [issueLine true .nop] }).overrun = true := by
  decide +kernel

/-- 30_encoding R110 with n = 0 (log 22): a `ZERO` of no byte, here beyond DMEM and while a command is pending, stops
nothing; one of one byte there is refused. -/
theorem test_zero_of_no_byte :
    hostAct (zeroLine true 0xFFFFFFFF 0).action (latched State.reset 0x13 0 0 0 0) =
      .next (latched State.reset 0x13 0 0 0 0) ∧
    hostAct (zeroLine true 0xFFFFFFFF 1).action (latched State.reset 0x13 0 0 0 0) = .refused .dmemRace :=
  ⟨rfl, rfl⟩

/-- P1 line 7: `EXPECT STATUS = 0x300` holds on the tree of S1, and `EXPECT STATUS = 0` does not. -/
theorem test_expect :
    (let t := after { mississippi [] with script := [expectLine false 0x04] }
     expectMet 0x300 t && !expectMet 0 t) = true := by decide +kernel

/-! ## Witnesses: the hypotheses of each obligation can be met, each clause at a boundary of its range -/

/-- `exec` answers a next state. -/
def runs (i : Instr) (s : State) : Bool :=
  match exec i s with
  | .next _ => true
  | .fault _ | .refused _ => false

/-- The state a command leaves, or the state before where it stops. -/
def run (i : Instr) (s : State) : State :=
  match exec i s with
  | .next t => t
  | .fault _ | .refused _ => s

theorem exec_run {i : Instr} {s : State} (h : runs i s = true) : exec i s = .next (run i s) := by
  unfold runs at h
  unfold run
  split at h <;> simp_all

/-- TREE_BUILD runs on any table with an entry. -/
theorem treeBuild_runs {s : State} {x : Byte} (h : freqAt s.freq x ≠ 0) :
    ∃ t, exec .treeBuild s = .next t ∧ t.err = false ∧ t.treeValid = true :=
  ⟨_, if_neg (List.length_pos_iff.2 (List.ne_nil_of_mem ((mem_presentSymbols _ _).2 h))).ne', rfl, rfl⟩

theorem ababCodes_get : ∀ x : Byte, (codesOf [(0x41, [false]), (0x42, [true])]).get x.toFin =
    (HTree.node (.leaf 0x41) (.leaf 0x42)).codeOf x := by decide +kernel

theorem ababCounts : ∀ x : Byte, x ∈ (HTree.node (.leaf 0x41) (.leaf 0x42)).symbols ↔
    freqAt (counts [(0x41, 2), (0x42, 2)]) x ≠ 0 := by decide +kernel

theorem abab_code (m : List Host.Cell) (w a0 a1 a2 a3 : Nat) (x : Byte) :
    (latched (abab m) w a0 a1 a2 a3).code x = (HTree.node (.leaf 0x41) (.leaf 0x42)).codeOf x :=
  ababCodes_get x

theorem abab_holds (m : List Host.Cell) (w a0 a1 a2 a3 : Nat) :
    HoldsTree (latched (abab m) w a0 a1 a2 a3) (.node (.leaf 0x41) (.leaf 0x42)) :=
  ⟨rfl, [2, 0, 1],
    .node 2 _ _ [0] [1] rfl (.leaf 0 0x41 rfl rfl) (.leaf 1 0x42 rfl rfl),
    by decide,
    (by decide +kernel : ∀ i : NodeIndex, i ∈ ([2, 0, 1] : List NodeIndex) ↔ i.toNat < (3#10).toNat),
    by decide⟩

theorem abab_treeInv (m : List Host.Cell) (w a0 a1 a2 a3 : Nat) : (latched (abab m) w a0 a1 a2 a3).treeInv :=
  ⟨rfl, fun _ => ⟨_, abab_holds m w a0 a1 a2 a3, abab_code m w a0 a1 a2 a3, .inl rfl⟩⟩

theorem witness_EncodeInvertsDecode : ∃ w i, decode w = .ok i := ⟨0x00004111#32, .freqSet 0x41, rfl⟩

theorem witness_StepRunsThePendingCommand :
    ∃ (s : State) (p : Pending) (i : Instr), s.pending = some p ∧ s.hostEarly = false ∧ decode p.word = .ok i :=
  ⟨{ latched State.reset 0x20 0 0 0 0 with script := [⟨false, .wait⟩] }, _, .treeBuild, rfl, rfl, rfl⟩

/-- One word for each of the three checks; the least and the greatest reserved opcode past the listed ones. -/
theorem witness_IllegalWordsAreReported :
    (∀ w ∈ [0x70, 0x10011, 0x100], ∃ (s : State) (p : Pending), p.word.toNat = w ∧ s.pending = some p ∧
      s.hostEarly = false ∧ (CmdFields.ofWord p.word).wellFormed = false) ∧
    (∀ k ∈ [0x70, 0xFF], 0x70 ≤ k ∧ k < 256) := by
  refine ⟨?_, by decide⟩
  simp only [List.forall_mem_cons, List.not_mem_nil, false_implies, implies_true, and_true]
  exact ⟨⟨latched State.reset 0x70 0 0 0 0, _, rfl, rfl, rfl, rfl⟩,
    ⟨latched State.reset 0x10011 0 0 0 0, _, rfl, rfl, rfl, rfl⟩,
    ⟨latched State.reset 0x100 0 0 0 0, _, rfl, rfl, rfl, rfl⟩⟩

theorem witness_IdleBlockHoldsItsState : ∃ s : State, s.pending = none ∧ s.script = [] := ⟨abab [], rfl, rfl⟩

theorem witness_CmdWriteIssuesOrOverruns : (∃ s : State, s.pending = none) ∧ ∃ s : State, s.pending ≠ none :=
  ⟨⟨State.reset, rfl⟩, latched State.reset 0x13 0 11 0 0, by decide⟩

theorem witness_OverrunIsSticky :
    (∃ s : State, s.pending ≠ none) ∧
    (∃ (i : Instr) (s t : State), exec i s = .next t ∧ i ≠ .ackOverrun ∧ i ≠ .softReset ∧ s.overrun = true) ∧
    (∃ (a : HostAction) (s t : State), hostAct a s = .next t ∧ a ≠ .hardReset ∧ s.overrun = true) ∧
    (∃ s t : State, s.overrun = true ∧ (exec .ackOverrun s = .next t ∨ exec .softReset s = .next t ∨
      hostAct .hardReset s = .next t)) :=
  ⟨⟨latched State.reset 0x13 0 11 0 0, by decide⟩,
    ⟨.nop, { State.reset with overrun := true }, _, rfl, by decide, by decide, rfl⟩,
    ⟨.wait, { State.reset with overrun := true }, _, rfl, by decide, rfl⟩,
    ⟨{ State.reset with overrun := true }, _, rfl, .inl rfl⟩⟩

/-- The first and the last aligned offset of the window. -/
theorem witness_ReservedAndReadOnlyOffsetsAreInert :
    ∀ o ∈ ([0x00, 0x3C] : List (BitVec 6)), o.toNat % 4 = 0 := by decide

theorem witness_RegistersReadTheirContent : (∃ s : State, s.pending = none) ∧ ∃ s : State, s.pending ≠ none :=
  witness_CmdWriteIssuesOrOverruns

/-- A write of one byte while a command is pending. -/
theorem witness_DmemAccessWhileBusyIsRefused : ∃ (s : State) (bs : List Byte), s.busy = true ∧ bs ≠ [] :=
  ⟨latched State.reset 0x13 0 11 0 0, [0], by decide⟩

/-- The least and the greatest `DMEM_BYTES` of 00_scope R6. -/
theorem witness_ResetMeetsTheInvariants :
    (∃ n, 1 ≤ n ∧ n ≤ 2 ^ 29 ∧ n = 1) ∧ (∃ n, 1 ≤ n ∧ n ≤ 2 ^ 29 ∧ n = 2 ^ 29) := by
  refine ⟨⟨1, ?_⟩, ⟨2 ^ 29, ?_⟩⟩ <;> decide

/-- A write of the last two bytes of DMEM, and a read of the last. -/
theorem witness_HostDmemAccess :
    ∃ (s : State) (a : Word) (bs : List Byte), s.pending = none ∧ bs.length = 2 ∧
      a.toNat + bs.length = s.dmemBytes ∧ (a + 1).toNat < s.dmemBytes ∧ (a + 1).toNat + 1 = s.dmemBytes :=
  ⟨State.reset, 65534, [1, 2], by decide⟩

theorem witness_NonWordAccessIsRefused :
    (1 ≠ 4 ∨ (0x00#6).toNat % 4 ≠ 0) ∧ (4 ≠ 4 ∨ (0x3F#6).toNat % 4 ≠ 0) := by decide

/-- V-F4: the last byte of DMEM. -/
theorem witness_FreqCountResult :
    ∃ s : State, s.args.a1 ≠ 0 ∧ s.args.a0.toNat + s.args.a1.toNat = s.dmemBytes :=
  ⟨latched State.reset 0x13 65535 1 0 0, by decide⟩

theorem witness_TreeBuildResult : ∃ s : State, ∃ x, freqAt s.freq x ≠ 0 :=
  ⟨onlyA [], 0x41, by decide +kernel⟩

/-- V-B6, for TreeBuildAllocatesLeavesInOrder and TreeBuildMergesInKeyOrder: four leaves and three merges, so two
leaves and two merges to compare. -/
theorem witness_TreeBuild_order :
    ∃ s t : State, exec .treeBuild s = .next t ∧ t.err = false ∧ t.q0.toNat = 4 ∧ t.nodes.length = 7 :=
  ⟨_, _, exec_run (i := .treeBuild)
    (s := { State.reset with freq := counts [(0x41, 1), (0x42, 1), (0x43, 1), (0x44, 1)] }) (by decide +kernel),
    by decide +kernel⟩

/-- V-N5: the last node. -/
theorem witness_NodeReadResult :
    ∃ s : State, s.treeValid = true ∧ s.args.a0.toNat + 1 = s.nodeCount.toNat :=
  ⟨latched (mississippi []) 0x21 6 0 0 0, by decide⟩

/-- The last bit of DMEM, a code as long as the region; a byte value with no entry; and a code of 33 bits. -/
theorem witness_CodeGetResult :
    (∃ (s : State) (x : Byte), s.treeValid = true ∧ s.args.a0.toNat + s.args.a1.toNat = 8 * s.dmemBytes ∧
      s.codeLen x = s.args.a1.toNat ∧ s.codeLen x = 1) ∧
    (∃ (s : State) (x : Byte), s.treeValid = true ∧ s.args.a0.toNat + s.args.a1.toNat ≤ 8 * s.dmemBytes ∧
      s.codeLen x = 0) ∧
    (∃ (s : State) (x : Byte), s.treeValid = true ∧ s.args.a0.toNat + s.args.a1.toNat ≤ 8 * s.dmemBytes ∧
      s.codeLen x ≤ s.args.a1.toNat ∧ s.codeLen x = 33) :=
  ⟨⟨latched (abab []) 0x4130 524287 1 0 0, 0x41, by decide +kernel⟩,
    ⟨latched (abab []) 0x4330 524288 0 0 0, 0x43, by decide +kernel⟩,
    ⟨latched { abab [] with codes := some (codesOf [(0, List.replicate 32 true ++ [false])]) } 0x30 0x2000 255 0 0,
      0, by decide +kernel⟩⟩

/-- "ABAB" into its last bit of capacity. -/
theorem witness_EncodeResult :
    ∃ s : State, s.treeValid = true ∧ s.args.a0.toNat + s.args.a1.toNat ≤ s.dmemBytes ∧
      s.args.a2.toNat + s.args.a3.toNat = 8 * s.dmemBytes ∧
      ¬ SharesByte s.args.a0.toNat s.args.a1.toNat s.args.a2.toNat s.args.a3.toNat ∧
      (∀ x ∈ encodeSource s, s.code x ≠ []) ∧ totalCodeBits s (encodeSource s) = s.args.a3.toNat ∧
      encodeSource s = [0x41, 0x42, 0x41, 0x42] :=
  ⟨latched (abab (cells 0 [0x41, 0x42, 0x41, 0x42])) 0x40 0 4 524284 4, by decide, by decide, by decide,
    fun h => absurd ((regionsOverlap_iff _ _ _ _).2 h) (by decide), by decide +kernel, by decide +kernel,
    by decide +kernel⟩

theorem witness_DecResetResult : ∃ s : State, s.treeValid = true ∧ s.cursor ≠ s.root :=
  ⟨{ mississippi [] with cursor := 5 }, by decide⟩

/-- A degenerate tree, a child that is a leaf, and one that is not. -/
theorem witness_DecStepResult :
    (∃ s : State, s.treeValid = true ∧ (s.node s.root.toNat).isLeaf = true) ∧
    (∃ s : State, s.treeValid = true ∧ (s.node s.root.toNat).isLeaf = false ∧
      (s.node (s.node s.cursor.toNat).left.toNat).isLeaf = true) ∧
    (∃ s : State, s.treeValid = true ∧ (s.node s.root.toNat).isLeaf = false ∧
      (s.node (s.node s.cursor.toNat).right.toNat).isLeaf = false) :=
  ⟨⟨onlyA [], rfl, rfl⟩, ⟨mississippi [], rfl, rfl, rfl⟩, ⟨mississippi [], rfl, rfl, rfl⟩⟩

/-- V-D10 with the capacity of its three symbols, ending inside a code; and its first six bits, ending at the root. -/
theorem witness_DecBulkResult : ∀ n ∈ [6, 7], ∃ s : State, s.args.a1.toNat = n ∧ s.treeValid = true ∧
    s.args.a0.toNat + s.args.a1.toNat ≤ 8 * s.dmemBytes ∧ s.args.a2.toNat + s.args.a3.toNat ≤ s.dmemBytes ∧
    ¬ SharesByte s.args.a2.toNat s.args.a3.toNat s.args.a0.toNat s.args.a1.toNat ∧
    (bulkWalk s).1.length = s.args.a3.toNat ∧ ((bulkWalk s).2 = s.root ↔ n = 6) := by
  simp only [List.forall_mem_cons, List.not_mem_nil, false_implies, implies_true, and_true]
  exact ⟨⟨latched (mississippi (cells 0x200 [0x9A])) 0x52 0x1000 6 65533 3, by decide, rfl, by decide, by decide,
      fun h => absurd ((regionsOverlap_iff _ _ _ _).2 h) (by decide), by decide +kernel, by decide +kernel⟩,
    ⟨latched (mississippi (cells 0x200 [0x9A])) 0x52 0x1000 7 65533 3, by decide, rfl, by decide, by decide,
      fun h => absurd ((regionsOverlap_iff _ _ _ _).2 h) (by decide), by decide +kernel, by decide +kernel⟩⟩

/-- V-T4 with exactly its 19 bits of capacity. -/
theorem witness_TreeSerResult :
    ∃ (s : State) (t : HTree), s.treeValid = true ∧ HoldsTree s t ∧
      s.args.a0.toNat + s.args.a1.toNat = 8 * s.dmemBytes ∧ t.bits.length = s.args.a1.toNat :=
  ⟨latched (abab []) 0x60 524269 19 0 0, _, rfl, abab_holds _ _ _ _ _ _, by decide, by decide⟩

/-- V-T12: the bits of the tree of "ABAB", with bits after them. -/
theorem witness_TreeDeserResult :
    ∃ (s : State) (t : HTree), s.args.a0.toNat + s.args.a1.toNat ≤ 8 * s.dmemBytes ∧ t.symbols.Nodup ∧
      t.bits.length ≤ s.args.a1.toNat ∧ s.readBits s.args.a0.toNat t.bits.length = t.bits :=
  ⟨latched { State.reset with dmem := cells 0x100 [0x50, 0x68, 0x40] } 0x61 0x800 64 0 0,
    .node (.leaf 0x41) (.leaf 0x42), by decide, by decide, by decide, by decide +kernel⟩

/-- The regions of ENCODE and of DEC_BULK share their last and first byte; of others there is no such case. -/
theorem witness_OnlyOverlappingRegionsAreRefused :
    (∃ s, OverlapRefused .encode s) ∧ (∃ s, OverlapRefused .decBulk s) ∧ ∃ i s, ¬ OverlapRefused i s :=
  ⟨⟨latched (abab []) 0x40 0 11 0x57 8, rfl, by decide, by decide,
      (regionsOverlap_iff _ _ _ _).1 (by decide)⟩,
    ⟨latched (abab []) 0x52 0x57 8 0 11, rfl, by decide, by decide, (regionsOverlap_iff _ _ _ _).1 (by decide)⟩,
    ⟨.nop, State.reset, fun h => h⟩⟩

theorem witness_FirstErrorIsReported :
    (∃ (i : Instr) (s : State), ¬ OverlapRefused i s ∧ firstError i s = some .uninitializedTree) ∧
    (∃ (i : Instr) (s : State), ¬ OverlapRefused i s ∧ firstError i s = some (.capacityExceeded 0)) ∧
    (∃ (i : Instr) (s : State), ¬ OverlapRefused i s ∧ firstError i s = none) :=
  ⟨⟨.decReset, State.reset, fun h => h, rfl⟩,
    ⟨.treeSer, latched (abab []) 0x60 0x800 18 0 0, fun h => h, by decide +kernel⟩,
    ⟨.treeSer, latched (abab []) 0x60 0x800 19 0 0, fun h => h, by decide +kernel⟩⟩

/-- P4 lines 2, 3 and 5: SymbolNotInTable, an error that leaves `Q1`, and a reserved opcode. -/
theorem witness_FailedCommandChangesNothing :
    (∃ (i : Instr) (s t : State), exec i s = .next t ∧ t.err = true ∧ t.errCode = 2) ∧
    (∃ (i : Instr) (s t : State), exec i s = .next t ∧ t.err = true ∧ t.errCode ≠ 2) ∧
    (∃ s t : State, s.pending ≠ none ∧ s.hostEarly = false ∧ step s = .next t ∧ t.err = true ∧ t.errCode ≠ 2) :=
  ⟨⟨_, _, _, exec_run (i := .encode)
      (s := latched (mississippi (cells 0x20 [0x4D, 0x49, 0x53, 0x53, 0x58])) 0x40 0x20 5 0x1800 1)
      (by decide +kernel), by decide +kernel⟩,
    ⟨_, _, _, exec_run (i := .nodeRead) (s := latched (mississippi []) 0x21 7 0 0 0) (by decide +kernel),
      by decide +kernel⟩,
    ⟨latched (mississippi []) 0x99 0 0 0 0, _, by decide +kernel, rfl, rfl, rfl, by decide⟩⟩

theorem witness_SuccessClearsTheRecord :
    ∃ (i : Instr) (s t : State), exec i s = .next t ∧ t.err = false ∧ s.errCode ≠ 0 :=
  ⟨.nop, { State.reset with err := true, errCode := 1 }, _, rfl, rfl, by decide⟩

theorem witness_EmptyTableIsReported : ∃ s : State, ∀ x, freqAt s.freq x = 0 :=
  ⟨State.reset, freqAt_freqEmpty⟩

/-- V-T10: one leaf. -/
theorem witness_TreeDeserAcceptsOnlyEncodings : ∃ s u : State, exec .treeDeser s = .next u ∧ u.err = false :=
  ⟨_, _, exec_run (i := .treeDeser)
    (s := latched { State.reset with dmem := cells 0x100 [0xA0, 0x80] } 0x61 0x800 9 0 0) (by decide +kernel),
    by decide +kernel⟩

theorem witness_TreeValidChangesOnlyByTreeCommands :
    (∃ (i : Instr) (s t : State), exec i s = .next t ∧ s.treeValid = true ∧ t.treeValid = false) ∧
    (∃ (i : Instr) (s t : State), exec i s = .next t ∧ s.treeValid = false ∧ t.treeValid = true) :=
  ⟨⟨.softReset, abab [], _, rfl, rfl, rfl⟩,
    have ⟨t, h, _, hv⟩ := treeBuild_runs (s := { State.reset with freq := counts [(0x41, 5)] }) (x := 0x41)
      (by decide +kernel)
    ⟨.treeBuild, _, t, h, rfl, hv⟩⟩

/-- One command that changes each: the frequency table, DMEM, the cursor. -/
theorem witness_CommandsWriteOnlyTheirOwnState :
    (∃ (i : Instr) (s t : State), exec i s = .next t ∧ freqAt t.freq 0x41 ≠ freqAt s.freq 0x41) ∧
    (∃ (i : Instr) (s t : State), exec i s = .next t ∧ t.dmem ≠ s.dmem) ∧
    (∃ (i : Instr) (s t : State), exec i s = .next t ∧ t.cursor ≠ s.cursor) :=
  ⟨⟨_, _, _, exec_run (i := .freqSet 0x41) (s := latched State.reset 0x4111 5 0 0 0) (by decide +kernel),
      by decide +kernel⟩,
    ⟨_, _, _, exec_run (i := .codeGet 0x42) (s := latched (abab (cells 0x100 [0])) 0x4230 0x800 1 0 0)
      (by decide +kernel), by decide +kernel⟩,
    ⟨.decReset, { mississippi [] with cursor := 5 }, _, rfl, by decide⟩⟩

/-- V-D5 on V-B4's tree: a state with a command pending that meets all three invariants, and its step. -/
theorem witness_StepKeeps :
    ∃ s t : State, s.memoryInv ∧ s.recordInv ∧ s.treeInv ∧ s.treeValid = true ∧ step s = .next t ∧
      t.q0 = 0x142 :=
  ⟨_, _, ⟨by decide, by decide⟩, ⟨by decide, by decide⟩, abab_treeInv (cells 0 [0x41, 0x42]) 0x151 0 0 0 0, rfl,
    step_after (s := latched (abab (cells 0 [0x41, 0x42])) 0x151 0 0 0 0) (by decide +kernel), by decide +kernel⟩

/-- With nothing pending an issue, after which no early host line stands first. -/
theorem witness_IssuedWordRunsNext :
    ∃ (s u : State) (i : Instr), s.pending = none ∧ hostAct (.writeReg 4 0x00#6 (encode i)) s = .next u ∧
      u.hostEarly = false :=
  ⟨State.reset, _, .nop, rfl, rfl, rfl⟩

theorem witness_CodesArePrefixFree :
    (∃ (s : State) (x y : Byte), s.treeInv ∧ s.treeValid = true ∧ s.code x ≠ [] ∧ s.code y ≠ [] ∧ x ≠ y) ∧
    ∃ (t : HTree) (x y : Byte), t.symbols.Nodup ∧ x ∈ t.symbols ∧ y ∈ t.symbols ∧ x ≠ y :=
  ⟨⟨latched (abab []) 0 0 0 0 0, 0x41, 0x42, abab_treeInv [] 0 0 0 0 0, rfl, by decide +kernel⟩,
    .node (.leaf 0x41) (.leaf 0x42), 0x41, 0x42, by decide⟩

theorem witness_SerializedLength : ∃ (s : State) (t : HTree), HoldsTree s t ∧ t.leaves = 2 :=
  ⟨latched (abab []) 0x60 0 0 0 0, _, abab_holds [] 0x60 0 0 0 0, by decide⟩

/-- V-B4, and the same tree with its leaves named. -/
theorem witness_BuiltTreeIsOptimal :
    ∃ (s t : State) (h : HTree), exec .treeBuild s = .next t ∧ t.err = false ∧ h.symbols.Nodup ∧
      ∀ x, x ∈ h.symbols ↔ freqAt s.freq x ≠ 0 :=
  have ⟨t, h, he, _⟩ := treeBuild_runs (s := abab []) (x := 0x41) (by decide +kernel)
  ⟨_, t, .node (.leaf 0x41) (.leaf 0x42), h, he, by decide, ababCounts⟩

/-- V-B2: one leaf. -/
theorem witness_BuiltCodeMeetsTheLengthBound :
    ∃ (s t : State) (x : Byte), exec .treeBuild s = .next t ∧ t.err = false ∧ t.q0 = 1 ∧ freqAt s.freq x ≠ 0 :=
  ⟨_, _, 0x41, exec_run (i := .treeBuild) (s := onlyA []) (by decide +kernel), by decide +kernel⟩

/-- "AB" to bit 0x1000 and back to byte 0x300, in capacities that just do. -/
theorem witness_DecBulkInvertsEncode :
    ∃ (s u : State) (p : Pending), s.treeInv ∧ exec .encode s = .next u ∧ u.err = false ∧
      p.args.a0 = s.args.a2 ∧ p.args.a1 = u.q0 ∧ s.args.a1.toNat = p.args.a3.toNat ∧ s.args.a1 = 2 ∧
      p.args.a2.toNat + p.args.a3.toNat ≤ s.dmemBytes ∧
      ¬ SharesByte p.args.a2.toNat p.args.a3.toNat p.args.a0.toNat p.args.a1.toNat :=
  ⟨_, _, ⟨0x52, ⟨0x1000, 2, 0x300, 2⟩⟩, abab_treeInv (cells 0 [0x41, 0x42] ++ cells 0x200 [0]) 0x40 0 2 0x1000 2,
    exec_run (i := .encode)
      (s := latched (abab (cells 0 [0x41, 0x42] ++ cells 0x200 [0])) 0x40 0 2 0x1000 2) (by decide +kernel),
    by decide +kernel, by decide, by decide +kernel, by decide, by decide, by decide,
    fun h => absurd ((regionsOverlap_iff _ _ _ _).2 h) (by decide)⟩

/-- As P1 and P2 do: TREE_SER with capacity 512, TREE_DESER over just the bits written, and over all of DMEM from there. -/
theorem witness_DeserializingInvertsSerializing :
    ∀ n ∈ [19, 522240], ∃ (s u : State) (t : HTree) (p : Pending), s.treeValid = true ∧ HoldsTree s t ∧
      (∀ x, s.code x = t.codeOf x) ∧ exec .treeSer s = .next u ∧ u.err = false ∧ p.args.a0 = s.args.a0 ∧
      p.args.a1.toNat = n ∧ p.args.a0.toNat + p.args.a1.toNat ≤ 8 * s.dmemBytes ∧
      u.q0.toNat ≤ p.args.a1.toNat := by
  simp only [List.forall_mem_cons, List.not_mem_nil, false_implies, implies_true, and_true]
  exact ⟨⟨latched (abab (cells 0x100 [0, 0, 0])) 0x60 0x800 512 0 0, _, _, ⟨0x61, ⟨0x800, 19, 0, 0⟩⟩, rfl,
      abab_holds _ _ _ _ _ _, abab_code _ _ _ _ _ _, exec_run (by decide +kernel), by decide +kernel,
      by decide +kernel⟩,
    ⟨latched (abab (cells 0x100 [0, 0, 0])) 0x60 0x800 512 0 0, _, _, ⟨0x61, ⟨0x800, 522240, 0, 0⟩⟩, rfl,
      abab_holds _ _ _ _ _ _, abab_code _ _ _ _ _ _, exec_run (by decide +kernel), by decide +kernel,
      by decide +kernel⟩⟩

theorem witness_SerializingInvertsDeserializing :
    ∃ (s u : State) (p : Pending), exec .treeDeser s = .next u ∧ u.err = false ∧
      p.args.a0.toNat + p.args.a1.toNat = 8 * s.dmemBytes ∧ u.q0.toNat = p.args.a1.toNat :=
  ⟨_, _, ⟨0x60, ⟨524279, 9, 0, 0⟩⟩, exec_run (i := .treeDeser)
    (s := latched { State.reset with dmem := cells 0x100 [0xA0, 0x80] } 0x61 0x800 9 0 0) (by decide +kernel),
    by decide +kernel⟩

theorem unfinished_internals (n : Nat) : Unfinished (List.replicate n TreeToken.internal) := by
  intro k _
  simp [List.take_replicate, List.countP_replicate, TreeToken.sym]

/-- V-T13, V-T14, V-T16 and V-T17: each cause, with the nodes before it; and V-T18, all 511 nodes and no bit more. -/
theorem witness_TreeDeserNamesTheCause :
    (∀ e ∈ [(0, ([] : List TreeToken), ([] : Bits)), (7, [], [true, false, true, false, false, false, false]),
        (19, [.internal, .leaf 0x41], true :: bin8 0x41)],
      ∃ s : State, s.args.a1.toNat = e.1 ∧ s.args.a0.toNat + s.args.a1.toNat ≤ 8 * s.dmemBytes ∧
        s.readBits s.args.a0.toNat s.args.a1.toNat = e.2.1.flatMap TreeToken.bits ++ e.2.2 ∧ Unfinished e.2.1 ∧
        (e.2.1.filterMap TreeToken.sym).Nodup ∧ e.2.1.length < 511) ∧
    (∀ n ∈ [511, 512], ∃ (s : State) (ts : List TreeToken) (p : Bits), s.args.a1.toNat = n ∧
      s.args.a0.toNat + s.args.a1.toNat ≤ 8 * s.dmemBytes ∧
      s.readBits s.args.a0.toNat s.args.a1.toNat = ts.flatMap TreeToken.bits ++ p ∧ Unfinished ts ∧
      (ts.filterMap TreeToken.sym).Nodup ∧ ts.length = 511 ∧ (p = [] ↔ n = 511)) := by
  simp only [List.forall_mem_cons, List.not_mem_nil, false_implies, implies_true, and_true]
  exact ⟨⟨⟨latched State.reset 0x61 0x800 0 0 0, by decide, by decide, by decide +kernel, by unfold Unfinished; decide,
        by decide, by decide⟩,
      ⟨latched { State.reset with dmem := cells 0x100 [0xA0] } 0x61 0x800 7 0 0, by decide, by decide,
        by decide +kernel, by unfold Unfinished; decide, by decide, by decide⟩,
      ⟨latched { State.reset with dmem := cells 0x100 [0x50, 0x68, 0x20] } 0x61 0x800 19 0 0, by decide, by decide,
        by decide +kernel, by unfold Unfinished; decide, by decide, by decide⟩⟩,
    ⟨latched { State.reset with dmem := cells 0x100 (List.replicate 64 0) } 0x61 0x800 511 0 0,
      List.replicate 511 .internal, [], by decide, by decide, by decide +kernel, unfinished_internals _, by decide +kernel,
      List.length_replicate,
      by decide⟩,
    ⟨latched { State.reset with dmem := cells 0x100 (List.replicate 64 0) } 0x61 0x800 512 0 0,
      List.replicate 511 .internal, [false], by decide, by decide, by decide +kernel, unfinished_internals _, by decide +kernel,
      List.length_replicate,
      by decide⟩⟩

/-- A byte cleared, for a bitstring of three bits. -/
theorem witness_AlignedWritePacksBytes :
    ∃ (e : Nat) (m : List Host.Cell) (a : Nat) (p : Bits), p.length = 3 ∧
      ∀ k, k < (p.length + 7) / 8 → Memory.read e m (a + k) = 0 :=
  ⟨0, cells 0x100 [0], 0x100, [true, false, true], rfl, by decide⟩

/-- S1's tree blob length and payload length. -/
theorem witness_ContainerRoundTrip :
    ∃ (magic : List Byte) (tree payload : Bits), magic.length = 4 ∧ tree.length < 2 ^ 32 ∧
      payload.length < 2 ^ 32 :=
  ⟨[1, 2, 3, 4], List.replicate 39 true, List.replicate 21 false, by decide⟩

end Sys2Proof.Tests
end

section
/-! PROOFS of the family 00_scope: what the OPEN `DMEM_BYTES` may be, and the three invariants at reset
(00_scope R6, 10_state R48). -/

namespace Sys2Proof.Machine

/-! ## A block of each size -/

/-- A block whose last DMEM address is `n - 1` has the size `n` (00_scope R6). -/
theorem State.exists_resetWith_dmemBytes_eq (n : Nat) (h1 : Config.dmemBytesMin ≤ n)
    (h2 : n ≤ Config.dmemBytesMax) : ∃ top, (State.resetWith top).dmemBytes = n := by
  have hpos : 0 < n := h1
  exact ⟨⟨n - 1, (Nat.sub_one_lt_of_lt hpos).trans_le h2⟩,
    (State.resetWith_dmemBytes _).trans (Nat.sub_add_cancel h1)⟩

/-! ## The invariants at reset -/

/-- No byte of DMEM is written at reset, so its list of cells is in canonical form (log 2). -/
theorem State.resetWith_memoryInv (top : Fin Config.dmemBytesMax) : (State.resetWith top).memoryInv := by
  have hwf : Memory.wf (State.resetWith top).dmem = true := by simp [Memory.wf_iff]
  have hwithin : Memory.within (State.resetWith top).dmemBytes (State.resetWith top).dmem = true := by
    simp [Memory.within_iff]
  exact ⟨hwf, hwithin⟩

/-- The error record is clear at reset, which is the case of `recordInv` without an error. -/
theorem State.resetWith_recordInv (top : Fin Config.dmemBytesMax) : (State.resetWith top).recordInv := by
  constructor
  · intro _
    exact ⟨State.resetWith_errCode top, State.resetWith_errInfo top⟩
  · intro herr
    simp at herr

/-- The queue is empty at reset and there is no tree (10_state R48). -/
theorem State.resetWith_treeInv (top : Fin Config.dmemBytesMax) : (State.resetWith top).treeInv := by
  constructor
  · exact State.resetWith_pq top
  · intro hvalid
    simp at hvalid

/-! ## O49 -/

/-- Settles O49: the size is bounded by the type of `dmemTop`, a last address `n - 1` gives the block of size `n`,
and the invariants at reset hold for every last address, hence for that of `State.reset` too. -/
theorem resetMeetsTheInvariants : Obligations.ResetMeetsTheInvariants := by
  refine ⟨State.dmemBytes_range, ?_, ?_⟩
  · intro n h1 h2
    obtain ⟨top, hsize⟩ := State.exists_resetWith_dmemBytes_eq n h1 h2
    exact ⟨top, hsize, State.resetWith_memoryInv top, State.resetWith_recordInv top, State.resetWith_treeInv top⟩
  · exact ⟨State.resetWith_memoryInv _, State.resetWith_recordInv _, State.resetWith_treeInv _⟩

end Sys2Proof.Machine
end

section
/-! PROOFS of the family 10_state, first part: what a command can leave, said once for all commands, and what it does
to the tree, to the error record and to the fields that are not its own (10_state R24, R30, R35, R40). -/

namespace Sys2Proof.Machine

/-! ## What a command leaves -/

/-- `Effect i s u`: command `i`, run from `s` and successful, can leave `u` but for its results in `Q0..Q2` and its
completion. The counts of FREQ_COUNT and the bits and bytes written to DMEM are left open: which fields a command
touches, and what becomes of the tree and the cursor, does not depend on them. -/
inductive Effect : Instr → State → State → Prop where
  | nop (s : State) : Effect .nop s s
  | softReset (s : State) : Effect .softReset s s.clearBlock
  | ackOverrun (s : State) : Effect .ackOverrun s (s.setOverrun false)
  | freqClear (s : State) : Effect .freqClear s (s.setFreq freqEmpty)
  | freqSet (s : State) (x : Byte) : Effect (.freqSet x) s (s.setFreq (freqSetAt s.freq x s.args.a0))
  | freqGet (s : State) (x : Byte) : Effect (.freqGet x) s s
  | freqCount (s : State) (f : Vector Word 256) : Effect .freqCount s (s.setFreq f)
  | treeBuild (s : State) (hp : presentSymbols s.freq ≠ []) : Effect .treeBuild s s.withBuiltTree
  | nodeRead (s : State) : Effect .nodeRead s s
  | codeGet (s : State) (x : Byte) (b : Nat) (p : Bits) : Effect (.codeGet x) s (s.writeBits b p)
  | encode (s : State) (b : Nat) (p : Bits) : Effect .encode s (s.writeBits b p)
  | decReset (s : State) : Effect .decReset s (s.setCursor s.root)
  | decStep (s : State) (v : Byte) :
      Effect (.decStep v) s (s.setCursor (walk1 s.node s.root s.cursor (v == 1)).2)
  | decBulk (s : State) (a : Nat) (vs : List Byte) (p : Bits) :
      Effect .decBulk s ((s.writeBytes a vs).setCursor (walkBits s.node s.root s.root p).2)
  | treeSer (s : State) (b : Nat) (p : Bits) : Effect .treeSer s (s.writeBits b p)
  | treeDeser (s : State) (bit : Nat → Bool) (len : Nat) (i : NodeIndex) (p : ParseState)
      (hp : parseTree bit len (Config.nNodes + 1) parseStart = .ok (i, p)) :
      Effect .treeDeser s (s.installTree p.fresh 0).generateCodes

/-- A command that gives a next state has either failed, with at most `Q1` written beside the error record
(60_exceptions R305), or completed its effect with some results. -/
theorem exec_cases {i : Instr} {s t : State} (h : exec i s = .next t) :
    (∃ v e, t = (s.setQ1 v).raise e) ∨
    ∃ u v0 v1 v2, Effect i s u ∧ t = (((u.setQ0 v0).setQ1 v1).setQ2 v2).complete := by
  cases i with
  | nop => exact .inr ⟨s, s.q0, s.q1, s.q2, .nop s, (succeed_next _ _).1 h⟩
  | softReset => exact .inr ⟨_, 0, 0, 0, .softReset s, (succeed_next _ _).1 h⟩
  | ackOverrun => exact .inr ⟨_, s.q0, s.q1, s.q2, .ackOverrun s, (succeed_next _ _).1 h⟩
  | freqClear => exact .inr ⟨_, s.q0, s.q1, s.q2, .freqClear s, (succeed_next _ _).1 h⟩
  | freqSet x => exact .inr ⟨_, s.q0, s.q1, s.q2, .freqSet s x, (succeed_next _ _).1 h⟩
  | freqGet x => exact .inr ⟨_, freqAt s.freq x, s.q1, s.q2, .freqGet s x, (succeed_next _ _).1 h⟩
  | freqCount =>
    obtain ⟨-, rfl⟩ | ⟨-, f, rfl, -⟩ := execFreqCount_cases h
    · exact .inl ⟨s.q1, _, rfl⟩
    · exact .inr ⟨_, BitVec.ofNat 32 (distinctSymbols f), s.args.a1, s.q2, .freqCount s f, rfl⟩
  | treeBuild =>
    obtain ⟨-, rfl⟩ | ⟨hp, rfl⟩ := execTreeBuild_cases h
    · exact .inl ⟨s.q1, _, rfl⟩
    · exact .inr ⟨_, _, _, _, .treeBuild s (mt List.length_eq_zero_iff.2 hp), rfl⟩
  | nodeRead =>
    obtain ⟨e, rfl⟩ | ⟨-, v0, v1, v2, rfl⟩ := execNodeRead_cases h
    · exact .inl ⟨s.q1, e, rfl⟩
    · exact .inr ⟨_, v0, v1, v2, .nodeRead s, rfl⟩
  | codeGet x =>
    obtain ⟨e, rfl⟩ | ⟨-, -, -, v0, v1, rfl⟩ := execCodeGet_cases h
    · exact .inl ⟨s.q1, e, rfl⟩
    · exact .inr ⟨_, v0, v1, s.q2, .codeGet s x _ _, rfl⟩
  | encode =>
    obtain ⟨v, e, rfl, -⟩ | ⟨-, -, p, v0, v1, -, rfl⟩ := execEncode_cases h
    · exact .inl ⟨v, e, rfl⟩
    · exact .inr ⟨_, v0, v1, s.q2, .encode s _ p, rfl⟩
  | decReset =>
    obtain ⟨e, rfl⟩ | ⟨-, rfl⟩ := execDecReset_cases h
    · exact .inl ⟨s.q1, e, rfl⟩
    · exact .inr ⟨_, s.q0, s.q1, s.q2, .decReset s, rfl⟩
  | decStep v =>
    obtain ⟨e, rfl⟩ | ⟨-, -, rfl⟩ := execDecStep_cases h
    · exact .inl ⟨s.q1, e, rfl⟩
    · exact .inr ⟨_, emission (walk1 s.node s.root s.cursor (v == 1)).1, s.q1, s.q2, .decStep s v, rfl⟩
  | decBulk =>
    obtain ⟨e, rfl⟩ | ⟨-, -, r, v0, v1, v2, rfl, -, rfl⟩ := execDecBulk_cases h
    · exact .inl ⟨s.q1, e, rfl⟩
    · exact .inr ⟨_, v0, v1, v2, .decBulk s _ _ _, rfl⟩
  | treeSer =>
    obtain ⟨e, rfl⟩ | ⟨-, -, -, v0, v1, rfl⟩ := execTreeSer_cases h
    · exact .inl ⟨s.q1, e, rfl⟩
    · exact .inr ⟨_, v0, v1, s.q2, .treeSer s _ _, rfl⟩
  | treeDeser =>
    obtain ⟨e, rfl⟩ | ⟨-, i, p, hp, rfl⟩ := execTreeDeser_cases h
    · exact .inl ⟨s.q1, e, rfl⟩
    · exact .inr ⟨_, BitVec.ofNat 32 p.pos, BitVec.ofNat 32 p.seen.length, s.q2, .treeDeser s _ _ i p hp, rfl⟩

/-! ## Which command writes what -/

section Written

variable {i : Instr} {s u : State}

theorem Effect.freq_eq (h : Effect i s u) :
    u.freq = s.freq ∨ i = .softReset ∨ i = .freqClear ∨ (∃ x, i = .freqSet x) ∨ i = .freqCount := by
  cases h <;> simp

theorem Effect.dmem_eq (h : Effect i s u) :
    u.dmem = s.dmem ∨ (∃ x, i = .codeGet x) ∨ i = .encode ∨ i = .decBulk ∨ i = .treeSer := by
  cases h <;> simp

theorem Effect.cursor_eq (h : Effect i s u) :
    u.cursor = s.cursor ∨ i = .softReset ∨ i = .treeBuild ∨ i = .treeDeser ∨ i = .decReset ∨
      (∃ v, i = .decStep v) ∨ i = .decBulk := by
  cases h <;> simp

/-- No effect reaches the argument registers, the parameter or the model's host fields. -/
theorem Effect.host_eq (h : Effect i s u) :
    [u.a0, u.a1, u.a2, u.a3] = [s.a0, s.a1, s.a2, s.a3] ∧ u.dmemBytes = s.dmemBytes ∧
    u.dmemEpoch = s.dmemEpoch ∧ u.draws = s.draws ∧ u.script = s.script ∧ u.seen = s.seen := by
  cases h <;> simp

theorem Effect.treeValid_eq (h : Effect i s u) :
    u.treeValid = s.treeValid ∨ (i = .softReset ∧ u.treeValid = false) ∨
      ((i = .treeBuild ∨ i = .treeDeser) ∧ u.treeValid = true) := by
  cases h <;> simp

end Written

/-- Settles O45: a failed command writes none of these, and a completed one what its effect writes. -/
theorem commandsWriteOnlyTheirOwnState : Obligations.CommandsWriteOnlyTheirOwnState := by
  intro i s t h
  obtain ⟨v, e, rfl⟩ | ⟨u, v0, v1, v2, hu, rfl⟩ := exec_cases h
  · simp
  · exact ⟨hu.freq_eq.resolve_left, hu.dmem_eq.resolve_left, hu.cursor_eq.resolve_left, hu.host_eq⟩

/-- Settles O44: a failed command keeps TREE_VALID; a completed one has `ERR = 0` and changes TREE_VALID only as its
effect does. -/
theorem treeValidChangesOnlyByTreeCommands : Obligations.TreeValidChangesOnlyByTreeCommands := by
  intro i s t h
  obtain ⟨v, e, rfl⟩ | ⟨u, v0, v1, v2, hu, rfl⟩ := exec_cases h
  · simp +contextual
  · obtain heq | ⟨hi, hv⟩ | ⟨hi, hv⟩ := hu.treeValid_eq
    · simp +contextual [heq]
    · simp [hi, hv]
    · simp [hi, hv]

/-! ## The error record -/

theorem State.raise_recordInv (s : State) (e : CmdError) : (s.raise e).recordInv := by
  obtain ⟨h1, h8⟩ := e.code_range
  exact ⟨nofun, fun _ => ⟨h1, h8, rfl⟩⟩

/-- The record is legal wherever `ERR`, `ERRCODE` and `ERRINFO` are clear, whatever is pending. -/
theorem State.recordInv_of_clear {s : State} (h : s.err = false) (hc : s.errCode = 0) (hi : s.errInfo = 0) :
    s.recordInv := by
  constructor
  · exact fun _ => ⟨hc, hi⟩
  · simp [h]

theorem exec_recordInv {i : Instr} {s t : State} (h : exec i s = .next t) : t.recordInv := by
  obtain ⟨v, e, rfl⟩ | ⟨u, v0, v1, v2, -, rfl⟩ := exec_cases h
  · exact State.raise_recordInv _ e
  · exact State.recordInv_of_clear rfl rfl rfl

/-- A host action keeps the record as it stands, or clears it (an issue, the reset input). -/
theorem hostAct_recordInv {a : HostAction} {s t : State} (hs : s.recordInv) (h : hostAct a s = .next t) :
    t.recordInv := by
  obtain ⟨_, o, v, -, rfl⟩ | ⟨v, d, rfl⟩ | ⟨a, bs, -, -, -, rfl⟩ | ⟨l, -, rfl⟩ | ⟨-, rfl⟩ := hostAct_cases h
  · obtain he | he | ⟨x, y, z, w, he⟩ := writeWindow_cases s o v
    · rw [he]
      exact State.recordInv_of_clear rfl rfl rfl
    · rw [he]
      exact hs
    · rw [he]
      exact hs
  · exact hs
  · exact hs
  · exact hs
  · exact State.recordInv_of_clear rfl rfl rfl

/-- Settles O47: a command leaves a legal record from any state, an illegal word leaves IllegalCommand, and a host
move keeps the record legal. -/
theorem stepKeepsErrorRecordLegal : Obligations.StepKeepsErrorRecordLegal := by
  intro s t hs h
  obtain ⟨_, i, -, -, -, hx⟩ | ⟨p, -, rfl⟩ | ⟨-, rfl⟩ | ⟨l, rest, -, ha⟩ := step_cases h
  · exact exec_recordInv hx
  · exact State.raise_recordInv _ _
  · exact hs
  · have hrest : (s.setScript rest).recordInv := hs
    exact hostAct_recordInv hrest ha

/-! ## The tree -/

/-- The fields that hold the tree, its code table and the queue; the cursor is apart. -/
def State.treeFields (s : State) :
    List QueueKey × Bool × List Node × NodeIndex × BitVec 10 × Option (Vector Bits 256) × Nat :=
  (s.pq, s.treeValid, s.nodes, s.root, s.nodeCount, s.codes, s.storeEpoch)

/-- The cursor of `u` is reached from the cursor of `s`, or from its root, by walking some bits (44_decoder R241);
walking none, it stays or goes to the root. -/
def CursorWalked (s u : State) : Prop :=
  ∃ c p, (c = s.cursor ∨ c = s.root) ∧ u.cursor = (walkBits s.node s.root c p).2

theorem cursorWalked_of_eq {s u : State} (h : u.cursor = s.cursor) : CursorWalked s u :=
  ⟨s.cursor, [], .inl rfl, h⟩

/-- The tree invariant speaks of the tree fields and the cursor only, and no walk leaves the internal nodes and the
root (10_state R36). -/
theorem State.treeInv_of_sameTree {s u : State} (hs : s.treeInv) (h : u.treeFields = s.treeFields)
    (hw : CursorWalked s u) : u.treeInv := by
  simp only [State.treeFields, Prod.mk.injEq] at h
  obtain ⟨hpq, hvalid, hnodes, hroot, hcount, hcodes, hepoch⟩ := h
  obtain ⟨c, p, hc, hcursor⟩ := hw
  obtain ⟨hempty, htree⟩ := hs
  refine ⟨hpq.trans hempty, fun hv => ?_⟩
  obtain ⟨t, hold, hown, hlegal⟩ := htree (hvalid.symm.trans hv)
  have hnode : u.node = s.node := by
    funext i
    simp only [State.node, hnodes, hepoch]
  have hcode : ∀ x, u.code x = s.code x := by
    intro x
    simp only [State.code, hcodes, hepoch]
  have hstart : c = s.root ∨ (c.toNat < s.nodeCount.toNat ∧ (s.node c.toNat).isLeaf = false) := by
    obtain rfl | rfl := hc
    · exact hlegal
    · exact .inl rfl
  refine ⟨t, hold.congr hnodes hroot hcount hepoch, fun x => (hcode x).trans (hown x), ?_⟩
  rw [hcursor, hroot, hcount, hnode]
  exact walkBits_cursor hold p c hstart

/-- Generating the code table of a tree just installed completes it (10_state R34, 42_code_table R201). -/
theorem HoldsTree.generateCodes_treeInv {s : State} {t : HTree} (h : HoldsTree s t) (hq : s.pq = [])
    (hc : s.cursor = s.root) : s.generateCodes.treeInv := by
  have hold : HoldsTree s.generateCodes t := h.congr rfl rfl rfl rfl
  obtain ⟨-, is, hrep, -, -, hsyms⟩ := h
  exact ⟨hq, fun _ => ⟨t, hold, fun x => codeGen_get hrep hsyms x, .inl hc⟩⟩

/-- TREE_BUILD on a nonempty table leaves a tree with its code table (41_tree_builder R162). -/
theorem State.withBuiltTree_treeInv {s : State} (hp : presentSymbols s.freq ≠ []) : s.withBuiltTree.treeInv := by
  obtain ⟨⟨t, hold, -⟩, -⟩ := buildTree_holdsTree hp
    (s.installTree (buildTree s.freq).nodes (buildTree s.freq).root) rfl rfl rfl
  exact hold.generateCodes_treeInv rfl rfl

/-- A parse that succeeds from the start leaves the layout of a tree in the fresh store (45_tree_serdes R278). -/
theorem parseTree_fresh {bit : Nat → Bool} {len fuel : Nat} {i : NodeIndex} {p : ParseState}
    (h : parseTree bit len fuel parseStart = .ok (i, p)) :
    ∃ t : HTree, t.symbols.Nodup ∧ p.fresh = HTree.layout 0 t := by
  obtain ⟨t, hparse, -, -, rfl⟩ := parseTree_sound bit len fuel parseStart p i (Nat.zero_le _) (Nat.zero_le _) h
  obtain ⟨-, -, -, hsyms, -⟩ := hparse
  exact ⟨t, hsyms, rfl⟩

/-- Installing the store of a successful parse, with its code table, leaves a tree (45_tree_serdes R276). -/
theorem State.installParsed_treeInv (s : State) {bit : Nat → Bool} {len fuel : Nat} {i : NodeIndex} {p : ParseState}
    (h : parseTree bit len fuel parseStart = .ok (i, p)) : (s.installTree p.fresh 0).generateCodes.treeInv := by
  obtain ⟨t, hsyms, hfresh⟩ := parseTree_fresh h
  have hcount : (s.installTree p.fresh 0).nodeCount = BitVec.ofNat 10 t.size := by
    rw [State.installTree_nodeCount, hfresh, HTree.layout_length]
  exact (HTree.layout_holdsTree _ t hsyms hfresh rfl hcount).generateCodes_treeInv rfl rfl

/-- A state without a tree and with an empty queue meets the tree invariant. -/
theorem State.treeInv_of_noTree {s : State} (hq : s.pq = []) (hv : s.treeValid = false) : s.treeInv :=
  ⟨hq, fun h => absurd (hv.symm.trans h) Bool.false_ne_true⟩

/-- Every effect keeps the tree invariant: SOFT_RESET drops the tree, the tree commands make a new one, the decoder
moves the cursor by walks, and the other commands touch neither. -/
theorem Effect.treeInv {i : Instr} {s u : State} (h : Effect i s u) (hs : s.treeInv) : u.treeInv := by
  cases h with
  | softReset => exact State.treeInv_of_noTree rfl rfl
  | treeBuild _ hp => exact State.withBuiltTree_treeInv hp
  | treeDeser _ _ _ _ _ hp => exact s.installParsed_treeInv hp
  | decReset => exact State.treeInv_of_sameTree hs rfl ⟨s.root, [], .inr rfl, rfl⟩
  | decStep _ v => exact State.treeInv_of_sameTree hs rfl ⟨s.cursor, [v == 1], .inl rfl, rfl⟩
  | decBulk _ _ _ p => exact State.treeInv_of_sameTree hs rfl ⟨s.root, p, .inr rfl, rfl⟩
  | nop | freqGet | nodeRead => exact hs
  | ackOverrun | freqClear | freqSet | freqCount | codeGet | encode | treeSer =>
    exact State.treeInv_of_sameTree hs rfl (cursorWalked_of_eq rfl)

theorem exec_treeInv {i : Instr} {s t : State} (hs : s.treeInv) (h : exec i s = .next t) : t.treeInv := by
  obtain ⟨v, e, rfl⟩ | ⟨u, v0, v1, v2, hu, rfl⟩ := exec_cases h
  · exact State.treeInv_of_sameTree hs rfl (cursorWalked_of_eq rfl)
  · exact State.treeInv_of_sameTree (hu.treeInv hs) rfl (cursorWalked_of_eq rfl)

/-- A host action other than the reset input touches neither the tree nor the cursor. -/
theorem hostAct_sameTree {a : HostAction} {s t : State} (h : hostAct a s = .next t) :
    (t.treeFields = s.treeFields ∧ t.cursor = s.cursor) ∨ t = s.hardReset := by
  obtain ⟨_, o, v, -, rfl⟩ | ⟨v, d, rfl⟩ | ⟨a, bs, -, -, -, rfl⟩ | ⟨l, -, rfl⟩ | ⟨-, rfl⟩ := hostAct_cases h
  · left
    obtain he | he | ⟨x, y, z, w, he⟩ := writeWindow_cases s o v <;> rw [he] <;> exact ⟨rfl, rfl⟩
  · exact .inl ⟨rfl, rfl⟩
  · exact .inl ⟨rfl, rfl⟩
  · exact .inl ⟨rfl, rfl⟩
  · exact .inr rfl

theorem hostAct_treeInv {a : HostAction} {s t : State} (hs : s.treeInv) (h : hostAct a s = .next t) : t.treeInv := by
  obtain ⟨htree, hcursor⟩ | rfl := hostAct_sameTree h
  · exact State.treeInv_of_sameTree hs htree (cursorWalked_of_eq hcursor)
  · exact State.treeInv_of_noTree rfl rfl

/-- Settles O48: the pending command keeps the tree invariant through its effect, and an illegal word and a host
move leave the tree and the cursor alone or reset the block. -/
theorem stepKeepsTreeWhole : Obligations.StepKeepsTreeWhole := by
  intro s t hs h
  obtain ⟨_, i, -, -, -, hx⟩ | ⟨p, -, rfl⟩ | ⟨-, rfl⟩ | ⟨l, rest, -, ha⟩ := step_cases h
  · exact exec_treeInv hs hx
  · exact State.treeInv_of_sameTree hs rfl (cursorWalked_of_eq rfl)
  · exact hs
  · have hrest : (s.setScript rest).treeInv := State.treeInv_of_sameTree hs rfl (cursorWalked_of_eq rfl)
    exact hostAct_treeInv hrest ha

end Sys2Proof.Machine
end

section
/-! PROOFS of the family 10_state, second part: the status word, the register window and DMEM as the host meets them,
the reset input, and how a step takes up the pending command (10_state R23, R37 to R48). -/

namespace Sys2Proof.Machine

/-! ## The status word (R39) -/

/-- Which field each bit of the status word comes from. -/
theorem State.statusWord_getLsbD (s : State) (i : Nat) : s.statusWord.getLsbD i =
    if i < 1 then s.busy else if i < 2 then s.err else if i < 4 then false
    else if i < 8 then s.errCode.getLsbD (i - 4) else if i < 9 then s.treeValid else if i < 10 then s.atRoot
    else if i < 11 then s.singleLeaf else if i < 12 then s.overrun else false := by
  have hshift : ∀ k w, 0 < w → (i - k < w ↔ i < k + w) := by omega
  rw [State.statusWord]
  iterate 8 rw [BitVec.getLsbD_append]
  simp only [BitVec.getLsbD_ofBool, BitVec.getLsbD_zero, Nat.sub_sub, Nat.reduceAdd,
    hshift _ 1 Nat.one_pos, hshift _ 2 Nat.two_pos, hshift _ 4 (Nat.succ_pos _)]
  split_ifs
  any_goals rfl
  all_goals rw [decide_eq_true (by omega), Bool.true_and]

/-- Settles O15: each bit comes from its field, and `AT_ROOT` and `SINGLE_LEAF` are opened to what they compute. -/
theorem statusWordHasItsFields : Obligations.StatusWordHasItsFields := by
  intro s
  have hatRoot : s.atRoot = true ↔ s.treeValid = true ∧ s.cursor = s.root := by simp [State.atRoot]
  have hsingle : s.singleLeaf = true ↔ s.treeValid = true ∧ (s.node s.root.toNat).isLeaf = true := by
    simp [State.singleLeaf]
  have hgap : s.statusWord.extractLsb' 2 2 = 0 := by
    ext i hi
    rw [BitVec.getElem_extractLsb', s.statusWord_getLsbD, if_neg (by omega), if_neg (by omega), if_pos (by omega)]
    simp
  have hcode : s.statusWord.extractLsb' 4 4 = s.errCode := by
    ext i hi
    rw [BitVec.getElem_extractLsb', s.statusWord_getLsbD, if_neg (by omega), if_neg (by omega), if_neg (by omega),
      if_pos (by omega), Nat.add_sub_cancel_left, BitVec.getLsbD_eq_getElem]
  have htop : s.statusWord.extractLsb' 12 20 = 0 := by
    ext i hi
    rw [BitVec.getElem_extractLsb', s.statusWord_getLsbD]
    iterate 8 rw [if_neg (by omega)]
    simp
  rw [← hatRoot, ← hsingle]
  exact ⟨s.statusWord_getLsbD 0, s.statusWord_getLsbD 1, hgap, hcode, s.statusWord_getLsbD 8,
    iff_of_eq (congrArg (· = true) (s.statusWord_getLsbD 9)),
    iff_of_eq (congrArg (· = true) (s.statusWord_getLsbD 10)), s.statusWord_getLsbD 11, htop⟩

/-! ## Register reads and writes (R37, R45, R353) -/

theorem State.busy_of_pending_none {s : State} (h : s.pending = none) : s.busy = false := by
  rw [State.busy, h, Option.isSome_none]

theorem State.busy_of_pending_ne_none {s : State} (h : s.pending ≠ none) : s.busy = true :=
  Option.isSome_iff_ne_none.2 h

section Window

variable (s : State)

theorem hostAct_readReg {o : BitVec 6} (h : o.toNat % 4 = 0) : hostAct (.readReg 4 o) s =
    .next { s with seen := s.readWindow o :: s.seen,
                   draws := s.draws + (s.busy && unspecifiedWhileBusy o).toNat } := by
  have hw : wordAccess 4 o = true := by simp [wordAccess, h]
  simp only [hostAct, hw, if_true]
  rfl

theorem hostAct_writeReg {o : BitVec 6} (h : o.toNat % 4 = 0) (v : Word) :
    hostAct (.writeReg 4 o v) s = .next (s.writeWindow o v) := by
  have hw : wordAccess 4 o = true := by simp [wordAccess, h]
  simp only [hostAct, hw, if_true]

/-- A register that is specified, by its place or because nothing is pending, reads what it holds. -/
theorem hostAct_readReg_specified {o : BitVec 6} (h : o.toNat % 4 = 0)
    (hs : (s.busy && unspecifiedWhileBusy o) = false) :
    hostAct (.readReg 4 o) s = .next { s with seen := s.register o :: s.seen } := by
  rw [hostAct_readReg s h, State.readWindow, hs]
  rfl

theorem hostAct_readReg_alwaysSpecified {o : BitVec 6} (h : o.toNat % 4 = 0) (hs : unspecifiedWhileBusy o = false) :
    hostAct (.readReg 4 o) s = .next { s with seen := s.register o :: s.seen } :=
  hostAct_readReg_specified s h (by rw [hs, Bool.and_false])

/-- A result register of a busy block reads a free value, the next one (log 5). -/
theorem hostAct_readReg_unspecified {o : BitVec 6} (h : o.toNat % 4 = 0) (hb : s.busy = true)
    (hu : unspecifiedWhileBusy o = true) :
    hostAct (.readReg 4 o) s = .next { s with seen := Config.freeWord s.draws :: s.seen, draws := s.draws + 1 } := by
  rw [hostAct_readReg s h, State.readWindow, hb, hu]
  rfl

end Window

/-- Settles O12: `ID` is a constant at an offset that R353 does not name. -/
theorem idAlwaysReadsItsValue : Obligations.IdAlwaysReadsItsValue :=
  fun s => hostAct_readReg_alwaysSpecified s (o := 0x34#6) rfl rfl

/-- Settles O14: `STATUS`, `A0..A3` and `ID` lie outside the offsets of R353, the others inside. -/
theorem registersReadTheirContent : Obligations.RegistersReadTheirContent := by
  intro s
  refine ⟨?_, fun hp => ?_, fun hp o ho => ?_⟩
  · simp only [List.forall_mem_cons]
    have hread := fun o => @hostAct_readReg_alwaysSpecified s o
    exact ⟨hread 0x04 rfl rfl, hread 0x08 rfl rfl, hread 0x0C rfl rfl, hread 0x10 rfl rfl, hread 0x14 rfl rfl,
      hread 0x34 rfl rfl, List.forall_mem_nil _⟩
  · have hread : ∀ o : BitVec 6, o.toNat % 4 = 0 →
        hostAct (.readReg 4 o) s = .next { s with seen := s.register o :: s.seen } := fun o h =>
      hostAct_readReg_specified s h (by rw [State.busy_of_pending_none hp, Bool.false_and])
    simp only [List.forall_mem_cons]
    exact ⟨hread 0x18 rfl, hread 0x1C rfl, hread 0x20 rfl, hread 0x24 rfl, hread 0x28 rfl, hread 0x2C rfl,
      hread 0x30 rfl, List.forall_mem_nil _⟩
  · have hplace : ∀ o ∈ [0x18#6, 0x1C#6, 0x20#6, 0x24#6, 0x28#6, 0x2C#6, 0x30#6],
        o.toNat % 4 = 0 ∧ unspecifiedWhileBusy o = true := by decide
    obtain ⟨haligned, hfree⟩ := hplace o ho
    exact hostAct_readReg_unspecified s haligned (State.busy_of_pending_ne_none hp) hfree

/-- Settles O13: the window's write has no case at these offsets, the reserved offsets hold 0, and a read only records
its value and counts the free ones. -/
theorem reservedAndReadOnlyOffsetsAreInert : Obligations.ReservedAndReadOnlyOffsetsAreInert := by
  intro s
  refine ⟨?_, ?_, fun o h => ⟨_, _, hostAct_readReg s h⟩⟩
  · simp only [List.forall_mem_cons]
    exact ⟨hostAct_readReg_alwaysSpecified s (o := 0x38#6) rfl rfl,
      hostAct_readReg_alwaysSpecified s (o := 0x3C#6) rfl rfl, List.forall_mem_nil _⟩
  · intro o ho v
    have haligned : ∀ o ∈ [0x04#6, 0x18#6, 0x1C#6, 0x20#6, 0x24#6, 0x28#6, 0x2C#6, 0x30#6, 0x34#6, 0x38#6, 0x3C#6],
        o.toNat % 4 = 0 := by decide
    have hinert : s.writeWindow o v = s := by
      simp only [List.mem_cons, List.not_mem_nil, or_false] at ho
      rcases ho with rfl | rfl | rfl | rfl | rfl | rfl | rfl | rfl | rfl | rfl | rfl <;> rfl
    rw [hostAct_writeReg s (haligned o ho), hinert]

/-! ## CMD (R38) -/

theorem hostAct_writeCmd_idle {s : State} (h : s.pending = none) (w : Word) :
    hostAct (.writeReg 4 0x00#6 w) s = .next (s.issue w) := by
  have hcmd : s.writeWindow 0x00#6 w = s.writeCmd w := rfl
  rw [hostAct_writeReg s rfl, hcmd, State.writeCmd, State.busy_of_pending_none h]
  rfl

theorem hostAct_writeCmd_busy {s : State} (h : s.pending ≠ none) (w : Word) :
    hostAct (.writeReg 4 0x00#6 w) s = .next (s.setOverrun true) := by
  have hcmd : s.writeWindow 0x00#6 w = s.writeCmd w := rfl
  rw [hostAct_writeReg s rfl, hcmd, State.writeCmd, State.busy_of_pending_ne_none h]
  rfl

/-- Settles O9: a write to `CMD` by its two cases, and a read of `CMD`, which holds 0. -/
theorem cmdWriteIssuesOrOverruns : Obligations.CmdWriteIssuesOrOverruns :=
  fun s w => ⟨fun h => hostAct_writeCmd_idle h w, fun h => hostAct_writeCmd_busy h w,
    hostAct_readReg_alwaysSpecified s (o := 0x00#6) rfl rfl⟩

/-! ## DMEM (R47) -/

/-- Settles O17: the write is `writeBytes`, whose reads are those of 20_memory R62; an empty list of bytes is no
access. -/
theorem hostDmemAccess : Obligations.HostDmemAccess := by
  refine ⟨fun s a bs hp => ⟨fun hin => ?_, fun hin => ?_⟩, fun s a => rfl⟩
  · refine ⟨Memory.writeBytes s.dmem a.toNat bs, ?_, fun j hj => ?_, fun k hk => ?_⟩
    · cases bs with
      | nil => rfl
      | cons b bs =>
        simp only [hostAct, State.busy_of_pending_none hp, List.isEmpty_cons, Bool.false_eq_true, if_false, if_pos hin]
        rfl
    · rw [Memory.read_writeBytes]
      simp [hj]
    · rw [Memory.read_writeBytes]
      obtain hlow | hhigh := hk
      · rw [if_neg (by omega)]
        rfl
      · rw [if_pos (by omega), List.getElem?_eq_none (by omega)]
        rfl
  · simp only [hostAct, State.busy_of_pending_none hp, Bool.false_eq_true, if_false, if_pos hin]
    rfl

/-! ## The reset input (R48, R340) -/

/-- Settles O19: the reset state field by field; with no cell, node or code listed, each reads as a free value. -/
theorem hardResetValues : Obligations.HardResetValues := by
  intro s
  have hstatus : s.hardReset.statusWord = 0 := by
    simp [State.statusWord, State.atRoot, State.singleLeaf, State.busy]
  have hmem : ∀ a, s.hardReset.readByte a = Config.freeDmem s.hardReset.dmemEpoch a := fun _ => rfl
  have hnode : ∀ i, s.hardReset.node i = Config.freeNode s.hardReset.storeEpoch i := fun _ => rfl
  exact ⟨s.hardReset, rfl, rfl, hstatus, rfl, rfl, rfl, rfl, rfl, rfl, freqAt_freqEmpty, rfl, rfl, hmem, rfl, hnode,
    fun _ => rfl, rfl, rfl, rfl, rfl⟩

/-! ## The block's step (R23) -/

/-- Settles O7: the step is the host's move, and the host has no line left. -/
theorem idleBlockHoldsItsState : Obligations.IdleBlockHoldsItsState := by
  intro s hp hs
  simp only [step, hp, hostMove, hs]

/-- Settles O5: with no early host line the step is the block's, and the word decodes. -/
theorem stepRunsThePendingCommand : Obligations.StepRunsThePendingCommand := by
  intro s p i hp he hd
  simp only [step, hp, he, hd, Bool.false_eq_true, if_false]

/-- An opcode takes an immediate wherever its command has one, so the immediate of any other is 0. -/
theorem immediate_eq_zero_of_takesImmediate {i : Instr} (h : takesImmediate i.opcode = false) : i.immediate = 0 := by
  cases i with
  | freqSet | freqGet | codeGet | decStep => exact Bool.noConfusion h
  | nop | softReset | ackOverrun | freqClear | freqCount | treeBuild | nodeRead | encode | decReset | decBulk | treeSer
  | treeDeser => rfl

/-- Decoding the word of a command gives the command back (30_encoding R103, R105). -/
theorem decode_encode_eq (i : Instr) : decode (encode i) = .ok i := by
  have hselect : selectCommand i.opcode i.immediate = some i := by cases i <;> rfl
  unfold decode
  rw [opcOf_encode, immOf_encode, rsvOf_encode, hselect]
  simp only [ne_eq, not_true, if_false]
  rw [if_neg (fun h => h.2 (immediate_eq_zero_of_takesImmediate h.1))]

@[simp] theorem State.deferHost_pending (s : State) : s.deferHost.pending = s.pending := by
  unfold State.deferHost
  split <;> rfl

@[simp] theorem State.deferHost_argRegs (s : State) : s.deferHost.argRegs = s.argRegs := by
  unfold State.deferHost
  split <;> rfl

@[simp] theorem State.deferHost_args (s : State) : s.deferHost.args = s.args := by
  simp only [State.args, State.deferHost_pending, State.deferHost_argRegs]

/-- A deferred host line is no longer early. -/
@[simp] theorem State.deferHost_hostEarly (s : State) : s.deferHost.hostEarly = false := by
  cases hs : s.script <;> simp [State.deferHost, State.hostEarly, hs]

theorem State.withFetchWord_encode (s : State) (i : Instr) :
    s.withFetchWord 32 (encode i).toNat = (s.issue (encode i)).deferHost := by
  rw [State.withFetchWord, Nat.mod_eq_of_lt (encode i).isLt, BitVec.ofNat_toNat, BitVec.setWidth_eq]

/-- Settles O8: in the state an issue gives, and in the one `withFetchWord` gives, the pending word is the command's,
which decodes to it. -/
theorem issuedWordRunsNext : Obligations.IssuedWordRunsNext := by
  intro s i
  refine ⟨fun hp => ⟨s.issue (encode i), hostAct_writeCmd_idle hp _, rfl, fun he => ?_⟩, ?_, ?_⟩
  · exact stepRunsThePendingCommand _ _ i rfl he (decode_encode_eq i)
  · rw [State.withFetchWord_encode]
    exact stepRunsThePendingCommand _ _ i (State.deferHost_pending _) (State.deferHost_hostEarly _) (decode_encode_eq i)
  · exact State.deferHost_args _

end Sys2Proof.Machine
end

section
/-! PROOFS of the family 20_memory, first part: where a command and the host write DMEM, and that its list of cells
stays in canonical form and inside its bounds (20_memory R60, R62, R63). -/

namespace Sys2Proof.Machine

theorem State.bits_fit {s : State} {b n : Word} {p : Bits} (hreg : s.bitRegionOk b n = true)
    (hfit : p.length ≤ n.toNat) : b.toNat + p.length ≤ 8 * s.dmemBytes :=
  (Nat.add_le_add_left hfit _).trans ((s.bitRegionOk_iff b n).1 hreg)

theorem State.bytes_fit {s : State} {a n : Word} {vs : List Byte} (hreg : s.byteRegionOk a n = true)
    (hfit : vs.length ≤ n.toNat) : a.toNat + vs.length ≤ s.dmemBytes :=
  (Nat.add_le_add_left hfit _).trans ((s.byteRegionOk_iff a n).1 hreg)

/-- `t` has the DMEM of `s`, or that of `s` with the bits or the bytes of a region inside DMEM written (20_memory R62,
R63, R64). -/
inductive WritesInside (s t : State) : Prop where
  | same (h : t.dmem = s.dmem)
  | bits (b : Nat) (p : Bits) (hin : b + p.length ≤ 8 * s.dmemBytes)
      (h : t.dmem = Memory.writeBits s.dmemEpoch s.dmem b p)
  | bytes (a : Nat) (vs : List Byte) (hin : a + vs.length ≤ s.dmemBytes)
      (h : t.dmem = Memory.writeBytes s.dmem a vs)

theorem WritesInside.memoryInv {s t : State} (h : WritesInside s t) (hsize : t.dmemBytes = s.dmemBytes)
    (hs : s.memoryInv) : t.memoryInv := by
  obtain ⟨hwf, hwithin⟩ := hs
  rw [State.memoryInv, hsize]
  cases h with
  | same h =>
    rw [h]
    exact ⟨hwf, hwithin⟩
  | bits b p hin h =>
    rw [h]
    exact ⟨Memory.wf_writeBits _ _ b p hwf, Memory.within_writeBits _ _ _ b p hin hwithin⟩
  | bytes a vs hin h =>
    rw [h]
    exact ⟨Memory.wf_writeBytes _ a vs hwf, Memory.within_writeBytes _ _ a vs hin hwithin⟩

/-- A command writes DMEM only inside its destination region, which its check admits (20_memory R63); the commands
that write are the four of R79. -/
theorem exec_writesInside {i : Instr} {s t : State} (h : exec i s = .next t) : WritesInside s t := by
  obtain ⟨-, hwriters, -⟩ := commandsWriteOnlyTheirOwnState i s t h
  by_cases hsame : t.dmem = s.dmem
  · exact .same hsame
  obtain ⟨x, rfl⟩ | rfl | rfl | rfl := hwriters hsame
  · obtain ⟨e, rfl⟩ | ⟨-, hreg, hfit, v0, v1, rfl⟩ := execCodeGet_cases h
    · exact .same rfl
    · exact .bits _ _ (State.bits_fit hreg hfit) rfl
  · obtain ⟨v, e, rfl, -⟩ | ⟨-, hreg, p, v0, v1, hfit, rfl⟩ := execEncode_cases h
    · exact .same rfl
    · exact .bits _ _ (State.bits_fit hreg hfit) rfl
  · obtain ⟨e, rfl⟩ | ⟨-, hreg, r, v0, v1, v2, -, hfit, rfl⟩ := execDecBulk_cases h
    · exact .same rfl
    · exact .bytes _ _ (State.bytes_fit hreg hfit) rfl
  · obtain ⟨e, rfl⟩ | ⟨-, hreg, hfit, v0, v1, rfl⟩ := execTreeSer_cases h
    · exact .same rfl
    · exact .bits _ _ (State.bits_fit hreg hfit) rfl

theorem exec_memoryInv {i : Instr} {s t : State} (hs : s.memoryInv) (h : exec i s = .next t) : t.memoryInv := by
  obtain ⟨-, -, -, -, hsize, -⟩ := commandsWriteOnlyTheirOwnState i s t h
  exact (exec_writesInside h).memoryInv hsize hs

/-- The reset input leaves no byte written (log 2, 19). -/
theorem State.hardReset_memoryInv (s : State) : s.hardReset.memoryInv := ⟨rfl, rfl⟩

/-- Of the host's actions only a write of DMEM bytes and the reset input touch DMEM. -/
theorem hostAct_memoryInv {a : HostAction} {s t : State} (hs : s.memoryInv) (h : hostAct a s = .next t) :
    t.memoryInv := by
  obtain ⟨_, o, v, -, rfl⟩ | ⟨v, d, rfl⟩ | ⟨a, bs, -, -, hin, rfl⟩ | ⟨l, -, rfl⟩ | ⟨-, rfl⟩ := hostAct_cases h
  · obtain he | he | ⟨x, y, z, w, he⟩ := writeWindow_cases s o v <;> rw [he] <;> exact hs
  · exact hs
  · exact WritesInside.memoryInv (.bytes a.toNat bs hin rfl) rfl hs
  · exact hs
  · exact s.hardReset_memoryInv

/-- Settles O46: a command and a host write stay inside a region that their check admits, the reset input leaves DMEM
unwritten, and every other step keeps it. -/
theorem stepKeepsMemoryCanonical : Obligations.StepKeepsMemoryCanonical := by
  intro s t hs h
  obtain ⟨_, i, -, -, -, hx⟩ | ⟨p, -, rfl⟩ | ⟨-, rfl⟩ | ⟨l, rest, -, ha⟩ := step_cases h
  · exact exec_memoryInv hs hx
  · exact hs
  · exact hs
  · have hrest : (s.setScript rest).memoryInv := hs
    exact hostAct_memoryInv hrest ha

end Sys2Proof.Machine
end

section
/-! PROOFS of the family 20_memory, second part: the checks of a command in the order of 60_exceptions R302, and the
refusal of overlapping regions (20_memory R78). -/

namespace Sys2Proof.Machine

/-! ## Reporting the first failing check -/

/-- `out` is what a command gives from `s` whose first failing check is `o`: that error (60_exceptions R304, R305), or,
with no check failing, a success. -/
def Reports (s : State) (o : Option CmdError) (out : Host.Outcome State Fault Refusal) : Prop :=
  (∀ e, o = some e → out = .next (failedState s e)) ∧ (o = none → ∃ u, out = succeed u)

theorem Reports.succeeds (s u : State) : Reports s none (succeed u) := ⟨nofun, fun _ => ⟨u, rfl⟩⟩

theorem Reports.fails (s : State) (e : CmdError) : Reports s (some e) (.next (failedState s e)) := by
  refine ⟨fun e' h => ?_, nofun⟩
  rw [Option.some.inj h]

/-- Only SymbolNotInTable writes more than the error record (60_exceptions R305). -/
theorem failedState_eq_raise (s : State) {e : CmdError} (he : e.code ≠ 2) : failedState s e = s.raise e := by
  cases e with
  | symbolNotInTable x => exact absurd rfl he
  | emptyInput | invalidBit | uninitializedTree | invalidContainer | illegalCommand | addressRange
  | capacityExceeded => rfl

/-- A command whose first check is `p` reports the first failing check of a list that begins with `p` and goes on
with the checks of the rest of the command; the rest may use that `p` has passed. -/
theorem Reports.check {s : State} {bad : Bool} {p : Prop} [Decidable p] {e : CmdError} {l : List (Bool × CmdError)}
    {out : Host.Outcome State Fault Refusal} (hp : p ↔ bad = true) (he : e.code ≠ 2)
    (hrest : ¬ p → Reports s (firstFailing l) out) :
    Reports s (firstFailing ((bad, e) :: l)) (if p then failWith s e else out) := by
  by_cases h : p
  · rw [if_pos h, firstFailing, if_pos (hp.1 h), failWith, ← failedState_eq_raise s he]
    exact Reports.fails s e
  · rw [if_neg h, firstFailing, if_neg (mt hp.2 h)]
    exact hrest h

section Checks

variable (s : State)

theorem State.treeValid_eq_false_iff : s.treeValid = false ↔ (!s.treeValid) = true := by simp

theorem State.byteRegionOk_eq_false_iff (a n : Word) :
    s.byteRegionOk a n = false ↔ decide (s.dmemBytes < a.toNat + n.toNat) = true := by
  simp [State.byteRegionOk]

theorem State.bitRegionOk_eq_false_iff (b n : Word) :
    s.bitRegionOk b n = false ↔ decide (8 * s.dmemBytes < b.toNat + n.toNat) = true := by
  simp [State.bitRegionOk]

end Checks

theorem presentSymbols_length_eq_zero_iff (f : Vector Word 256) :
    (presentSymbols f).length = 0 ↔ f.toList.all (fun v => v == 0) = true := by
  rw [← distinctSymbols_eq, distinctSymbols, List.countP_eq_zero, List.all_eq_true]
  simp only [bne_iff_ne, ne_eq, not_not, beq_iff_eq]

/-! ## The commands with more to check than a comparison -/

theorem reports_freqCount (s : State) : Reports s (firstError .freqCount s) (execFreqCount s) := by
  rw [execFreqCount, ← ite_not]
  exact Reports.check (by simp [State.byteRegionOk]) (by decide) fun _ => Reports.succeeds s _

/-- ENCODE's first pass finds the byte that the table of R302 names, and its offset (43_encoder R221). -/
theorem reports_encode (s : State) (hov : ¬ OverlapRefused .encode s) :
    Reports s (firstError .encode s) (execEncode s) := by
  refine Reports.check s.treeValid_eq_false_iff (by decide) fun htree => ?_
  refine Reports.check (s.byteRegionOk_eq_false_iff _ _) (by decide) fun hsrc => ?_
  refine Reports.check (s.bitRegionOk_eq_false_iff _ _) (by decide) fun hdst => ?_
  have hapart : ¬ regionsOverlap s.args.a0.toNat s.args.a1.toNat s.args.a2.toNat s.args.a3.toNat = true := by
    intro h
    exact hov ⟨eq_true_of_ne_false htree, (s.byteRegionOk_iff _ _).1 (eq_true_of_ne_false hsrc),
      (s.bitRegionOk_iff _ _).1 (eq_true_of_ne_false hdst), (regionsOverlap_iff _ _ _ _).1 h⟩
  have hsource : s.readBytes s.args.a0.toNat s.args.a1.toNat = encodeSource s := rfl
  dsimp only
  rw [if_neg hapart, firstUncoded_eq, hsource, encodeBytes_length]
  cases hfind : (encodeSource s).find? (fun x => s.codeLen x == 0) with
  | none => exact Reports.check decide_eq_true_iff.symm (by decide) fun _ => Reports.succeeds s _
  | some x =>
    dsimp only [Option.map_some]
    rw [Nat.zero_add]
    exact Reports.fails s (.symbolNotInTable x)

theorem reports_decBulk (s : State) (hov : ¬ OverlapRefused .decBulk s) :
    Reports s (firstError .decBulk s) (execDecBulk s) := by
  refine Reports.check s.treeValid_eq_false_iff (by decide) fun htree => ?_
  refine Reports.check (s.bitRegionOk_eq_false_iff _ _) (by decide) fun hsrc => ?_
  refine Reports.check (s.byteRegionOk_eq_false_iff _ _) (by decide) fun hdst => ?_
  have hapart : ¬ regionsOverlap s.args.a2.toNat s.args.a3.toNat s.args.a0.toNat s.args.a1.toNat = true := by
    intro h
    exact hov ⟨eq_true_of_ne_false htree, (s.bitRegionOk_iff _ _).1 (eq_true_of_ne_false hsrc),
      (s.byteRegionOk_iff _ _).1 (eq_true_of_ne_false hdst), (regionsOverlap_iff _ _ _ _).1 h⟩
  dsimp only
  rw [if_neg hapart, walkBits_eq_decodeFrom]
  exact Reports.check decide_eq_true_iff.symm (by decide) fun _ => Reports.succeeds s _

/-- TREE_DESER's parser fails exactly where reading its source bits node by node does, with that cause. -/
theorem reports_treeDeser (s : State) : Reports s (firstError .treeDeser s) (execTreeDeser s) := by
  refine Reports.check (s.bitRegionOk_eq_false_iff _ _) (by decide) fun _ => ?_
  obtain ⟨herror, hok⟩ := parseTree_deserFault s
  split
  next e hparse =>
    rw [herror e hparse]
    exact Reports.fails s (.invalidContainer e.cause)
  next i p hparse =>
    rw [hok _ hparse]
    exact Reports.succeeds s _

/-! ## Every command -/

theorem exec_reports (i : Instr) (s : State) (hov : ¬ OverlapRefused i s) :
    Reports s (firstError i s) (exec i s) := by
  have htree := s.treeValid_eq_false_iff
  cases i with
  | nop | softReset | ackOverrun | freqClear | freqSet | freqGet => exact Reports.succeeds s _
  | freqCount => exact reports_freqCount s
  | treeBuild =>
    exact Reports.check (presentSymbols_length_eq_zero_iff _) (by decide) fun _ => Reports.succeeds s _
  | nodeRead =>
    exact Reports.check htree (by decide) fun _ =>
      Reports.check decide_eq_true_iff.symm (by decide) fun _ => Reports.succeeds s _
  | codeGet x =>
    exact Reports.check htree (by decide) fun _ =>
      Reports.check (s.bitRegionOk_eq_false_iff _ _) (by decide) fun _ =>
      Reports.check decide_eq_true_iff.symm (by decide) fun _ => Reports.succeeds s _
  | encode => exact reports_encode s hov
  | decReset => exact Reports.check htree (by decide) fun _ => Reports.succeeds s _
  | decStep v =>
    exact Reports.check htree (by decide) fun _ =>
      Reports.check decide_eq_true_iff.symm (by simp [CmdError.code]) fun _ => Reports.succeeds s _
  | decBulk => exact reports_decBulk s hov
  | treeSer =>
    exact Reports.check htree (by decide) fun _ =>
      Reports.check (s.bitRegionOk_eq_false_iff _ _) (by decide) fun _ =>
      Reports.check decide_eq_true_iff.symm (by decide) fun _ => Reports.succeeds s _
  | treeDeser => exact reports_treeDeser s

/-- The refusal the spec asks for (20_memory R78, 70_reset_and_hazards R355): the tree and region checks pass. -/
theorem exec_of_overlapRefused {i : Instr} {s : State} (h : OverlapRefused i s) :
    exec i s = .refused .overlappingRegions := by
  cases i with
  | encode =>
    obtain ⟨htree, hsrc, hdst, hshare⟩ := h
    simp only [exec, execEncode, htree, (s.byteRegionOk_iff _ _).2 hsrc, (s.bitRegionOk_iff _ _).2 hdst,
      (regionsOverlap_iff _ _ _ _).2 hshare, Bool.true_eq_false, if_false, if_true]
  | decBulk =>
    obtain ⟨htree, hsrc, hdst, hshare⟩ := h
    simp only [exec, execDecBulk, htree, (s.bitRegionOk_iff _ _).2 hsrc, (s.byteRegionOk_iff _ _).2 hdst,
      (regionsOverlap_iff _ _ _ _).2 hshare, Bool.true_eq_false, if_false, if_true]
  | nop | softReset | ackOverrun | freqClear | freqSet | freqGet | freqCount | treeBuild | nodeRead | codeGet | decReset
  | decStep | treeSer | treeDeser => exact absurd h id

theorem exists_exec_next {i : Instr} {s : State} (hov : ¬ OverlapRefused i s) : ∃ t, exec i s = .next t := by
  obtain ⟨hfail, hpass⟩ := exec_reports i s hov
  cases hfirst : firstError i s with
  | some e => exact ⟨_, hfail e hfirst⟩
  | none =>
    obtain ⟨u, hu⟩ := hpass hfirst
    exact ⟨u.complete, hu⟩

/-- Settles O39: the checks of each command's row fail in the order of its definition, and a success clears `ERR`. -/
theorem firstErrorIsReported : Obligations.FirstErrorIsReported := by
  intro i s hov
  obtain ⟨hfail, hpass⟩ := exec_reports i s hov
  refine ⟨hfail, fun hnone => ?_⟩
  obtain ⟨u, hu⟩ := hpass hnone
  exact ⟨u.complete, hu, rfl⟩

/-- Settles O38: an overlap that is to be refused is refused, and every other command gives a next state. -/
theorem onlyOverlappingRegionsAreRefused : Obligations.OnlyOverlappingRegionsAreRefused := by
  intro i s
  by_cases hov : OverlapRefused i s
  · simp [exec_of_overlapRefused hov, hov, eq_comm]
  · obtain ⟨t, ht⟩ := exists_exec_next hov
    simp [ht, hov]

end Sys2Proof.Machine
end

section
/-! PROOFS of the family 20_memory, third part: the bit view of DMEM and packing (20_memory R64, R66), register
accesses that are no aligned word (R68), and the host-side container (R80 to R87). -/

namespace Sys2Proof.Machine

/-! ## The bit view (R64) -/

/-- Settles O57: a bit is read by its definition, and a written bit is one of `setBit`'s byte. -/
theorem bitViewOfDmem : Obligations.BitViewOfDmem := by
  intro e m b v
  refine ⟨rfl, ?_, fun k hk hne => ?_, fun a ha => ?_⟩
  · rw [Memory.bitRead_bitWrite, if_pos rfl]
  · rw [Memory.bitWrite, Memory.read_write, if_pos rfl, setBit_getLsbD _ _ _ _ hk, if_neg hne]
  · rw [Memory.bitWrite, Memory.read_write, if_neg ha]

/-- A byte's bits by their bit addresses, the most significant first. -/
theorem Memory.read_getLsbD (e : Nat) (m : List Host.Cell) (a j : Nat) (hj : j < 8) :
    (Memory.read e m a).getLsbD (7 - j) = Memory.bitRead e m (8 * a + j) := by
  have hbyte : (8 * a + j) / 8 = a := by omega
  have hbit : (8 * a + j) % 8 = j := by omega
  rw [Memory.bitRead, hbyte, hbit]

/-- Two bytes are equal when their bits are, the most significant first. -/
theorem byte_ext {x y : Byte} (h : ∀ j, j < 8 → x.getLsbD (7 - j) = y.getLsbD (7 - j)) : x = y := by
  apply BitVec.eq_of_getLsbD_eq
  intro i hi
  have := h (7 - i) (by omega)
  rwa [show 7 - (7 - i) = i by omega] at this

/-! ## Packing (R66) -/

/-- A cleared byte that holds some of the bits written at a byte address reads as those bits, padded with 0. -/
theorem Memory.read_writeBits_aligned (e : Nat) (m : List Host.Cell) (a k : Nat) (p : Bits)
    (hclear : Memory.read e m (a + k) = 0) :
    Memory.read e (Memory.writeBits e m (8 * a) p) (a + k) = packByte (p.drop (8 * k)) := by
  refine byte_ext fun j hj => ?_
  have hzero : Memory.bitRead e m (8 * (a + k) + j) = false := by
    rw [← Memory.read_getLsbD e m _ j hj, hclear]
    exact BitVec.getLsbD_zero
  have hoffset : 8 * (a + k) + j - 8 * a = 8 * k + j := by omega
  rw [packByte_getLsbD _ j hj, Memory.read_getLsbD _ _ _ j hj, Memory.bitRead_writeBits, if_pos (by omega), hzero,
    hoffset, List.getD_eq_getElem?_getD, List.getElem?_drop]

/-- Settles O58: byte by byte; the bytes outside hold none of the bits written. -/
theorem alignedWritePacksBytes : Obligations.AlignedWritePacksBytes := by
  intro e m a p hclear
  constructor
  · rw [Memory.readBytes_eq, packBits]
    refine List.map_congr_left fun k hk => ?_
    exact Memory.read_writeBits_aligned e m a k p (hclear k (List.mem_range.1 hk))
  · intro b hb
    exact Memory.read_writeBits_outside e p m (8 * a) b fun j hj => by omega

/-! ## Register accesses (R68) -/

/-- Settles O18: such an access is no word access. -/
theorem nonWordAccessIsRefused : Obligations.NonWordAccessIsRefused := by
  intro s width o v h
  have hword : wordAccess width o = false := by
    simp only [wordAccess, Bool.and_eq_false_iff, beq_eq_false_iff_ne]
    exact h
  simp [hostAct, hword]

/-! ## The container (R80 to R87) -/

@[simp] theorem field32_length (n : Nat) : (field32 n).length = 4 := rfl

theorem take_drop_append {α : Type} {xs ys : List α} {i n : Nat} (zs : List α) (hi : xs.length = i)
    (hn : ys.length = n) : ((xs ++ (ys ++ zs)).drop i).take n = ys := by
  rw [List.drop_left' hi, List.take_left' hn]

/-- Each field stands where the parser looks for it, since the fields before it have known lengths (R80, R84). -/
theorem parseContainer_append {magic blob payload : List Byte} {n : Nat} (hmagic : magic.length = 4)
    (hblob : blob.length < 2 ^ 32) (hn : n < 2 ^ 32) (hpayload : payload.length = (n + 7) / 8) :
    parseContainer magic (magic ++ field32 blob.length ++ blob ++ field32 n ++ payload) =
      some ⟨blob, n, payload⟩ := by
  generalize hbuf : magic ++ field32 blob.length ++ blob ++ field32 n ++ payload = buf
  have hlen : buf.length = 12 + blob.length + payload.length := by
    simp only [← hbuf, List.length_append, field32_length]
    omega
  have hmagic' : buf.take 4 = magic := by
    simp only [← hbuf, List.append_assoc]
    exact List.take_left' hmagic
  have hblobLen : (buf.drop 4).take 4 = field32 blob.length := by
    simp only [← hbuf, List.append_assoc]
    exact take_drop_append _ hmagic (field32_length _)
  have hblob' : (buf.drop 8).take blob.length = blob := by
    rw [← hbuf, List.append_assoc, List.append_assoc]
    exact take_drop_append _ (by simp [hmagic]) rfl
  have hbits : (buf.drop (8 + blob.length)).take 4 = field32 n := by
    rw [← hbuf, List.append_assoc]
    exact take_drop_append _ (by simp [hmagic]; omega) (field32_length _)
  have hpayload' : (buf.drop (12 + blob.length)).take ((n + 7) / 8) = payload := by
    rw [← hbuf, ← hpayload, List.drop_left' (by simp [hmagic]; omega), List.take_length]
  simp only [parseContainer, hmagic', hblobLen, fieldVal_field32 _ hblob, hbits, fieldVal_field32 _ hn, hblob',
    hpayload', hlen, ne_eq, not_true, if_false]
  iterate 4 rw [if_neg (by omega)]

/-- Settles O59: a packed bitstring is no longer than the bitstring, so its length fits a length field. -/
theorem containerRoundTrip : Obligations.ContainerRoundTrip := by
  intro magic tree payload hmagic htree hpayload
  have hblob : (packBits tree).length < 2 ^ 32 := by
    rw [packBits_length]
    omega
  exact parseContainer_append hmagic hblob hpayload (packBits_length payload)

end Sys2Proof.Machine
end

section
/-! PROOFS of the family 20_memory, fourth part: what the commands that read or write DMEM leave when no check fails
(41_tree_builder R153, 42_code_table R206, 43_encoder R221, 45_tree_serdes R271). -/

namespace Sys2Proof.Machine

/-! ## FREQ_COUNT -/

/-- A count of the histogram of fewer than 2^32 bytes is exact (41_tree_builder R153). -/
theorem countBytes_freqEmpty_toNat (bs : List Byte) (x : Byte) (h : bs.length < 2 ^ 32) :
    (freqAt (countBytes freqEmpty bs) x).toNat = bs.countP (· == x) := by
  have hzero : (freqAt freqEmpty x).toNat = 0 := by simp
  rw [countBytes_toNat _ _ _ (by omega), hzero, Nat.zero_add]

theorem State.readBytes_countP (s : State) (a n : Nat) (q : Byte → Bool) :
    (s.readBytes a n).countP q = (List.range n).countP (fun j => q (s.readByte (a + j))) := by
  rw [State.readBytes, Memory.readBytes_eq, List.countP_map]
  rfl

theorem distinctSymbols_eq_countP (f : Vector Word 256) :
    distinctSymbols f = (List.range 256).countP (fun k => freqAt f (BitVec.ofNat 8 k) != 0) := by
  rw [distinctSymbols, freq_toList, List.countP_map]
  rfl

theorem distinctSymbols_le (f : Vector Word 256) : distinctSymbols f ≤ 256 := by
  rw [distinctSymbols_eq]
  exact presentSymbols_length_le f

/-- The histogram of the bytes that FREQ_COUNT reads. -/
def sourceHistogram (s : State) : Vector Word 256 :=
  countBytes freqEmpty (s.readBytes s.args.a0.toNat s.args.a1.toNat)

/-- A source of fewer than 2^32 bytes is counted exactly (41_tree_builder R153). -/
theorem sourceHistogram_toNat (s : State) (x : Byte) : (freqAt (sourceHistogram s) x).toNat =
    (List.range s.args.a1.toNat).countP (fun j => s.readByte (s.args.a0.toNat + j) == x) := by
  have hlen : (s.readBytes s.args.a0.toNat s.args.a1.toNat).length = s.args.a1.toNat := Memory.readBytes_length _ _ _ _
  rw [sourceHistogram, countBytes_freqEmpty_toNat _ _ (by omega), s.readBytes_countP]

theorem execFreqCount_eq_succeed {s : State} (hsrc : s.args.a0.toNat + s.args.a1.toNat ≤ s.dmemBytes) :
    execFreqCount s = succeed (((s.setFreq (sourceHistogram s)).setQ0
      (BitVec.ofNat 32 (distinctSymbols (sourceHistogram s)))).setQ1 s.args.a1) := by
  rw [execFreqCount, if_pos ((s.byteRegionOk_iff _ _).2 hsrc)]
  rfl

/-- The next state of a command that has replaced the table, with its results in `Q0` and `Q1`. -/
theorem succeed_setFreq (s : State) (f : Vector Word 256) (v0 v1 : Word) :
    succeed (((s.setFreq f).setQ0 v0).setQ1 v1) =
      .next { s with freq := f, q0 := v0, q1 := v1, err := false, errCode := 0, errInfo := 0, pending := none } := rfl

/-- Settles O26: the table is the source's histogram, and `Q0`, which is at most 256, counts its entries. -/
theorem freqCountResult : Obligations.FreqCountResult := by
  intro s hsrc
  have hle := distinctSymbols_le (sourceHistogram s)
  refine ⟨sourceHistogram s, BitVec.ofNat 32 (distinctSymbols (sourceHistogram s)),
    (execFreqCount_eq_succeed hsrc).trans (succeed_setFreq _ _ _ _), sourceHistogram_toNat s, ?_⟩
  rw [BitVec.toNat_ofNat, Nat.mod_eq_of_lt (by omega), distinctSymbols_eq_countP]

/-! ## The commands that write bits -/

/-- The bits written read back, every other bit and every byte that holds none of them is kept (20_memory R65). -/
theorem State.writeBits_frame (s : State) (b : Nat) (p : Bits) :
    Memory.readBits s.dmemEpoch (s.writeBits b p).dmem b p.length = p ∧
    (∀ c, c < b ∨ b + p.length ≤ c → Memory.bitRead s.dmemEpoch (s.writeBits b p).dmem c = s.readBit c) ∧
    (∀ a, (∀ j, j < p.length → (b + j) / 8 ≠ a) →
      Memory.read s.dmemEpoch (s.writeBits b p).dmem a = s.readByte a) := by
  refine ⟨Memory.readBits_writeBits _ _ b p, fun c hc => ?_, fun a ha => Memory.read_writeBits_outside _ p _ b a ha⟩
  rw [State.writeBits, Memory.bitRead_writeBits]
  obtain hlow | hhigh := hc
  · rw [if_neg (by omega)]
    rfl
  · rw [if_pos (by omega), List.getElem?_eq_none (by omega)]
    rfl

/-- The next state of a command that has written bits and its results in `Q0` and `Q1`. -/
theorem succeed_writeBits (s : State) (b : Nat) (p : Bits) (v0 v1 : Word) :
    succeed (((s.writeBits b p).setQ0 v0).setQ1 v1) =
      .next { s with dmem := (s.writeBits b p).dmem, q0 := v0, q1 := v1, err := false, errCode := 0, errInfo := 0,
                     pending := none } := rfl

theorem execCodeGet_eq_succeed {s : State} {x : Byte} (htree : s.treeValid = true)
    (hdst : s.args.a0.toNat + s.args.a1.toNat ≤ 8 * s.dmemBytes) (hfit : s.codeLen x ≤ s.args.a1.toNat) :
    execCodeGet x s = succeed (((s.writeBits s.args.a0.toNat (s.code x)).setQ0
      (BitVec.ofNat 32 (s.codeLen x))).setQ1 (codeValue (s.code x))) := by
  simp only [execCodeGet, htree, (s.bitRegionOk_iff _ _).2 hdst, Bool.true_eq_false, if_false,
    if_neg (Nat.not_lt.2 hfit)]

/-- Settles O31: with no check failing, CODE_GET writes the code's bits; `codeValue` has the two cases of `Q1`. -/
theorem codeGetResult : Obligations.CodeGetResult := by
  intro s x htree hdst hfit
  exact ⟨_, _, (execCodeGet_eq_succeed htree hdst hfit).trans (succeed_writeBits _ _ _ _ _),
    codeValue_toNat (s.code x), fun hlong => if_neg (Nat.not_le.2 hlong), s.writeBits_frame s.args.a0.toNat (s.code x)⟩

/-- The first pass of ENCODE finds nothing where every byte has a code (43_encoder R221). -/
theorem firstUncoded_eq_none {s : State} {xs : List Byte} (h : ∀ x ∈ xs, s.code x ≠ []) (j : Nat) :
    firstUncoded s j xs = none := by
  rw [firstUncoded_eq, Option.map_eq_none_iff, List.find?_eq_none]
  intro x hx
  simpa [State.codeLen] using h x hx

theorem execEncode_eq_succeed {s : State} (htree : s.treeValid = true)
    (hsrc : s.args.a0.toNat + s.args.a1.toNat ≤ s.dmemBytes)
    (hdst : s.args.a2.toNat + s.args.a3.toNat ≤ 8 * s.dmemBytes)
    (hapart : ¬ SharesByte s.args.a0.toNat s.args.a1.toNat s.args.a2.toNat s.args.a3.toNat)
    (hcoded : ∀ x ∈ encodeSource s, s.code x ≠ [])
    (hfit : totalCodeBits s (encodeSource s) ≤ s.args.a3.toNat) :
    execEncode s = succeed (((s.writeBits s.args.a2.toNat (encodeBytes s (encodeSource s))).setQ0
      (BitVec.ofNat 32 (totalCodeBits s (encodeSource s)))).setQ1 s.args.a1) := by
  have hsource : s.readBytes s.args.a0.toNat s.args.a1.toNat = encodeSource s := rfl
  simp only [execEncode, htree, (s.byteRegionOk_iff _ _).2 hsrc, (s.bitRegionOk_iff _ _).2 hdst,
    Bool.true_eq_false, if_false, if_neg (mt (regionsOverlap_iff _ _ _ _).1 hapart), hsource,
    firstUncoded_eq_none hcoded, encodeBytes_length, if_neg (Nat.not_lt.2 hfit)]

/-- Settles O32: no source byte is without a code, so the bits written are the codes in input order. -/
theorem encodeResult : Obligations.EncodeResult := by
  intro s htree hsrc hdst hapart hcoded hfit
  have hframe := s.writeBits_frame s.args.a2.toNat (encodeBytes s (encodeSource s))
  rw [encodeBytes_length] at hframe
  obtain ⟨hread, hbits, hbytes⟩ := hframe
  exact ⟨_, (execEncode_eq_succeed htree hsrc hdst hapart hcoded hfit).trans (succeed_writeBits _ _ _ _ _),
    hread.trans (encodeBytes_eq s _), hbits, hbytes⟩

/-- A tree with L leaves has an encoding of 10L - 1 bits (45_tree_serdes R272). -/
theorem HTree.bits_length (t : HTree) : t.bits.length + 1 = 10 * t.leaves := by
  induction t with
  | leaf x => simp [HTree.bits]
  | node l r ihl ihr =>
    simp only [HTree.bits, List.length_cons, List.length_append, HTree.leaves_node]
    omega

theorem HoldsTree.leaves_le {s : State} {t : HTree} (h : HoldsTree s t) : t.leaves ≤ 256 := by
  obtain ⟨-, -, -, -, -, hsyms⟩ := h
  exact t.leaves_le hsyms

theorem execTreeSer_eq_succeed {s : State} {t : HTree} (htree : s.treeValid = true) (hold : HoldsTree s t)
    (hdst : s.args.a0.toNat + s.args.a1.toNat ≤ 8 * s.dmemBytes) (hfit : t.bits.length ≤ s.args.a1.toNat) :
    execTreeSer s = succeed (((s.writeBits s.args.a0.toNat t.bits).setQ0 (BitVec.ofNat 32 t.bits.length)).setQ1
      (BitVec.ofNat 32 ((s.nodeCount.toNat + 1) / 2))) := by
  simp only [execTreeSer, htree, (s.bitRegionOk_iff _ _).2 hdst, Bool.true_eq_false, if_false, hold.serialized_eq,
    if_neg (Nat.not_lt.2 hfit)]

/-- Settles O36: the serializer gives the encoding of the tree held, which has at most 256 leaves, so that neither
result wraps; L is (NODE_COUNT + 1) / 2 by R26. -/
theorem treeSerResult : Obligations.TreeSerResult := by
  intro s t htree hold hdst hfit
  have hlen := t.bits_length
  have hcount := hold.nodeCount_eq
  have hleaves := hold.leaves_le
  refine ⟨_, BitVec.ofNat 32 t.bits.length, BitVec.ofNat 32 ((s.nodeCount.toNat + 1) / 2),
    (execTreeSer_eq_succeed htree hold hdst hfit).trans (succeed_writeBits _ _ _ _ _), ?_, ?_,
    s.writeBits_frame s.args.a0.toNat t.bits⟩
  · rw [BitVec.toNat_ofNat, Nat.mod_eq_of_lt (by omega), hlen]
  · rw [BitVec.toNat_ofNat, Nat.mod_eq_of_lt (by omega), hcount, Nat.mul_div_cancel_left _ Nat.two_pos]

end Sys2Proof.Machine
end

section
/-! PROOFS of the family 30_encoding: the decoder and the encoder undo each other, the words the decoder accepts are
those that pass the three checks of R105 and R106, and a step ends any other word with IllegalCommand. -/

namespace Sys2Proof.Machine

/-! ## The decoder and the encoder (R103, R105) -/

theorem opcode_of_selectCommand {opc imm : Byte} {i : Instr} (h : selectCommand opc imm = some i) : i.opcode = opc := by
  unfold selectCommand at h
  split at h <;> cases h
  all_goals
    next hrow => exact BitVec.eq_of_toNat_eq hrow.symm

/-- Where `IMM8` is 0 unless the opcode takes it, it is the immediate of the command selected. -/
theorem immediate_of_selectCommand {i : Instr} {imm : Byte} (h : selectCommand i.opcode imm = some i)
    (hlegal : takesImmediate i.opcode = false → imm = 0) : i.immediate = imm := by
  cases i with
  | freqSet | freqGet | codeGet | decStep =>
    cases h
    rfl
  | nop | softReset | ackOverrun | freqClear | freqCount | treeBuild | nodeRead | encode | decReset | decBulk | treeSer
  | treeDeser => exact (hlegal rfl).symm

/-- The decoder accepts a word when each check of R105 passes, and reads the command its opcode selects. -/
theorem decode_eq_ok_iff (w : Word) (i : Instr) :
    decode w = .ok i ↔
      selectCommand (opcOf w) (immOf w) = some i ∧ rsvOf w = 0 ∧
        (takesImmediate (opcOf w) = false → immOf w = 0) := by
  unfold decode
  split
  next hsel => exact iff_of_false nofun (by simp [hsel])
  next j hsel =>
    rw [hsel]
    split_ifs with hrsv hstray
    · exact iff_of_false nofun fun ⟨_, hzero, _⟩ => hrsv hzero
    · exact iff_of_false nofun fun ⟨_, _, hlegal⟩ => hstray.2 (hlegal hstray.1)
    · have hlegal : takesImmediate (opcOf w) = false → immOf w = 0 :=
        fun h => by_contra fun hne => hstray ⟨h, hne⟩
      rw [Except.ok.injEq, Option.some.injEq]
      exact (and_iff_left ⟨not_not.1 hrsv, hlegal⟩).symm

/-- Settles O1: the fields of the word written are the command's, and its opcode selects it. -/
theorem decodeInvertsEncode : Obligations.DecodeInvertsEncode := decode_encode_eq

/-- Settles O2: the command read has the opcode and the immediate of the word, whose `RSV` is 0, and a word is its
three fields put together. -/
theorem encodeInvertsDecode : Obligations.EncodeInvertsDecode := by
  intro w i h
  obtain ⟨hsel, hrsv, hlegal⟩ := (decode_eq_ok_iff w i).1 h
  have hopc := opcode_of_selectCommand hsel
  rw [← hopc] at hsel hlegal
  have himm := immediate_of_selectCommand hsel hlegal
  calc encode i = rsvOf w ++ immOf w ++ opcOf w := by rw [encode, hopc, himm, hrsv]; rfl
    _ = w := word_eq_fields w

/-- Settles O4: the first eight are the words the encoder writes for those commands; no row has the opcode 0x99. -/
theorem specWordsDecode : Obligations.SpecWordsDecode :=
  ⟨decode_encode_eq .freqCount, decode_encode_eq .treeBuild, decode_encode_eq .treeSer, decode_encode_eq .encode,
    decode_encode_eq .treeDeser, decode_encode_eq .decBulk, decode_encode_eq (.decStep 1#8),
    decode_encode_eq (.freqSet 0x41#8), rfl⟩

/-! ## The legal words (R105, R106) -/

theorem opcodeListed_iff (f : CmdFields) : f.opcodeListed = true ↔ ∃ p ∈ CmdFields.opcodes, p.1 = f.opc := by
  simp only [CmdFields.opcodeListed, List.any_eq_true, beq_iff_eq]

theorem selectCommand_isSome_of_mem (imm : Byte) :
    ∀ p ∈ CmdFields.opcodes, (selectCommand p.1 imm).isSome = true :=
  List.all_eq_true.1 rfl

theorem opcode_mem_opcodes (i : Instr) : ∃ p ∈ CmdFields.opcodes, p.1 = i.opcode :=
  (opcodeListed_iff ⟨i.opcode, 0, 0⟩).1 (by cases i <;> rfl)

/-- The listed opcodes are those that select a command. -/
theorem opcodeListed_iff_selectCommand (f : CmdFields) :
    f.opcodeListed = true ↔ ∃ i, selectCommand f.opc f.imm8 = some i := by
  rw [opcodeListed_iff]
  constructor
  · rintro ⟨p, hp, hopc⟩
    rw [← hopc]
    exact Option.isSome_iff_exists.1 (selectCommand_isSome_of_mem f.imm8 p hp)
  · rintro ⟨i, hsel⟩
    rw [← opcode_of_selectCommand hsel]
    exact opcode_mem_opcodes i

/-- The rows marked with an operand are the opcodes that the decoder lets have one. -/
theorem takesImmediate_eq_any (opc : Byte) :
    takesImmediate opc = CmdFields.opcodes.any (fun p => p.1 == opc && p.2) := by
  simp [takesImmediate, CmdFields.opcodes, BEq.comm (a := opc), Bool.or_assoc]

theorem immediateLegal_iff (f : CmdFields) :
    f.immediateLegal = true ↔ (takesImmediate f.opc = false → f.imm8 = 0) := by
  rw [CmdFields.immediateLegal, ← takesImmediate_eq_any]
  cases takesImmediate f.opc <;> simp

/-- Settles O3: each of the three checks of `wellFormed` is the decoder's check of the same field. -/
theorem decodeAcceptsExactlyLegalWords : Obligations.DecodeAcceptsExactlyLegalWords := by
  intro w
  simp only [decode_eq_ok_iff, exists_and_right, CmdFields.wellFormed, Bool.and_eq_true, opcodeListed_iff_selectCommand,
    CmdFields.reservedZero, beq_iff_eq, immediateLegal_iff, CmdFields.ofWord_eq, and_assoc]

/-! ## Illegal words (R106) -/

/-- Every opcode of R103 is below 0x70. -/
theorem opcodeListed_eq_false_of_le {f : CmdFields} (h : 0x70 ≤ f.opc.toNat) : f.opcodeListed = false := by
  have hlow : ∀ p ∈ CmdFields.opcodes, p.1.toNat < 0x70 := by simp [CmdFields.opcodes]
  rw [Bool.eq_false_iff, ne_eq, opcodeListed_iff]
  rintro ⟨p, hp, hopc⟩
  exact absurd (hlow p hp) (by rw [hopc]; omega)

theorem exists_decode_error {w : Word} (h : (CmdFields.ofWord w).wellFormed = false) : ∃ e, decode w = .error e := by
  cases hd : decode w with
  | error e => exact ⟨e, rfl⟩
  | ok i => exact absurd ((decodeAcceptsExactlyLegalWords w).1 ⟨i, hd⟩) (Bool.eq_false_iff.1 h)

/-- A pending word that fails a check of R105 ends with IllegalCommand (10_state R23). -/
theorem step_of_decode_error {s : State} {p : Pending} {e : DecodeError} (hp : s.pending = some p)
    (he : s.hostEarly = false) (hd : decode p.word = .error e) : step s = failWith s (.illegalCommand p.word) := by
  simp only [step, hp, he, hd, Bool.false_eq_true, if_false]

/-- Settles O6: the opcodes not listed are counted, none from 0x70 on is listed, and a word that is not legal is one
the decoder rejects. -/
theorem illegalWordsAreReported : Obligations.IllegalWordsAreReported := by
  refine ⟨by decide +kernel, fun k hlow hhigh => ?_, fun s p hp he hill => ?_⟩
  · have hk : (BitVec.ofNat 8 k).toNat = k := Nat.mod_eq_of_lt hhigh
    exact opcodeListed_eq_false_of_le (hlow.trans_eq hk.symm)
  · obtain ⟨e, hd⟩ := exists_decode_error hill
    exact step_of_decode_error hp he hd

end Sys2Proof.Machine
end

section
/-! PROOFS of the family 40_control: what the three block control commands leave, in every state (40_control R130 to
R132, 60_exceptions R303). -/

namespace Sys2Proof.Machine

/-! ## What reads 0, and what is unspecified, in a cleared block -/

/-- `STATUS` reads 0 when nothing is pending, the record is clear, no command was lost and there is no tree
(10_state R39). -/
theorem State.statusWord_eq_zero {s : State} (hpending : s.pending = none) (herr : s.err = false)
    (hcode : s.errCode = 0) (htree : s.treeValid = false) (hoverrun : s.overrun = false) : s.statusWord = 0 := by
  have hbusy : s.busy = false := State.busy_of_pending_none hpending
  have hroot : s.atRoot = false := by rw [State.atRoot, htree, Bool.false_and]
  have hleaf : s.singleLeaf = false := by rw [State.singleLeaf, htree, Bool.false_and]
  rw [State.statusWord, hbusy, herr, hcode, htree, hroot, hleaf, hoverrun]
  decide

/-- With no entry specified, every node is a free value (log 3). -/
theorem State.node_eq_freeNode {s : State} (h : s.nodes = []) (i : Nat) :
    s.node i = Config.freeNode s.storeEpoch i := by
  rw [State.node, h, List.getElem?_nil, Option.getD_none]

/-- With no code table, every code is a free value (log 4). -/
theorem State.code_eq_freeCode {s : State} (h : s.codes = none) (x : Byte) :
    s.code x = Config.freeCode s.storeEpoch x := by
  rw [State.code, h]

/-! ## The three commands -/

theorem exec_nop (s : State) : exec .nop s = .next s.complete := rfl

theorem exec_softReset (s : State) : exec .softReset s = .next s.clearBlock.complete := rfl

theorem exec_ackOverrun (s : State) : exec .ackOverrun s = .next (s.setOverrun false).complete := rfl

/-- Settles O20: NOP is its completion. -/
theorem nopResult : Obligations.NopResult := exec_nop

/-- Settles O21: the block is cleared and the command completes, so that `STATUS` reads 0 and neither a node nor the
code table is specified; the remaining fields are those of `State.clearBlock`. -/
theorem softResetResult : Obligations.SoftResetResult := by
  intro s
  have hstatus : s.clearBlock.complete.statusWord = 0 := State.statusWord_eq_zero rfl rfl rfl rfl rfl
  have hnode := State.node_eq_freeNode (s := s.clearBlock.complete) rfl
  have hcode := State.code_eq_freeCode (s := s.clearBlock.complete) rfl
  exact ⟨s.clearBlock.complete, exec_softReset s, rfl, hstatus, rfl, rfl, rfl, rfl, rfl, freqAt_freqEmpty, rfl, rfl,
    hnode, hcode, rfl, rfl, rfl, rfl, rfl, rfl, rfl, rfl⟩

/-- Settles O22: OVERRUN is cleared, and then the command completes. -/
theorem ackOverrunResult : Obligations.AckOverrunResult := exec_ackOverrun

end Sys2Proof.Machine
end

section
/-! PROOFS of the family 41_tree_builder, first part: the frequency table commands and NODE_READ (41_tree_builder R150
to R152, R166). -/

namespace Sys2Proof.Machine

/-! ## The frequency table -/

theorem exec_freqClear (s : State) : exec .freqClear s = .next (s.setFreq freqEmpty).complete := rfl

theorem exec_freqSet (s : State) (x : Byte) :
    exec (.freqSet x) s = .next (s.setFreq (freqSetAt s.freq x s.args.a0)).complete := rfl

theorem exec_freqGet (s : State) (x : Byte) : exec (.freqGet x) s = .next (s.setQ0 (freqAt s.freq x)).complete := rfl

/-- Settles O23: the table is replaced by the empty one, whose every entry is 0. -/
theorem freqClearResult : Obligations.FreqClearResult :=
  fun s => ⟨freqEmpty, exec_freqClear s, freqAt_freqEmpty⟩

/-- Settles O24: one entry of the table is written, and an entry reads as written or as before. -/
theorem freqSetResult : Obligations.FreqSetResult :=
  fun s x => ⟨_, exec_freqSet s x, fun y => freqAt_freqSetAt s.freq x y s.args.a0⟩

/-- Settles O25: the entry goes to `Q0`, and then the command completes. -/
theorem freqGetResult : Obligations.FreqGetResult := exec_freqGet

/-! ## NODE_READ -/

/-- The fields of a word put together from four of them, read back from bit 0 up. -/
theorem extractLsb'_append_four {w3 w2 w1 w0 : Nat} (d : BitVec w3) (c : BitVec w2) (b : BitVec w1) (a : BitVec w0) :
    (d ++ c ++ b ++ a).extractLsb' 0 w0 = a ∧ (d ++ c ++ b ++ a).extractLsb' w0 w1 = b ∧
    (d ++ c ++ b ++ a).extractLsb' (w1 + w0) w2 = c ∧ (d ++ c ++ b ++ a).extractLsb' (w2 + (w1 + w0)) w3 = d := by
  have hskip : ∀ {m n : Nat} (x : BitVec m) (y : BitVec n) (i len : Nat),
      (x ++ y).extractLsb' (i + n) len = x.extractLsb' i len := by
    intro m n x y i len
    rw [BitVec.extractLsb'_append_eq_of_le (Nat.le_add_left n i), Nat.add_sub_cancel]
  have hfirst : ∀ {m n : Nat} (x : BitVec m) (y : BitVec n) (len : Nat),
      (x ++ y).extractLsb' n len = x.extractLsb' 0 len := by
    intro m n x y len
    rw [BitVec.extractLsb'_append_eq_of_le (Nat.le_refl n), Nat.sub_self]
  refine ⟨BitVec.extractLsb'_append_eq_right, ?_, ?_, ?_⟩
  · rw [hfirst, BitVec.extractLsb'_append_eq_right]
  · rw [hskip, hfirst, BitVec.extractLsb'_append_eq_right]
  · rw [← Nat.add_assoc, hskip, hskip, BitVec.extractLsb'_append_eq_left]

/-- `Q0` of NODE_READ: the children (41_tree_builder R166). -/
def childrenWord (n : Node) : Word := 0#7 ++ n.right ++ 0#7 ++ n.left

/-- `Q1` of NODE_READ: the byte value, the leaf flag and the weight's high bits (41_tree_builder R166). -/
def leafWord (n : Node) : Word := n.freq.extractLsb' 32 8 ++ 0#15 ++ BitVec.ofBool n.isLeaf ++ n.sym

theorem childrenWord_fields (n : Node) :
    (childrenWord n).extractLsb' 0 9 = n.left ∧ (childrenWord n).extractLsb' 9 7 = 0 ∧
    (childrenWord n).extractLsb' 16 9 = n.right ∧ (childrenWord n).extractLsb' 25 7 = 0 :=
  extractLsb'_append_four 0#7 n.right 0#7 n.left

theorem leafWord_fields (n : Node) :
    (leafWord n).extractLsb' 0 8 = n.sym ∧ (leafWord n).getLsbD 8 = n.isLeaf ∧
    (leafWord n).extractLsb' 9 15 = 0 ∧ (leafWord n).extractLsb' 24 8 = n.freq.extractLsb' 32 8 := by
  obtain ⟨hsym, hleaf, hzero, hweight⟩ :=
    extractLsb'_append_four (n.freq.extractLsb' 32 8) 0#15 (BitVec.ofBool n.isLeaf) n.sym
  have hbit : ((leafWord n).extractLsb' 8 1).getLsbD 0 = n.isLeaf :=
    (congrArg (fun b => b.getLsbD 0) hleaf).trans (by simp)
  exact ⟨hsym, by simpa using hbit, hzero, hweight⟩

theorem exec_nodeRead {s : State} (htree : s.treeValid = true) (ha : s.args.a0.toNat < s.nodeCount.toNat) :
    exec .nodeRead s = .next (((s.setQ0 (childrenWord (s.node s.args.a0.toNat))).setQ1
      (leafWord (s.node s.args.a0.toNat))).setQ2 ((s.node s.args.a0.toNat).freq.extractLsb' 0 32)).complete := by
  have hvalid : ¬ s.treeValid = false := by simp [htree]
  exact (if_neg hvalid).trans (if_neg (Nat.not_le.2 ha))

/-- Settles O30: past its two checks NODE_READ leaves the two words of fields and the weight's low bits. -/
theorem nodeReadResult : Obligations.NodeReadResult := by
  intro s htree ha
  obtain ⟨hleft, hzero, hright, hzero'⟩ := childrenWord_fields (s.node s.args.a0.toNat)
  obtain ⟨hsym, hleaf, hmid, hweight⟩ := leafWord_fields (s.node s.args.a0.toNat)
  exact ⟨_, _, _, exec_nodeRead htree ha, hleft, hzero, hright, hzero', hsym, hleaf, hmid, hweight, rfl⟩

end Sys2Proof.Machine
end

section
/-! PROOFS of the family 41_tree_builder, second part: the tree TREE_BUILD leaves, the order of its leaves and merges,
and the length of its code (41_tree_builder R154 to R165). -/

namespace Sys2Proof.Machine

/-! ## The two endings of TREE_BUILD -/

theorem presentSymbols_ne_nil_iff (f : Vector Word 256) : presentSymbols f ≠ [] ↔ ∃ x, freqAt f x ≠ 0 := by
  rw [← exists_congr (mem_presentSymbols f)]
  exact ⟨List.exists_mem_of_ne_nil _, fun ⟨_, hx⟩ => List.ne_nil_of_mem hx⟩

/-- The state TREE_BUILD leaves when the table has an entry (41_tree_builder R162). -/
def State.builtState (s : State) : State :=
  (s.withBuiltTree.reportBuild (presentSymbols s.freq).length
    (s.withBuiltTree.node s.withBuiltTree.root.toNat).freq).complete

theorem exec_treeBuild_of_entry {s : State} (h : presentSymbols s.freq ≠ []) :
    exec .treeBuild s = .next s.builtState :=
  if_neg (List.length_pos_iff.2 h).ne'

theorem exec_treeBuild_of_empty {s : State} (h : presentSymbols s.freq = []) :
    exec .treeBuild s = .next (s.raise .emptyInput) :=
  if_pos (List.length_eq_zero_iff.2 h)

/-- A TREE_BUILD that succeeds has found an entry, and leaves the built state. -/
theorem exec_treeBuild_success {s t : State} (h : exec .treeBuild s = .next t) (hok : t.err = false) :
    presentSymbols s.freq ≠ [] ∧ t = s.builtState := by
  obtain ⟨-, rfl⟩ | ⟨hp, rfl⟩ := execTreeBuild_cases h
  · simp at hok
  · exact ⟨mt List.length_eq_zero_iff.2 hp, rfl⟩

/-- Settles O42: a table whose counts are all 0 has no entry, and then only the error record is written. -/
theorem emptyTableIsReported : Obligations.EmptyTableIsReported := by
  intro s hzero
  have hempty : presentSymbols s.freq = [] := by
    by_contra h
    obtain ⟨x, hx⟩ := (presentSymbols_ne_nil_iff _).1 h
    exact hx (hzero x)
  exact exec_treeBuild_of_empty hempty

/-! ## The built state -/

theorem State.builtState_q0_toNat (s : State) : s.builtState.q0.toNat = (presentSymbols s.freq).length := by
  have hle := presentSymbols_length_le s.freq
  exact (BitVec.toNat_ofNat _ _).trans (Nat.mod_eq_of_lt (by omega))

/-- The results `Q2 : Q1` are the root's weight in full (41_tree_builder R162). -/
theorem State.builtState_weight (s : State) : (s.builtState.node s.builtState.root.toNat).freq.toNat =
    s.builtState.q2.toNat * 2 ^ 32 + s.builtState.q1.toNat := by
  have hsplit : ∀ w : Weight, w.toNat =
      ((w.extractLsb' 32 8).setWidth 32).toNat * 2 ^ 32 + (w.extractLsb' 0 32).toNat := by
    intro w
    have hw := w.isLt
    simp only [BitVec.toNat_setWidth, BitVec.extractLsb'_toNat, Nat.shiftRight_eq_div_pow]
    omega
  exact hsplit _

theorem State.builtState_node (s : State) {k : Nat} (h : k < s.builtState.nodes.length) :
    s.builtState.node k = (buildTree s.freq).nodeAt k := by
  have hk : k < (buildTree s.freq).nodes.length := h
  have hstore : s.builtState.node k = ((buildTree s.freq).nodes[k]?).getD (Config.freeNode s.storeEpoch k) := rfl
  rw [hstore, Builder.nodeAt, List.getElem?_eq_getElem hk, Option.getD_some, Option.getD_some]

/-- The built state holds the built tree with its own codes, and no full tree with the same leaves costs less. -/
theorem State.builtState_tree {s : State} (hp : presentSymbols s.freq ≠ []) :
    ∃ t : HTree, t.symbols.Perm (presentSymbols s.freq) ∧ (∀ x, s.builtState.code x = t.codeOf x) ∧
      ∀ t' : HTree, t'.symbols.Perm (presentSymbols s.freq) →
        t.cost (fun x => (freqAt s.freq x).toNat) ≤ t'.cost (fun x => (freqAt s.freq x).toNat) := by
  obtain ⟨⟨t, hold, hsyms, hopt⟩, -⟩ := buildTree_holdsTree hp s.builtState rfl rfl rfl
  obtain ⟨-, is, hrep, -, -, hdistinct⟩ := hold
  exact ⟨t, hsyms, codeGen_get hrep hdistinct, hopt⟩

/-- Settles O27: the size of the store, the place of the root and its weight are those of the built tree. -/
theorem treeBuildResult : Obligations.TreeBuildResult := by
  intro s hentry
  have hp := (presentSymbols_ne_nil_iff _).2 hentry
  obtain ⟨⟨t, ⟨hcount, -⟩, -⟩, hlen, hroot, htotal⟩ := buildTree_holdsTree hp s.builtState rfl rfl rfl
  refine ⟨s.builtState, exec_treeBuild_of_entry hp, rfl, ?_, ?_, hcount.symm, hroot, htotal, s.builtState_weight⟩
  · rw [s.builtState_q0_toNat, ← distinctSymbols_eq, distinctSymbols_eq_countP]
  · rw [s.builtState_q0_toNat, hlen]

/-! ## The leaves and the merges -/

theorem buildTree_orderInv {f : Vector Word 256} (hp : presentSymbols f ≠ []) : OrderInv f (buildTree f) := by
  obtain ⟨_, -, ho, -⟩ := buildTree_inv f hp
  exact ho

/-- The first nodes of a builder's store are the leaves, in the order of the entries (41_tree_builder R157). -/
theorem OrderInv.nodeAt_leaf {f : Vector Word 256} {b : Builder} (h : OrderInv f b) {k : Nat}
    (hk : k < (presentSymbols f).length) : b.nodeAt k =
      Node.leaf (presentSymbols f)[k] ((freqAt f (presentSymbols f)[k]).setWidth 40) := by
  have hfirst : b.nodes[k]? = (builderStart f).nodes[k]? := by
    rw [← h.leaves, List.getElem?_take_of_lt hk]
  rw [Builder.nodeAt, hfirst, builderStart, List.getElem?_map, List.getElem?_eq_getElem hk]
  rfl

theorem presentSymbols_ascending (f : Vector Word 256) :
    (presentSymbols f).Pairwise (fun x y => x.toNat < y.toNat) := by
  have hvalue : ∀ k ∈ List.range 256, (BitVec.ofNat 8 k).toNat = k := fun k hk =>
    (BitVec.toNat_ofNat _ _).trans (Nat.mod_eq_of_lt (List.mem_range.1 hk))
  refine List.Pairwise.filter _ (List.pairwise_map.2 ?_)
  refine List.pairwise_lt_range.imp_of_mem fun hj hk hjk => ?_
  rwa [hvalue _ hj, hvalue _ hk]

theorem State.builtState_leaf {s : State} (hp : presentSymbols s.freq ≠ []) {k : Nat}
    (hk : k < (presentSymbols s.freq).length) : s.builtState.node k =
      Node.leaf (presentSymbols s.freq)[k] ((freqAt s.freq (presentSymbols s.freq)[k]).setWidth 40) := by
  have ho := buildTree_orderInv hp
  rw [s.builtState_node (hk.trans_le ho.long), ho.nodeAt_leaf hk]

/-- Settles O28: node `k` is the leaf of the `k`-th entry, and the entries ascend. -/
theorem treeBuildAllocatesLeavesInOrder : Obligations.TreeBuildAllocatesLeavesInOrder := by
  intro s t h hok
  obtain ⟨hp, rfl⟩ := exec_treeBuild_success h hok
  rw [s.builtState_q0_toNat]
  refine ⟨fun k hk => ?_, fun j k hjk hk => ?_, fun x hx => ?_⟩
  · exact ⟨_, State.builtState_leaf hp hk, (mem_presentSymbols _ _).1 (List.getElem_mem hk)⟩
  · rw [State.builtState_leaf hp hk, State.builtState_leaf hp (hjk.trans hk)]
    exact List.pairwise_iff_getElem.1 (presentSymbols_ascending _) j k (hjk.trans hk) hk hjk
  · obtain ⟨k, hk, hkx⟩ := List.mem_iff_getElem.1 ((mem_presentSymbols _ x).2 hx)
    exact ⟨k, hk, by rw [State.builtState_leaf hp hk]; exact hkx⟩

/-- The key of a built node is the key the builder gave it. -/
theorem State.builtState_keyAt (s : State) {i : NodeIndex} (h : i.toNat < s.builtState.nodes.length) :
    (⟨(s.builtState.node i.toNat).freq, i⟩ : QueueKey) = (buildTree s.freq).keyAt i := by
  rw [s.builtState_node h, Builder.keyAt]

/-- Settles O29: the order of merges is `OrderInv` of the build, whose store the built state takes over. -/
theorem treeBuildMergesInKeyOrder : Obligations.TreeBuildMergesInKeyOrder := by
  intro s t h hok
  obtain ⟨hp, rfl⟩ := exec_treeBuild_success h hok
  have ho := buildTree_orderInv hp
  dsimp only
  rw [s.builtState_q0_toNat]
  refine ⟨fun k hn hk => ?_, fun j k hn hjk hk => ?_⟩
  · obtain ⟨hinner, hsym, hleft, hright, hsum, hbefore⟩ := ho.merged k hn hk
    rw [s.builtState_node hk, s.builtState_keyAt (hleft.trans hk), s.builtState_keyAt (hright.trans hk),
      s.builtState_node (hleft.trans hk), s.builtState_node (hright.trans hk)]
    exact ⟨hinner, hsym, hleft, hright, hsum, hbefore⟩
  · have hj := hjk.trans hk
    obtain ⟨-, -, -, hright, -⟩ := ho.merged j hn hj
    obtain ⟨-, -, hleft, -⟩ := ho.merged k (hn.trans hjk.le) hk
    rw [s.builtState_node hj, s.builtState_node hk, s.builtState_keyAt (hright.trans hj),
      s.builtState_keyAt (hleft.trans hk)]
    exact ho.order j k hn hjk hk

/-! ## The length of the code -/

/-- A sum over all byte values to which only the entries contribute is a sum over the entries. -/
theorem sum_presentSymbols (f : Vector Word 256) (g : Byte → Nat) (h : ∀ x, freqAt f x = 0 → g x = 0) :
    ((presentSymbols f).map g).sum = ((List.range 256).map (fun k => g (BitVec.ofNat 8 k))).sum := by
  have hcases : (fun x => if (freqAt f x != 0) = true then g x else 0) = g := by
    funext x
    by_cases hx : freqAt f x = 0
    · simp [hx, h x hx]
    · exact if_pos (bne_iff_ne.2 hx)
  have hsplit := List.sum_map_ite (fun x => (freqAt f x != 0) = true) g (fun _ => 0)
    ((List.range 256).map (fun k => BitVec.ofNat 8 k))
  rw [hcases, List.sum_map_zero, Nat.add_zero, List.map_map] at hsplit
  simp only [Bool.decide_eq_true] at hsplit
  exact hsplit.symm

/-- Only the entries weigh in a weighted length. -/
theorem weightedLength_eq_sum (f : Vector Word 256) (len : Byte → Nat) :
    weightedLength f len = ((presentSymbols f).map (fun x => (freqAt f x).toNat * len x)).sum := by
  have hzero : ∀ x, freqAt f x = 0 → (freqAt f x).toNat * len x = 0 := fun x hx => by simp [hx]
  exact (sum_presentSymbols f _ hzero).symm

theorem HTree.weight_eq_totalCount {f : Vector Word 256} {t : HTree} (h : t.symbols.Perm (presentSymbols f)) :
    t.weight (fun x => (freqAt f x).toNat) = totalCount f :=
  (h.map _).sum_eq.trans (total_eq f)

/-- A tree of one leaf is that leaf. -/
theorem HTree.leaves_eq_one_iff (t : HTree) : t.leaves = 1 ↔ ∃ x, t = .leaf x := by
  cases t with
  | leaf x => simp
  | node l r =>
    have hl := l.leaves_pos
    have hr := r.leaves_pos
    simp only [HTree.leaves_node, reduceCtorEq, exists_false, iff_false]
    omega

/-- The weighted length of a tree's code over its own leaves: the tree's cost, but for the code "0" of a degenerate
tree (42_code_table R202). -/
theorem HTree.weightedLength_codeOf {f : Vector Word 256} {t : HTree} (h : t.symbols.Perm (presentSymbols f)) :
    weightedLength f (fun x => (t.codeOf x).length) =
      if (presentSymbols f).length = 1 then totalCount f else t.cost (fun x => (freqAt f x).toNat) := by
  rw [weightedLength_eq_sum, ← (h.map _).sum_eq, ← HTree.weight_eq_totalCount h, ← h.length_eq]
  cases t with
  | leaf x => simp [HTree.symbols, HTree.codeOf, HTree.weight]
  | node l r =>
    have hmany : ¬ (HTree.node l r).symbols.length = 1 := by
      intro hone
      obtain ⟨x, hx⟩ := (HTree.leaves_eq_one_iff _).1 hone
      exact HTree.noConfusion hx
    have hdistinct : (HTree.node l r).symbols.Nodup := h.nodup_iff.2 (presentSymbols_nodup f)
    rw [if_neg hmany, HTree.cost, ← HTree.paths_symbols, List.map_map]
    refine congrArg List.sum (List.map_congr_left fun e he => ?_)
    rw [Function.comp_apply, HTree.codeOf_eq hdistinct he]

/-- The code length of the built state is the length of the built tree's code. -/
theorem State.builtState_weightedLength {s : State} {t : HTree} (hcode : ∀ x, s.builtState.code x = t.codeOf x) :
    weightedLength s.freq s.builtState.codeLen = weightedLength s.freq (fun x => (t.codeOf x).length) :=
  congrArg (weightedLength s.freq) (funext fun x => congrArg List.length (hcode x))

/-- Settles O51: a tree with the entries as its leaves is one of those than which the built tree costs no more; with one
entry both codes are "0". -/
theorem builtTreeIsOptimal : Obligations.BuiltTreeIsOptimal := by
  intro s t h hexec hok hdistinct hleaves
  obtain ⟨hp, rfl⟩ := exec_treeBuild_success hexec hok
  obtain ⟨t, hsyms, hcode, hopt⟩ := State.builtState_tree hp
  have hperm : h.symbols.Perm (presentSymbols s.freq) :=
    (List.perm_ext_iff_of_nodup hdistinct (presentSymbols_nodup _)).2 fun x =>
      (hleaves x).trans (mem_presentSymbols _ x).symm
  rw [State.builtState_weightedLength hcode, HTree.weightedLength_codeOf hsyms, HTree.weightedLength_codeOf hperm]
  split
  · exact Nat.le_refl _
  · exact hopt h hperm

/-- The built tree costs at most the total count times the depth of a shallow tree (41_tree_builder R164). -/
theorem cost_le_clog {f : Vector Word 256} {t : HTree} (hp : presentSymbols f ≠ [])
    (hopt : ∀ t' : HTree, t'.symbols.Perm (presentSymbols f) →
      t.cost (fun x => (freqAt f x).toNat) ≤ t'.cost (fun x => (freqAt f x).toNat)) :
    t.cost (fun x => (freqAt f x).toNat) ≤ Nat.clog 2 (presentSymbols f).length * totalCount f := by
  obtain ⟨u, hsyms, hdepth⟩ := exists_shallow_tree _ (presentSymbols f) rfl (List.length_pos_iff.2 hp)
  have hperm : u.symbols.Perm (presentSymbols f) := .of_eq hsyms
  calc t.cost _ ≤ u.cost (fun x => (freqAt f x).toNat) := hopt u hperm
    _ ≤ u.weight (fun x => (freqAt f x).toNat) * u.depth := u.cost_le _
    _ = u.depth * totalCount f := by rw [HTree.weight_eq_totalCount hperm, Nat.mul_comm]
    _ ≤ Nat.clog 2 (presentSymbols f).length * totalCount f := Nat.mul_le_mul_right _ hdepth

/-- The one code of a table with one entry is "0" (42_code_table R202). -/
theorem HTree.codeOf_length_of_one {f : Vector Word 256} {t : HTree} (h : t.symbols.Perm (presentSymbols f))
    (hone : (presentSymbols f).length = 1) {x : Byte} (hx : freqAt f x ≠ 0) : (t.codeOf x).length = 1 := by
  obtain ⟨y, rfl⟩ := t.leaves_eq_one_iff.1 (h.length_eq.trans hone)
  have hxy : x = y := List.mem_singleton.1 (h.mem_iff.2 ((mem_presentSymbols f x).2 hx))
  rw [HTree.codeOf, if_pos hxy, List.length_singleton]

/-- Settles O52: with one entry the weighted length is the total count; otherwise it is the tree's cost, which a shallow
tree bounds. -/
theorem builtCodeMeetsTheLengthBound : Obligations.BuiltCodeMeetsTheLengthBound := by
  intro s t h hok
  obtain ⟨hp, rfl⟩ := exec_treeBuild_success h hok
  obtain ⟨t, hsyms, hcode, hopt⟩ := State.builtState_tree hp
  constructor
  · rw [State.builtState_weightedLength hcode, HTree.weightedLength_codeOf hsyms,
      s.builtState_q0_toNat, Nat.add_one_mul]
    split
    · exact Nat.le_add_left _ _
    · exact (cost_le_clog hp hopt).trans (Nat.le_add_right _ _)
  · intro hq x hx
    have hone : (presentSymbols s.freq).length = 1 := by
      rw [← s.builtState_q0_toNat, hq]
      rfl
    exact (congrArg List.length (hcode x)).trans (HTree.codeOf_length_of_one hsyms hone hx)

end Sys2Proof.Machine
end

section
/-! PROOFS of the family 42_code_table: the codes of a tree are prefix-free and lead from the root to their leaves
(42_code_table R200 to R203), and TREE_DESER gives back the tree that TREE_SER wrote (R205, 45_tree_serdes R280,
R281). -/

namespace Sys2Proof.Machine

/-! ## The codes of a tree -/

/-- Of two leaves none lies on the way to the other: their paths part where the leaves' subtrees do. -/
theorem HTree.eq_of_path_prefix {t : HTree} {x y : Byte} {p q : Bits} (hx : (x, p) ∈ t.paths)
    (hy : (y, q) ∈ t.paths) (h : p <+: q) : x = y := by
  induction t generalizing p q with
  | leaf z =>
    obtain ⟨rfl, -⟩ : x = z ∧ p = [] := by simpa [HTree.paths] using hx
    obtain ⟨rfl, -⟩ : y = x ∧ q = [] := by simpa [HTree.paths] using hy
    rfl
  | node l r ihl ihr =>
    simp only [HTree.paths, List.mem_append, List.mem_map, Prod.mk.injEq] at hx hy
    obtain ⟨⟨x, p⟩, hx, rfl, rfl⟩ | ⟨⟨x, p⟩, hx, rfl, rfl⟩ := hx <;>
      obtain ⟨⟨y, q⟩, hy, rfl, rfl⟩ | ⟨⟨y, q⟩, hy, rfl, rfl⟩ := hy <;>
      obtain ⟨hbit, h⟩ := List.cons_prefix_cons.1 h
    · exact ihl hx hy h
    · exact absurd hbit Bool.false_ne_true
    · exact absurd hbit Bool.false_ne_true.symm
    · exact ihr hx hy h

/-- Under a tree of two leaves or more the code of a leaf's symbol is the path of that leaf. -/
theorem HTree.codeOf_mem_paths {l r : HTree} (hn : (HTree.node l r).symbols.Nodup) {x : Byte}
    (hx : x ∈ (HTree.node l r).symbols) : (x, (HTree.node l r).codeOf x) ∈ (HTree.node l r).paths := by
  obtain ⟨p, hp⟩ := ((HTree.node l r).mem_symbols_iff x).1 hx
  rwa [HTree.codeOf_eq hn hp]

theorem HTree.path_ne_nil {l r : HTree} {e : Byte × Bits} (h : e ∈ (HTree.node l r).paths) : e.2 ≠ [] := by
  simp only [HTree.paths, List.mem_append, List.mem_map] at h
  obtain ⟨_, -, rfl⟩ | ⟨_, -, rfl⟩ := h <;> exact List.cons_ne_nil _ _

/-- A byte value that is no leaf's symbol has no code (42_code_table R202). -/
theorem HTree.codeOf_eq_nil {t : HTree} {x : Byte} (hx : x ∉ t.symbols) : t.codeOf x = [] := by
  cases t with
  | leaf y => exact if_neg (mt List.mem_singleton.2 hx)
  | node l r =>
    have hnone : (HTree.node l r).paths.lookup x = none := by
      rw [List.lookup_eq_none_iff]
      rintro ⟨y, p⟩ hp
      rw [bne_iff_ne]
      rintro rfl
      exact hx ((HTree.mem_symbols_iff _ _).2 ⟨p, hp⟩)
    rw [HTree.codeOf, hnone, Option.getD_none]

theorem HTree.codeOf_ne_nil_iff {t : HTree} (hn : t.symbols.Nodup) (x : Byte) :
    t.codeOf x ≠ [] ↔ x ∈ t.symbols := by
  refine ⟨fun h => of_not_not (mt HTree.codeOf_eq_nil h), fun hx => ?_⟩
  cases t with
  | leaf y =>
    rw [HTree.codeOf, if_pos (List.mem_singleton.1 hx)]
    exact List.cons_ne_nil _ _
  | node l r => exact HTree.path_ne_nil (HTree.codeOf_mem_paths hn hx)

/-- 42_code_table R203, item 2. -/
theorem HTree.codeOf_not_prefix {t : HTree} (hn : t.symbols.Nodup) {x y : Byte} (hx : x ∈ t.symbols)
    (hy : y ∈ t.symbols) (hxy : x ≠ y) : ¬ t.codeOf x <+: t.codeOf y := by
  cases t with
  | leaf z => exact absurd ((List.mem_singleton.1 hx).trans (List.mem_singleton.1 hy).symm) hxy
  | node l r =>
    exact fun h => hxy (HTree.eq_of_path_prefix (HTree.codeOf_mem_paths hn hx) (HTree.codeOf_mem_paths hn hy) h)

/-- A code is no longer than the deepest path of 256 leaves; the one code of a degenerate tree has one bit. -/
theorem HTree.codeOf_length_le {t : HTree} (hn : t.symbols.Nodup) {x : Byte} (hx : x ∈ t.symbols) :
    (t.codeOf x).length ≤ Config.maxDepth := by
  cases t with
  | leaf y =>
    rw [HTree.codeOf, if_pos (List.mem_singleton.1 hx)]
    decide
  | node l r =>
    have hpath := HTree.path_length_le _ _ (HTree.codeOf_mem_paths hn hx)
    exact hpath.trans (Nat.le_of_lt_succ (HTree.depth_lt_fuel _ hn))

/-! ## The codes in the state -/

theorem HoldsTree.symbols_nodup {s : State} {t : HTree} (h : HoldsTree s t) : t.symbols.Nodup := by
  obtain ⟨-, _, -, -, -, hn⟩ := h
  exact hn

/-- The leaves of the store are those of the tree it holds. -/
theorem HoldsTree.mem_symbols_iff {s : State} {t : HTree} (h : HoldsTree s t) (x : Byte) :
    x ∈ t.symbols ↔ ∃ i : NodeIndex, i.toNat < s.nodeCount.toNat ∧ (s.node i.toNat).isLeaf = true ∧
      (s.node i.toNat).sym = x := by
  obtain ⟨-, is, hrep, -, hindex, -⟩ := h
  rw [hrep.mem_symbols_iff]
  simp only [hindex]

/-- Following a code from the root emits its byte value and returns to the root (42_code_table R203, item 3). In a
degenerate tree the bit 0 does (44_decoder R245). -/
theorem HoldsTree.decodeFrom_codeOf {s : State} {t : HTree} (h : HoldsTree s t) {x : Byte} (hx : x ∈ t.symbols) :
    decodeFrom s s.root (t.codeOf x) = ([x], s.root) := by
  obtain ⟨-, is, hrep, -, -, hn⟩ := h
  cases t with
  | leaf y =>
    obtain rfl := List.mem_singleton.1 hx
    cases hrep with
    | leaf _ _ hleaf hsym => rw [HTree.codeOf, if_pos rfl, decodeFrom, if_pos hleaf, hsym, decodeFrom]
  | node l r =>
    have hroot : (s.node s.root.toNat).isLeaf = false := by
      cases hrep with
      | node _ _ _ _ _ hroot _ _ => exact hroot
    have hwalk := walkBits_path hroot hrep x _ [] (HTree.codeOf_mem_paths hn hx)
    rwa [List.append_nil, walkBits_eq_decodeFrom] at hwalk

/-- Settles O50: the table of a state with a tree is the tree's, whose codes are its leaves' paths, or "0" in a
degenerate tree. -/
theorem codesArePrefixFree : Obligations.CodesArePrefixFree := by
  constructor
  · intro s hinv hvalid
    obtain ⟨-, htree⟩ := hinv
    obtain ⟨t, hold, hcode, -⟩ := htree hvalid
    have hn := hold.symbols_nodup
    have hcoded : ∀ x, s.code x ≠ [] ↔ x ∈ t.symbols := fun x => by rw [hcode, HTree.codeOf_ne_nil_iff hn]
    refine ⟨fun x => (hcoded x).trans (hold.mem_symbols_iff x), fun x y hx hy hxy => ?_, fun x hx => ?_⟩
    · rw [hcode, hcode]
      exact HTree.codeOf_not_prefix hn ((hcoded x).1 hx) ((hcoded y).1 hy) hxy
    · rw [State.codeLen, hcode]
      exact ⟨HTree.codeOf_length_le hn ((hcoded x).1 hx), hold.decodeFrom_codeOf ((hcoded x).1 hx)⟩
  · exact fun t hn => ⟨HTree.codeOf_ne_nil_iff hn, fun x y hx hy hxy => HTree.codeOf_not_prefix hn hx hy hxy⟩

/-! ## TREE_DESER over the encoding of a tree -/

/-- The state TREE_DESER leaves when its source begins with the encoding of `t` (45_tree_serdes R276, R278). -/
def State.deserialized (s : State) (t : HTree) : State :=
  (((s.installTree (HTree.layout 0 t) 0).generateCodes.setQ0 (BitVec.ofNat 32 t.bits.length)).setQ1
    (BitVec.ofNat 32 t.leaves)).complete

theorem State.deserialized_holdsTree (s : State) {t : HTree} (hn : t.symbols.Nodup) :
    HoldsTree (s.deserialized t) t := by
  refine HTree.layout_holdsTree _ t hn rfl rfl ?_
  exact congrArg (BitVec.ofNat 10) (HTree.layout_length 0 t)

theorem State.deserialized_code (s : State) {t : HTree} (hn : t.symbols.Nodup) (x : Byte) :
    (s.deserialized t).code x = t.codeOf x := by
  obtain ⟨-, is, hrep, -, -, -⟩ := s.deserialized_holdsTree hn
  exact codeGen_get hrep hn x

/-- An encoding at the start of the source is one that the parser, with its store of 511 nodes empty, can read. -/
theorem parsable_of_readBits {s : State} {t : HTree} {b n : Nat} (hn : t.symbols.Nodup) (hfit : t.bits.length ≤ n)
    (hbits : s.readBits b t.bits.length = t.bits) : Parsable (fun j => s.readBit (b + j)) n parseStart t := by
  have hsize := t.size_eq
  have hleaves := t.leaves_le hn
  have hroom : t.size ≤ Config.nNodes := by
    change t.size ≤ 511
    omega
  have hread : ∀ j, (hj : j < t.bits.length) → s.readBit (b + j) = t.bits[j] := by
    intro j hj
    have hlen : j < (s.readBits b t.bits.length).length := by rwa [hbits]
    calc s.readBit (b + j) = (s.readBits b t.bits.length)[j] := (Memory.readBits_getElem _ _ _ _ _ hlen).symm
      _ = t.bits[j] := getElem_congr_coll hbits
  refine ⟨(Nat.zero_add _).trans_le hfit, fun j hj => ?_, (Nat.zero_add _).trans_le hroom, hn,
    fun _ _ => List.not_mem_nil⟩
  change s.readBit (b + (0 + j)) = _
  rw [Nat.zero_add, hread j hj]

/-- TREE_DESER accepts the encoding of a tree with distinct symbols at the start of an admitted source, whatever follows
it (45_tree_serdes R280). -/
theorem exec_treeDeser_of_encoding {s : State} {t : HTree} (hn : t.symbols.Nodup)
    (hsrc : s.args.a0.toNat + s.args.a1.toNat ≤ 8 * s.dmemBytes) (hfit : t.bits.length ≤ s.args.a1.toNat)
    (hbits : s.readBits s.args.a0.toNat t.bits.length = t.bits) :
    exec .treeDeser s = .next (s.deserialized t) := by
  have hparse := parseTree_complete _ _ t (Config.nNodes + 1) _
    ((t.depth_lt_fuel hn).trans (by decide)) (parsable_of_readBits hn hfit hbits)
  change execTreeDeser s = _
  rw [execTreeDeser, (s.bitRegionOk_iff _ _).2 hsrc, hparse]
  simp [ParseState.after, parseStart, State.deserialized, HTree.leaves]

/-! ## TREE_DESER after TREE_SER -/

/-- A TREE_SER that succeeds in a state that holds a tree writes the tree's encoding and its length. -/
theorem exec_treeSer_success {s u : State} {t : HTree} (hold : HoldsTree s t) (h : exec .treeSer s = .next u)
    (hok : u.err = false) : u.dmemBytes = s.dmemBytes ∧ u.q0 = BitVec.ofNat 32 t.bits.length ∧
      u.readBits s.args.a0.toNat t.bits.length = t.bits := by
  obtain ⟨e, rfl⟩ | ⟨hvalid, hreg, hfit, -⟩ := execTreeSer_cases h
  · simp at hok
  · rw [hold.serialized_eq] at hfit
    obtain rfl := (succeed_next _ _).1
      ((execTreeSer_eq_succeed hvalid hold ((s.bitRegionOk_iff _ _).1 hreg) hfit).symm.trans h)
    exact ⟨rfl, rfl, Memory.readBits_writeBits _ _ _ _⟩

/-- Settles O54: the source begins with the encoding of the tree held, which TREE_DESER parses to the same tree; the
code table is the tree's before and after. -/
theorem deserializingInvertsSerializing : Obligations.DeserializingInvertsSerializing := by
  intro s u t p _ hold hcode h hok ha0 hsrc hfit
  have hn := hold.symbols_nodup
  have hlen := t.bits_length
  have hleaves := hold.leaves_le
  obtain ⟨hsize, hq0, hbits⟩ := exec_treeSer_success hold h hok
  rw [hq0, BitVec.toNat_ofNat, Nat.mod_eq_of_lt (by omega)] at hfit
  rw [← ha0] at hbits
  rw [← hsize] at hsrc
  exact ⟨_, exec_treeDeser_of_encoding (s := { u with pending := some p }) hn hsrc hfit hbits, rfl,
    State.deserialized_holdsTree _ hn, fun x => (State.deserialized_code _ hn x).trans (hcode x).symm, hq0.symm⟩

end Sys2Proof.Machine
end

section
/-! PROOFS of the family 43_encoder: what a successful ENCODE has checked and written (43_encoder R221), and DEC_BULK
over the concatenated codes of some bytes, which gives those bytes back (R224). -/

namespace Sys2Proof.Machine

/-! ## A success has passed every check -/

theorem firstFailing_eq_none_iff (l : List (Bool × CmdError)) : firstFailing l = none ↔ ∀ c ∈ l, c.1 = false := by
  induction l with
  | nil => simp [firstFailing]
  | cons c l ih => cases h : c.1 <;> simp [firstFailing, h, ih]

/-- A command that ends without an error was not to be refused and had no failing check. -/
theorem firstError_eq_none_of_success {i : Instr} {s u : State} (h : exec i s = .next u) (hok : u.err = false) :
    ¬ OverlapRefused i s ∧ firstError i s = none := by
  have hov : ¬ OverlapRefused i s := fun hov => by simp [exec_of_overlapRefused hov] at h
  obtain ⟨hfail, -⟩ := exec_reports i s hov
  refine ⟨hov, Option.eq_none_iff_forall_ne_some.2 fun e he => ?_⟩
  obtain rfl : u = failedState s e := Host.Outcome.next.inj (h.symm.trans (hfail e he))
  exact Bool.noConfusion hok

/-- A successful ENCODE had a tree, an admitted destination with room for the codes and a code for each source byte, and
wrote the codes (43_encoder R221). -/
theorem exec_encode_success {s u : State} (h : exec .encode s = .next u) (hok : u.err = false) :
    s.treeValid = true ∧ s.args.a2.toNat + s.args.a3.toNat ≤ 8 * s.dmemBytes ∧
      (∀ x ∈ encodeSource s, s.code x ≠ []) ∧ totalCodeBits s (encodeSource s) ≤ s.args.a3.toNat ∧
      u = (((s.writeBits s.args.a2.toNat (encodeBytes s (encodeSource s))).setQ0
        (BitVec.ofNat 32 (totalCodeBits s (encodeSource s)))).setQ1 s.args.a1).complete := by
  obtain ⟨hov, hnone⟩ := firstError_eq_none_of_success h hok
  obtain ⟨htree, hsrc, hdst, hcoded, hfit⟩ : s.treeValid = true ∧
      s.args.a0.toNat + s.args.a1.toNat ≤ s.dmemBytes ∧ s.args.a2.toNat + s.args.a3.toNat ≤ 8 * s.dmemBytes ∧
      (∀ x ∈ encodeSource s, s.code x ≠ []) ∧ totalCodeBits s (encodeSource s) ≤ s.args.a3.toNat := by
    simpa [State.codeLen] using (firstFailing_eq_none_iff _).1 hnone
  have hapart := fun hshare => hov ⟨htree, hsrc, hdst, hshare⟩
  exact ⟨htree, hdst, hcoded, hfit,
    (succeed_next _ _).1 ((execEncode_eq_succeed htree hsrc hdst hapart hcoded hfit).symm.trans h)⟩

/-- ENCODE with the tree `t` and its codes keeps the tree and leaves `Q0` bits inside DMEM from bit address a2 on: the
codes that `t` gives the source bytes, each a symbol of `t`. -/
theorem exec_encode_codes {s u : State} {t : HTree} (hold : HoldsTree s t) (hcode : ∀ x, s.code x = t.codeOf x)
    (h : exec .encode s = .next u) (hok : u.err = false) :
    u.treeValid = true ∧ HoldsTree u t ∧ u.dmemBytes = s.dmemBytes ∧
      s.args.a2.toNat + u.q0.toNat ≤ 8 * s.dmemBytes ∧ (∀ x ∈ encodeSource s, x ∈ t.symbols) ∧
      u.readBits s.args.a2.toNat u.q0.toNat = (encodeSource s).flatMap t.codeOf := by
  obtain ⟨htree, hcap, hcoded, hfit, rfl⟩ := exec_encode_success h hok
  have hq0 : (BitVec.ofNat 32 (totalCodeBits s (encodeSource s))).toNat = totalCodeBits s (encodeSource s) :=
    Nat.mod_eq_of_lt (hfit.trans_lt s.args.a3.isLt)
  have hcodes : encodeBytes s (encodeSource s) = (encodeSource s).flatMap t.codeOf :=
    congrArg (List.flatMap · _) (funext hcode)
  have hsymbols : ∀ x ∈ encodeSource s, x ∈ t.symbols := fun x hx =>
    (HTree.codeOf_ne_nil_iff hold.symbols_nodup x).1 (hcode x ▸ hcoded x hx)
  simp only [State.complete_q0, State.setQ1_q0, State.setQ0_q0, hq0]
  refine ⟨htree, hold, rfl, (Nat.add_le_add_left hfit _).trans hcap, hsymbols, ?_⟩
  rw [← hcodes, ← encodeBytes_length]
  exact Memory.readBits_writeBits _ _ _ _

/-! ## Decoding concatenated codes -/

/-- Decoding goes on where the bits before it have led. -/
theorem decodeFrom_append (s : State) (c : NodeIndex) (p q : Bits) :
    decodeFrom s c (p ++ q) = ((decodeFrom s c p).1 ++ (decodeFrom s (decodeFrom s c p).2 q).1,
      (decodeFrom s (decodeFrom s c p).2 q).2) := by
  induction p generalizing c with
  | nil => rfl
  | cons v p ih =>
    simp only [List.cons_append, decodeFrom, ih]
    split_ifs <;> rfl

/-- Each code leads from the root back to the root (42_code_table R203), so the codes of some bytes decode to those
bytes. -/
theorem HoldsTree.decodeFrom_flatMap_codeOf {s : State} {t : HTree} (h : HoldsTree s t) {xs : List Byte}
    (hxs : ∀ x ∈ xs, x ∈ t.symbols) : decodeFrom s s.root (xs.flatMap t.codeOf) = (xs, s.root) := by
  induction xs with
  | nil => rfl
  | cons x xs ih =>
    obtain ⟨hx, hxs⟩ := List.forall_mem_cons.1 hxs
    rw [List.flatMap_cons, decodeFrom_append, h.decodeFrom_codeOf hx, ih hxs]
    rfl

theorem execDecBulk_eq_succeed {s : State} (htree : s.treeValid = true)
    (hsrc : s.args.a0.toNat + s.args.a1.toNat ≤ 8 * s.dmemBytes)
    (hdst : s.args.a2.toNat + s.args.a3.toNat ≤ s.dmemBytes)
    (hapart : ¬ SharesByte s.args.a2.toNat s.args.a3.toNat s.args.a0.toNat s.args.a1.toNat)
    (hfit : (bulkWalk s).1.length ≤ s.args.a3.toNat) :
    execDecBulk s = succeed (((((s.writeBytes s.args.a2.toNat (bulkWalk s).1).setCursor (bulkWalk s).2).setQ0
      (BitVec.ofNat 32 (bulkWalk s).1.length)).setQ1 s.args.a1).setQ2
        (if (bulkWalk s).2 = s.root then 0 else 1)) := by
  have hwalk : walkBits s.node s.root s.root (s.readBits s.args.a0.toNat s.args.a1.toNat) = bulkWalk s :=
    walkBits_eq_decodeFrom _ _ _
  simp only [execDecBulk, htree, (s.bitRegionOk_iff _ _).2 hsrc, (s.byteRegionOk_iff _ _).2 hdst, Bool.true_eq_false,
    if_false, if_neg (mt (regionsOverlap_iff _ _ _ _).1 hapart), hwalk, if_neg (Nat.not_lt.2 hfit)]

/-- DEC_BULK over the codes of some bytes writes those bytes at a2 and ends at the root. -/
theorem exec_decBulk_of_codes {s : State} {t : HTree} {xs : List Byte} (htree : s.treeValid = true)
    (hold : HoldsTree s t) (hxs : ∀ x ∈ xs, x ∈ t.symbols)
    (hsrc : s.args.a0.toNat + s.args.a1.toNat ≤ 8 * s.dmemBytes)
    (hdst : s.args.a2.toNat + s.args.a3.toNat ≤ s.dmemBytes)
    (hapart : ¬ SharesByte s.args.a2.toNat s.args.a3.toNat s.args.a0.toNat s.args.a1.toNat)
    (hbits : s.readBits s.args.a0.toNat s.args.a1.toNat = xs.flatMap t.codeOf)
    (hfit : xs.length ≤ s.args.a3.toNat) :
    ∃ v, exec .decBulk s = .next v ∧ v.err = false ∧ v.cursor = v.root ∧ v.q0 = BitVec.ofNat 32 xs.length ∧
      v.q2 = 0 ∧ ∀ j, (hj : j < xs.length) → v.readByte (s.args.a2.toNat + j) = xs[j] := by
  have hwalk : bulkWalk s = (xs, s.root) := by rw [bulkWalk, hbits, hold.decodeFrom_flatMap_codeOf hxs]
  have hout := execDecBulk_eq_succeed htree hsrc hdst hapart (by rwa [hwalk])
  rw [hwalk] at hout
  refine ⟨_, hout, rfl, rfl, rfl, if_pos rfl, fun j hj => ?_⟩
  change Memory.read s.dmemEpoch (Memory.writeBytes s.dmem s.args.a2.toNat xs) (s.args.a2.toNat + j) = _
  rw [Memory.read_writeBytes, if_pos (Nat.le_add_right _ _), Nat.add_sub_cancel_left, List.getElem?_eq_getElem hj,
    Option.getD_some]

/-- Settles O53: DEC_BULK reads the codes that ENCODE left at a2 with the same tree, a degenerate one included. -/
theorem decBulkInvertsEncode : Obligations.DecBulkInvertsEncode := by
  intro s u p hinv h hok ha0 ha1 hroom hdst hapart
  obtain ⟨hvalid, -⟩ := exec_encode_success h hok
  obtain ⟨-, hstored⟩ := hinv
  obtain ⟨t, hold, hcode, -⟩ := hstored hvalid
  obtain ⟨htree, hkept, hsize, hsrc, hsymbols, hbits⟩ := exec_encode_codes hold hcode h hok
  rw [← ha0, ← ha1] at hsrc hbits
  rw [← hsize] at hsrc hdst
  have hlength : (encodeSource s).length = s.args.a1.toNat := Memory.readBytes_length _ _ _ _
  obtain ⟨v, hv, herr, hcursor, hq0, hq2, hout⟩ := exec_decBulk_of_codes (s := { u with pending := some p })
    htree hkept hsymbols hsrc hdst hapart hbits (hlength.trans_le hroom)
  refine ⟨v, hv, herr, hcursor, ?_, hq2, fun j hj => ?_⟩
  · rw [hq0, hlength, BitVec.ofNat_toNat, BitVec.setWidth_eq]
  · rw [← hlength] at hj
    exact (hout j hj).trans (Memory.readBytes_getElem _ _ _ _ _ hj)

end Sys2Proof.Machine
end

section
/-! PROOFS of the family 44_decoder: the three decoder commands (44_decoder R241 to R248). -/

namespace Sys2Proof.Machine

/-! ## DEC_RESET -/

theorem exec_decReset {s : State} (htree : s.treeValid = true) :
    exec .decReset s = .next (s.setCursor s.root).complete :=
  if_neg (ne_false_of_eq_true htree)

/-- Settles O33: past the check for a tree, DEC_RESET writes the cursor and completes. -/
theorem decResetResult : Obligations.DecResetResult := fun _ => exec_decReset

/-! ## One step of the walker, by the three cases of R241 -/

section Walk1
variable {nd : Nat → Node} {root c : NodeIndex} {v : Bool}

/-- On a degenerate tree either bit emits (44_decoder R245). -/
theorem walk1_of_root_leaf (hroot : (nd root.toNat).isLeaf = true) :
    walk1 nd root c v = (some (nd root.toNat).sym, root) := if_pos hroot

variable {child : NodeIndex} (hchild : child = if v then (nd c.toNat).right else (nd c.toNat).left)
include hchild

theorem walk1_of_child_leaf (hroot : (nd root.toNat).isLeaf = false) (hleaf : (nd child.toNat).isLeaf = true) :
    walk1 nd root c v = (some (nd child.toNat).sym, root) := by
  subst hchild
  exact (if_neg (ne_true_of_eq_false hroot)).trans (if_pos hleaf)

theorem walk1_of_child_internal (hroot : (nd root.toNat).isLeaf = false) (hleaf : (nd child.toNat).isLeaf = false) :
    walk1 nd root c v = (none, child) := by
  subst hchild
  exact (if_neg (ne_true_of_eq_false hroot)).trans (if_neg (ne_true_of_eq_false hleaf))

end Walk1

/-! ## DEC_STEP -/

/-- Bit 8 stands above the emitted byte, so that the two add (44_decoder R243). -/
theorem emission_some_toNat (x : Byte) : (emission (some x)).toNat = 256 + x.toNat := by
  have hbyte : (x.setWidth 32).toNat = x.toNat := BitVec.toNat_setWidth_of_le (by decide)
  calc (emission (some x)).toNat = 256 ||| x.toNat := by rw [emission, BitVec.toNat_or, hbyte]; rfl
    _ = 256 + x.toNat := (Nat.shiftLeft_add_eq_or_of_lt x.isLt 1).symm

theorem exec_decStep {s : State} {v : Byte} (htree : s.treeValid = true) (hv : v = 0 ∨ v = 1) :
    exec (.decStep v) s = .next ((s.setCursor (walk1 s.node s.root s.cursor (v == 1)).2).setQ0
      (emission (walk1 s.node s.root s.cursor (v == 1)).1)).complete := by
  have hbit : ¬ 1 < v.toNat := by obtain rfl | rfl := hv <;> decide
  exact (if_neg (ne_false_of_eq_true htree)).trans (if_neg hbit)

/-- Settles O34: DEC_STEP is one step of the walker, whose three cases are those of the statement. -/
theorem decStepResult : Obligations.DecStepResult := by
  intro s v htree hv child
  have hchild : child = if v == 1 then (s.node s.cursor.toNat).right else (s.node s.cursor.toNat).left := by
    obtain rfl | rfl := hv <;> rfl
  refine ⟨_, _, exec_decStep htree hv, fun hroot => ?_, fun hroot hleaf => ?_, fun hroot hleaf => ?_⟩
  · rw [walk1_of_root_leaf hroot]
    exact ⟨rfl, emission_some_toNat _⟩
  · rw [walk1_of_child_leaf hchild hroot hleaf]
    exact ⟨rfl, emission_some_toNat _⟩
  · rw [walk1_of_child_internal hchild hroot hleaf]
    exact ⟨rfl, rfl⟩

/-! ## DEC_BULK -/

/-- The bytes written read back, and every other byte is kept (20_memory R62). -/
theorem State.writeBytes_frame (s : State) (b : Nat) (vs : List Byte) :
    (∀ k, (hk : k < vs.length) → Memory.read s.dmemEpoch (s.writeBytes b vs).dmem (b + k) = vs[k]) ∧
    (∀ a, a < b ∨ b + vs.length ≤ a → Memory.read s.dmemEpoch (s.writeBytes b vs).dmem a = s.readByte a) := by
  refine ⟨fun k hk => ?_, fun a ha => ?_⟩
  · rw [State.writeBytes, Memory.read_writeBytes, if_pos (Nat.le_add_right _ _), Nat.add_sub_cancel_left,
      List.getElem?_eq_getElem hk, Option.getD_some]
  · rw [State.writeBytes, Memory.read_writeBytes]
    obtain hlow | hhigh := ha
    · exact if_neg (Nat.not_le.2 hlow)
    · rw [List.getElem?_eq_none (Nat.le_sub_of_add_le' hhigh)]
      exact ite_self _

/-- The next state of a command that has written bytes, the cursor and its three results. -/
theorem succeed_writeBytes (s : State) (b : Nat) (vs : List Byte) (c : NodeIndex) (v0 v1 v2 : Word) :
    succeed (((((s.writeBytes b vs).setCursor c).setQ0 v0).setQ1 v1).setQ2 v2) =
      .next { s with dmem := (s.writeBytes b vs).dmem, cursor := c, q0 := v0, q1 := v1, q2 := v2, err := false,
                     errCode := 0, errInfo := 0, pending := none } := by
  simp only [succeed, State.complete, State.setQ2, State.setQ1, State.setQ0, State.setCursor, State.writeBytes]

/-- Settles O35: with no check failing, DEC_BULK writes the symbols that `bulkWalk` gives and the cursor it ends at;
`Q2` says whether that is the root. -/
theorem decBulkResult : Obligations.DecBulkResult := by
  intro s htree hsrc hdst hapart hfit
  exact ⟨_, _, (execDecBulk_eq_succeed htree hsrc hdst hapart hfit).trans (succeed_writeBytes _ _ _ _ _ _ _),
    fun hroot => if_pos hroot, fun hroot => if_neg hroot, s.writeBytes_frame _ _⟩

end Sys2Proof.Machine
end

section
/-! PROOFS of the family 45_tree_serdes: the length of a serialized tree (45_tree_serdes R272), what TREE_DESER leaves
on an encoding and when it succeeds (R276 to R280), TREE_SER after it (R281), and the causes of its failures (R277). -/

namespace Sys2Proof.Machine

/-! ## The length of a serialized tree -/

/-- Nine bits per leaf and one per internal node (45_tree_serdes R272). -/
theorem HTree.bits_length_eq (t : HTree) :
    t.bits.length = 9 * t.leaves + (t.leaves - 1) ∧ t.bits.length = 10 * t.leaves - 1 := by
  have hbits := t.bits_length
  have hpos := t.leaves_pos
  omega

/-- Settles O56: the serializer gives the encoding of the tree held, whose length is that of the tree. -/
theorem serializedLength : Obligations.SerializedLength := by
  refine ⟨fun s t hold => ?_, HTree.bits_length_eq⟩
  obtain ⟨hsum, hlength⟩ := t.bits_length_eq
  rw [hold.serialized_eq]
  exact ⟨hsum, hlength, hold.nodeCount_eq⟩

/-! ## The state TREE_DESER leaves -/

section Deserialized
variable (s : State) {t : HTree}

/-- The effect of TREE_DESER field by field: only the tree, its table, the cursor, the queue, `Q0`, `Q1` and the error
record change (45_tree_serdes R276). -/
theorem State.deserialized_eq (t : HTree) : s.deserialized t =
    { s with nodes := HTree.layout 0 t, root := 0, nodeCount := BitVec.ofNat 10 (HTree.layout 0 t).length,
             treeValid := true, cursor := 0, codes := (s.installTree (HTree.layout 0 t) 0).generateCodes.codes,
             pq := [], q0 := BitVec.ofNat 32 t.bits.length, q1 := BitVec.ofNat 32 t.leaves, err := false,
             errCode := 0, errInfo := 0, pending := none } := rfl

theorem State.deserialized_node {k : Nat} (hk : k < (HTree.layout 0 t).length) :
    (s.deserialized t).node k = (HTree.layout 0 t)[k] := by
  change ((HTree.layout 0 t)[k]?).getD _ = _
  rw [List.getElem?_eq_getElem hk, Option.getD_some]

variable (hn : t.symbols.Nodup)
include hn

/-- At most 256 leaves make at most 2559 bits, so `Q0` does not wrap. -/
theorem State.deserialized_q0_toNat : (s.deserialized t).q0.toNat = t.bits.length := by
  have hlen := t.bits_length
  have hleaves := t.leaves_le hn
  exact Nat.mod_eq_of_lt (by omega)

theorem State.deserialized_q1_toNat : (s.deserialized t).q1.toNat = t.leaves := by
  have hleaves := t.leaves_le hn
  exact Nat.mod_eq_of_lt (by omega)

end Deserialized

/-- Settles O37: the store is the tree's layout, whose weights are 0 and whose children are numbered in pre-order. -/
theorem treeDeserResult : Obligations.TreeDeserResult := by
  intro s t hsrc hn hfit hbits
  have hold := s.deserialized_holdsTree hn
  have hsize := t.size_eq
  have hleaves := t.leaves_le hn
  refine ⟨s.deserialized t, exec_treeDeser_of_encoding hn hsrc hfit hbits, s.deserialized_eq t, hold,
    s.deserialized_code hn, fun k hk => ?_, fun k hk hinternal => ?_, s.deserialized_q0_toNat hn,
    s.deserialized_q1_toNat hn, hold.nodeCount_eq⟩
  · rw [s.deserialized_node hk]
    exact HTree.layout_freq 0 t _ (List.getElem_mem hk)
  · rw [s.deserialized_node hk] at hinternal ⊢
    have hchildren := HTree.layout_children 0 t (by omega) k (hk.trans_eq (HTree.layout_length 0 t)) hinternal
    rwa [Nat.zero_add] at hchildren

/-! ## What TREE_DESER accepts -/

/-- What the parser reads from the start of the source as a tree is the tree's encoding. -/
theorem readBits_of_parsable {s : State} {t : HTree} {b n : Nat}
    (h : Parsable (fun j => s.readBit (b + j)) n parseStart t) : s.readBits b t.bits.length = t.bits := by
  obtain ⟨-, hread, -⟩ := h
  refine List.ext_getElem (Memory.readBits_length _ _ _ _) fun j hj hj' => ?_
  calc (s.readBits b t.bits.length)[j] = s.readBit (b + j) := Memory.readBits_getElem _ _ _ _ _ hj
    _ = s.readBit (b + (0 + j)) := by rw [Nat.zero_add]
    _ = t.bits[j] := hread j hj'

/-- A successful TREE_DESER has found the encoding of a tree with distinct symbols at the start of its source
(45_tree_serdes R276, R279). -/
theorem exec_treeDeser_success {s u : State} (h : exec .treeDeser s = .next u) (hok : u.err = false) :
    ∃ t : HTree, t.symbols.Nodup ∧ t.bits.length ≤ s.args.a1.toNat ∧
      s.readBits s.args.a0.toNat t.bits.length = t.bits ∧ u = s.deserialized t := by
  obtain ⟨e, rfl⟩ | ⟨hreg, i, p, hparse, -⟩ := execTreeDeser_cases h
  · exact Bool.noConfusion hok
  · obtain ⟨t, hparsable, -⟩ := parseTree_sound _ _ _ _ _ _ (Nat.zero_le _) (Nat.zero_le _) hparse
    have hbits := readBits_of_parsable hparsable
    obtain ⟨hfit, -, -, hn, -⟩ := hparsable
    have hfit : t.bits.length ≤ s.args.a1.toNat := (Nat.zero_add _).symm.trans_le hfit
    have hnext := exec_treeDeser_of_encoding hn ((s.bitRegionOk_iff _ _).1 hreg) hfit hbits
    exact ⟨t, hn, hfit, hbits, Host.Outcome.next.inj (h.symm.trans hnext)⟩

/-- Settles O43: the parser is sound, and `Q0` is the length of the encoding it read. -/
theorem treeDeserAcceptsOnlyEncodings : Obligations.TreeDeserAcceptsOnlyEncodings := by
  intro s u h hok
  obtain ⟨t, hn, hfit, hbits, rfl⟩ := exec_treeDeser_success h hok
  rw [s.deserialized_q0_toNat hn]
  exact ⟨t, hn, hbits, hfit, s.deserialized_holdsTree hn⟩

/-! ## TREE_SER after TREE_DESER -/

/-- Settles O55: the tree TREE_DESER leaves serializes to the encoding it read. -/
theorem serializingInvertsDeserializing : Obligations.SerializingInvertsDeserializing := by
  intro s u p h hok hdst hfit
  obtain ⟨t, hn, -, hbits, rfl⟩ := exec_treeDeser_success h hok
  have hq0 := s.deserialized_q0_toNat hn
  rw [hq0] at hfit ⊢
  have hold : HoldsTree { s.deserialized t with pending := some p } t :=
    (s.deserialized_holdsTree hn).congr rfl rfl rfl rfl
  have hq1 : ((s.deserialized t).nodeCount.toNat + 1) / 2 = t.leaves := by
    rw [(s.deserialized_holdsTree hn).nodeCount_eq, Nat.mul_div_cancel_left _ Nat.two_pos]
  refine ⟨_, execTreeSer_eq_succeed rfl hold hdst hfit, rfl, rfl, congrArg (BitVec.ofNat 32) hq1, ?_⟩
  exact (Memory.readBits_writeBits _ _ _ _).trans hbits.symm

/-! ## The causes of InvalidContainer -/

theorem exec_treeDeser_of_fault {s : State} {cause : Word}
    (hsrc : s.args.a0.toNat + s.args.a1.toNat ≤ 8 * s.dmemBytes) (h : deserFault s = some cause) :
    exec .treeDeser s = .next (s.raise (.invalidContainer cause)) := by
  have hfirst : firstError .treeDeser s = some (.invalidContainer cause) := by
    simp [firstError, firstFailing, h, hsrc]
  obtain ⟨hfails, -⟩ := firstErrorIsReported .treeDeser s id
  exact hfails _ hfirst

section Causes
variable {room wanted : Nat} {seen : List Byte}

theorem treeFault_of_no_tag : treeFault room (wanted + 1) seen [] = some 1 := by cases room <;> rfl

theorem treeFault_of_full_store {p : Bits} (hp : p ≠ []) : treeFault 0 (wanted + 1) seen p = some 2 := by
  cases p with
  | nil => exact absurd rfl hp
  | cons v p => rfl

theorem treeFault_of_short_leaf {q : Bits} (hq : q.length < 8) :
    treeFault (room + 1) (wanted + 1) seen (true :: q) = some 1 := if_pos hq

theorem treeFault_of_repeated_leaf {x : Byte} {q : Bits} (hx : x ∈ seen) :
    treeFault (room + 1) (wanted + 1) seen (true :: (bin8 x ++ q)) = some 3 := by
  have hlong : ¬ (bin8 x ++ q).length < 8 := by simp
  rw [treeFault, if_neg hlong, List.take_left' (bin8_length x), ofNat_bitsVal_bin8, if_pos hx]

end Causes

/-- The nodes of an unfinished tree are read without a fault, and what follows them decides (45_tree_serdes R274). -/
theorem deserFault_of_unfinished {s : State} {ts : List TreeToken} {p : Bits}
    (hbits : s.readBits s.args.a0.toNat s.args.a1.toNat = ts.flatMap TreeToken.bits ++ p) (hopen : Unfinished ts)
    (hn : (ts.filterMap TreeToken.sym).Nodup) (hroom : ts.length ≤ 511) :
    ∃ w, deserFault s = treeFault (511 - ts.length) (w + 1) (ts.filterMap TreeToken.sym).reverse p := by
  obtain ⟨w, h⟩ := treeFault_tokens ts 511 0 [] p hroom
    (fun k hk => (hopen k hk).trans_eq (Nat.zero_add _).symm) hn (fun _ _ => List.not_mem_nil)
  refine ⟨w, ?_⟩
  rw [deserFault, hbits, h, List.append_nil]

/-- Settles O60: after the nodes read without a fault, each of the four continuations is the fault named. -/
theorem treeDeserNamesTheCause : Obligations.TreeDeserNamesTheCause := by
  intro s ts p hsrc hbits hopen hn hle failsWith
  obtain ⟨w, hfault⟩ := deserFault_of_unfinished hbits hopen hn hle
  have hroom (hlt : ts.length < 511) : 511 - ts.length = (510 - ts.length) + 1 := by omega
  have hfails (cause : Word) (h : deserFault s = some cause) : failsWith cause := exec_treeDeser_of_fault hsrc h
  refine ⟨fun hp => hfails 1 ?_, fun q hp hq hlt => hfails 1 ?_, fun hp hfull => hfails 2 ?_,
    fun x q hp hx hlt => hfails 3 ?_⟩ <;> rw [hfault]
  · rw [hp, treeFault_of_no_tag]
  · rw [hroom hlt, hp, treeFault_of_short_leaf hq]
  · rw [hfull, treeFault_of_full_store hp]
  · rw [hroom hlt, hp, treeFault_of_repeated_leaf (List.mem_reverse.2 hx)]

end Sys2Proof.Machine
end

section
/-! PROOFS of the family 60_exceptions: what a failed command and the step of a pending word change, and how every
command ends (60_exceptions R303, R304, R305). -/

namespace Sys2Proof.Machine

/-! ## What a failure changes (R305) -/

/-- The state a failure leaves is the state before it but for the record, `PENDING` and `Q1`, and `Q1` is written with
the code of SymbolNotInTable alone. -/
theorem failedState_frame (s : State) (e : CmdError) :
    failedState s e = { s with err := true, errCode := (failedState s e).errCode, errInfo := (failedState s e).errInfo,
                               pending := none, q1 := (failedState s e).q1 } ∧
    ((failedState s e).errCode ≠ 2 → (failedState s e).q1 = s.q1) := by
  refine ⟨rfl, fun hcode => ?_⟩
  rw [failedState_eq_raise s hcode, State.raise_q1]

/-- A command that ends with `ERR = 1` has failed one of its checks: with none failing it would have succeeded, and a
refusal gives no next state. -/
theorem exec_failure {i : Instr} {s t : State} (h : exec i s = .next t) (herr : t.err = true) :
    ∃ e, t = failedState s e := by
  have hov : ¬ OverlapRefused i s := fun hov => by simp [exec_of_overlapRefused hov] at h
  obtain ⟨hfail, hpass⟩ := exec_reports i s hov
  cases hfirst : firstError i s with
  | some e => exact ⟨e, Host.Outcome.next.inj (h.symm.trans (hfail e hfirst))⟩
  | none =>
    obtain ⟨u, hu⟩ := hpass hfirst
    obtain rfl : t = u.complete := (succeed_next _ _).1 (hu.symm.trans h)
    exact absurd herr Bool.false_ne_true

/-- The step of a pending word that ends with `ERR = 1` is a failure: of its command, or for want of one (30_encoding
R105). -/
theorem step_failure {s t : State} (hp : s.pending ≠ none) (he : s.hostEarly = false) (h : step s = .next t)
    (herr : t.err = true) : ∃ e, t = failedState s e := by
  obtain ⟨p, hp⟩ := Option.ne_none_iff_exists'.1 hp
  cases hd : decode p.word with
  | ok i =>
    rw [stepRunsThePendingCommand s p i hp he hd] at h
    exact exec_failure h herr
  | error _ =>
    rw [step_of_decode_error hp he hd, failWith_next] at h
    exact ⟨.illegalCommand p.word, h⟩

/-- Settles O40: the state left is that of a failure, whose frame is R305's. -/
theorem failedCommandChangesNothing : Obligations.FailedCommandChangesNothing := by
  constructor
  · intro i s t h herr
    obtain ⟨e, rfl⟩ := exec_failure h herr
    exact failedState_frame s e
  · intro s t hp he h herr
    obtain ⟨e, rfl⟩ := step_failure hp he h herr
    exact failedState_frame s e

/-! ## How a command ends (R303, R304) -/

/-- A command is over after its step, whether it has failed or completed. -/
theorem exec_pending {i : Instr} {s t : State} (h : exec i s = .next t) : t.pending = none := by
  obtain ⟨v, e, rfl⟩ | ⟨u, v0, v1, v2, -, rfl⟩ := exec_cases h
  · exact State.raise_pending _ e
  · exact State.complete_pending _

/-- Settles O41: nothing is pending, so the block is idle, and the record a command leaves is a legal one. -/
theorem successClearsTheRecord : Obligations.SuccessClearsTheRecord := by
  intro i s t h
  have hpending := exec_pending h
  obtain ⟨hclear, -⟩ := exec_recordInv h
  exact ⟨hpending, State.busy_of_pending_none hpending, hclear⟩

end Sys2Proof.Machine
end

section
/-! PROOFS of the family 70_reset_and_hazards: what the host may do while a command runs, and which commands and host
actions reach `OVERRUN` (70_reset_and_hazards R351, R352, R354). -/

namespace Sys2Proof.Machine

/-! ## OVERRUN (R351) -/

theorem Effect.overrun_eq {i : Instr} {s u : State} (h : Effect i s u) :
    u.overrun = s.overrun ∨ i = .ackOverrun ∨ i = .softReset := by
  cases h <;> simp

/-- A failed command leaves `OVERRUN` alone, and a completed one writes it only where its effect does. -/
theorem exec_overrun {i : Instr} {s t : State} (h : exec i s = .next t) (hack : i ≠ .ackOverrun)
    (hreset : i ≠ .softReset) : t.overrun = s.overrun := by
  obtain ⟨v, e, rfl⟩ | ⟨u, v0, v1, v2, hu, rfl⟩ := exec_cases h
  · simp
  · obtain heq | hi | hi := hu.overrun_eq
    · simpa using heq
    · exact absurd hi hack
    · exact absurd hi hreset

theorem State.writeWindow_overrun {s : State} (h : s.overrun = true) (o : BitVec 6) (v : Word) :
    (s.writeWindow o v).overrun = true := by
  obtain he | he | ⟨x, y, z, w, he⟩ := writeWindow_cases s o v <;> rw [he]
  · exact h
  · exact State.setOverrun_overrun s true
  · exact h

/-- Of the host's actions only the reset input clears `OVERRUN`. -/
theorem hostAct_keeps_overrun {a : HostAction} {s t : State} (h : hostAct a s = .next t) (ha : a ≠ .hardReset)
    (hs : s.overrun = true) : t.overrun = true := by
  obtain ⟨_, o, v, -, rfl⟩ | ⟨v, d, rfl⟩ | ⟨a, bs, -, -, -, rfl⟩ | ⟨l, -, rfl⟩ | ⟨hreset, -⟩ := hostAct_cases h
  · exact State.writeWindow_overrun hs o v
  · exact hs
  · exact hs
  · exact hs
  · exact absurd hreset ha

theorem hostAct_hardReset (s : State) : hostAct .hardReset s = .next s.hardReset := rfl

/-- Settles O10: a write to a busy `CMD` sets `OVERRUN`; only the effects of ACK_OVERRUN and SOFT_RESET and the reset
input reach it afterwards, and each of the three leaves it 0. -/
theorem overrunIsSticky : Obligations.OverrunIsSticky := by
  refine ⟨fun s w hp => hostAct_writeCmd_busy hp w, fun i s t h => exec_overrun h,
    fun a s t h => hostAct_keeps_overrun h, ?_⟩
  rintro s t (h | h | h)
  · rw [exec_ackOverrun] at h
    obtain rfl := Host.Outcome.next.inj h
    rfl
  · rw [exec_softReset] at h
    obtain rfl := Host.Outcome.next.inj h
    rfl
  · rw [hostAct_hardReset] at h
    obtain rfl := Host.Outcome.next.inj h
    exact State.hardReset_overrun s

/-! ## Argument writes (R352) -/

/-- Settles O11: the window writes the register itself whatever is pending, and an issue latches what the registers
hold. -/
theorem argumentWritesReachTheNextCommand : Obligations.ArgumentWritesReachTheNextCommand := by
  intro s v w
  exact ⟨⟨hostAct_writeReg s (o := 0x08#6) rfl v, State.issue_args { s with a0 := v } w⟩,
    ⟨hostAct_writeReg s (o := 0x0C#6) rfl v, State.issue_args { s with a1 := v } w⟩,
    ⟨hostAct_writeReg s (o := 0x10#6) rfl v, State.issue_args { s with a2 := v } w⟩,
    ⟨hostAct_writeReg s (o := 0x14#6) rfl v, State.issue_args { s with a3 := v } w⟩⟩

/-! ## DMEM while busy (R354) -/

theorem hostAct_writeMem_busy {s : State} (hb : s.busy = true) (a : Word) {bs : List Byte} (hbs : bs ≠ []) :
    hostAct (.writeMem a bs) s = .refused .dmemRace := by
  have hsome : ¬ bs.isEmpty = true := mt List.isEmpty_iff.1 hbs
  rw [hostAct, if_neg hsome, if_pos hb]

theorem hostAct_readMem_busy {s : State} (hb : s.busy = true) (a : Word) :
    hostAct (.readMem a) s = .refused .dmemRace := by
  rw [hostAct, if_pos hb]

/-- Settles O16: `BUSY` is tested before the address is. -/
theorem dmemAccessWhileBusyIsRefused : Obligations.DmemAccessWhileBusyIsRefused :=
  fun _ a _ hb => ⟨hostAct_writeMem_busy hb a, hostAct_readMem_busy hb a⟩

end Sys2Proof.Machine
end
